-- ==== Sys2Proof/Word.lean ====
section
/-! DEFINITION. The words of the block: a byte, a length or index word, a command word. -/

namespace Sys2Proof

/-- A byte, 8 bits, unsigned (30_encoding.md R90). -/
abbrev Byte := BitVec 8

/-- A length or an index, `LEN_W = 32` bits, unsigned (00_scope.md R11). -/
abbrev LenWord := BitVec 32

/-- A command word `cmd[34:0]` (30_encoding.md R110). -/
abbrev CommandWord := BitVec 35

/-- An operation code, `cmd[34:32]` (30_encoding.md R110). -/
abbrev OpCode := BitVec 3

end Sys2Proof
end

