-- ==== Sys2Proof/Config.lean ====
section
/-! DEFINITION. What an implementation fixes (00_scope.md section 4; 92_eei_decisions.md, "Open parameters, collected")
and the values the spec leaves free. -/

namespace Sys2Proof

/-- `MAX_SIGNED_32` (00_scope.md R8). -/
def Config.maxSigned32 : Nat := 2147483647

/-- A character: an unsigned code of `CHAR_W` bits (30_encoding.md R91). `CHAR_W` is a parameter and no rule does
arithmetic on a code, so a code is a number; that it is below `2 ^ CHAR_W` is `Buffer.codesFit` of a buffer. -/
abbrev Chr := Nat

/-- The named parameters of the block that a rule uses (92_eei_decisions.md, "Open parameters, collected"). -/
structure Params where
  /-- `CHAR_W`, the width of a character in bits (00_scope.md R12). -/
  charW : Nat
  /-- `HEX_MAX_IN`, the greatest input length of TOHEX (00_scope.md R9). -/
  hexMaxIn : Nat
  /-- `B32_MAX_IN`, the greatest input length of TOBASE32 (00_scope.md R10). -/
  b32MaxIn : Nat
  deriving DecidableEq, Repr

/-- The defaults (00_scope.md R9, R10, R12). -/
def Params.defaults : Params where
  charW := 8
  hexMaxIn := Config.maxSigned32 / 2
  b32MaxIn := Config.maxSigned32 * 5 / 8

/-- The constraints on the parameters (92_eei_decisions.md, "Open parameters, collected"). -/
abbrev Params.Legal (p : Params) : Prop :=
  8 ≤ p.charW ∧ 2 * p.hexMaxIn ≤ Config.maxSigned32 ∧ (8 * p.b32MaxIn + 4) / 5 ≤ Config.maxSigned32

/-- FREE VALUE (log 5): the n-th value handed to the host for a DST byte that nothing has written
(93_implementation_defined.md U6). -/
opaque Config.freeByte : Nat → Byte

/-- FREE VALUE (log 5): the number the same is made from for a DST element that is a character. -/
opaque Config.freeCode : Nat → Nat

/-- The n-th free character: the free number, within the width of a character. -/
def Params.freeChar (p : Params) (n : Nat) : Chr := Config.freeCode n % 2 ^ p.charW

end Sys2Proof
end

