-- ==== Sys2Proof/Syntax.lean ====
section
/-! DEFINITION. The commands of the block, one constructor for each row of spec/opcode_table.json. -/

namespace Sys2Proof

/-- A command: an operation and the length of its input in elements of the unit's SRC (30_encoding.md R110, R111,
R114). The buffers are not named: a command works on the SRC and DST of the unit it goes to. -/
inductive Instr where
  /-- TOHEX (40_hex_encoder.md R131). -/
  | toHex (len : LenWord)
  /-- FROMHEX (41_hex_decoder.md R143). -/
  | fromHex (len : LenWord)
  /-- ISHEX (41_hex_decoder.md R144). -/
  | isHex (len : LenWord)
  /-- TOBASE32 (42_base32_encoder.md R161). -/
  | toBase32 (len : LenWord)
  /-- FROMBASE32 (43_base32_decoder.md R183). -/
  | fromBase32 (len : LenWord)
  /-- ISBASE32 (43_base32_decoder.md R184). -/
  | isBase32 (len : LenWord)
  deriving DecidableEq, Repr

namespace Instr

/-- The `len` field of a command. -/
def len : Instr → LenWord
  | toHex n | fromHex n | isHex n | toBase32 n | fromBase32 n | isBase32 n => n

end Instr

end Sys2Proof
end

