-- ==== Sys2Proof/WellFormed.lean ====
section
/-! DEFINITION. Which operation codes and command words are those of an operation. The bound of `len` (R110, R114) is
its type, and an `Instr` has no reserved form, so the one check there is concerns the operation code of a word. -/

namespace Sys2Proof

/-- The operation code has an operation: every code but 001 and 101 (30_encoding.md R111, R112). -/
def opAssigned (op : OpCode) : Bool := op != 0b001#3 && op != 0b101#3

/-- A command word is well formed: its operation code, `cmd[34:32]`, is not reserved (R110, R112). -/
def commandWordWellFormed (w : CommandWord) : Bool := opAssigned (w.extractLsb' 32 3)

end Sys2Proof
end

