-- ==== Sys2Proof/Decode.lean ====
section
/-! DEFINITION. The command word read as a command, total, the reserved codes rejected by name, and the encoder written
from the same table (30_encoding.md R110 to R112). -/

namespace Sys2Proof

/-- Why a command word is no command: its operation code is reserved (30_encoding.md R112). -/
inductive DecodeError where
  | reservedCode (op : OpCode)
  deriving DecidableEq, Repr

/-- `op = cmd[34:32]` (R110). -/
def opField (w : CommandWord) : OpCode := w.extractLsb' 32 3

/-- `len = cmd[31:0]` (R110). -/
def lenField (w : CommandWord) : LenWord := w.extractLsb' 0 32

/-- The command a word stands for, by the table of R111; codes 001 and 101 are reserved (R112). -/
def decode (w : CommandWord) : Except DecodeError Instr :=
  match (opField w).toNat with
  | 0 => .ok (.toHex (lenField w))
  | 2 => .ok (.fromHex (lenField w))
  | 3 => .ok (.isHex (lenField w))
  | 4 => .ok (.toBase32 (lenField w))
  | 6 => .ok (.fromBase32 (lenField w))
  | 7 => .ok (.isBase32 (lenField w))
  | _ => .error (.reservedCode (opField w))

/-- The operation code of a command (R111). -/
def opcode : Instr → OpCode
  | .toHex _ => 0b000#3
  | .fromHex _ => 0b010#3
  | .isHex _ => 0b011#3
  | .toBase32 _ => 0b100#3
  | .fromBase32 _ => 0b110#3
  | .isBase32 _ => 0b111#3

/-- The command word of a command: `op` above `len` (R110). -/
def encode (i : Instr) : CommandWord := opcode i ++ i.len

/-- What the decoder reads from a word given as the opcode table numbers its bits. A number that does not fit the
35-bit command port is no command word (log 16). -/
def decodeTableWord (nbits w : Nat) : Option Instr :=
  if w < 2 ^ nbits ∧ w < 2 ^ 35 then
    match decode (BitVec.ofNat 35 w) with
    | .ok i => some i
    | .error _ => none
  else none

end Sys2Proof
end

