-- ==== Sys2Proof/Machine/State.lean ====
section
/-! DEFINITION. All the state the spec gives the block, as plain data, the reasons a step can stop, and the state after
reset (10_state.md R20 to R50). -/

namespace Sys2Proof.Machine

/-- The four operation units (10_state.md R20). -/
inductive UnitId where
  | hexEncoder
  | hexDecoder
  | base32Encoder
  | base32Decoder
  deriving DecidableEq, Repr

/-- `STATUS.STATE` (10_state.md R27): three values; the fourth code is never held. -/
inductive RunState where
  | idle
  | busy
  | done
  deriving DecidableEq, Repr

/-- `STATUS.ERR` (10_state.md R29, 60_exceptions.md R230). -/
inductive Err where
  | none
  | outOfRange
  | invalidLength
  | invalidCharacter
  deriving DecidableEq, Repr

/-- `PHASE` of a decoder (10_state.md R28). -/
inductive Phase where
  | scan
  | emit
  deriving DecidableEq, Repr

/-- `STATUS`, by its three fields (10_state.md R26); `Status.word` in Flags.lean is the 5-bit word. -/
structure Status where
  state : RunState
  err : Err
  result : Bool
  deriving DecidableEq, Repr

/-- The registers every unit has (10_state.md R21). -/
structure Regs where
  op : OpCode
  len : LenWord
  outlen : LenWord
  status : Status
  idx : LenWord
  odx : LenWord
  deriving DecidableEq, Repr

/-- A buffer of elements, as pairs of an index and an element (`Host.Cell` where the elements are bytes), indices
strictly rising. An index that is not listed holds no value the spec specifies (10_state.md R49). One character is one
element at one index, whatever its width (20_memory.md R62). -/
abbrev Buffer (α : Type) := List (Nat × α)

/-- Unit 0 (10_state.md R21, R43, R44). -/
structure HexEncoder where
  regs : Regs
  src : Buffer Byte
  dst : Buffer Chr
  deriving DecidableEq, Repr

/-- Unit 1. -/
structure HexDecoder where
  regs : Regs
  phase : Phase
  src : Buffer Chr
  dst : Buffer Byte
  deriving DecidableEq, Repr

/-- Unit 2: `BUF` and `BITS` are the accumulator (10_state.md R34, R35). -/
structure Base32Encoder where
  regs : Regs
  buf : BitVec 12
  bits : BitVec 4
  src : Buffer Byte
  dst : Buffer Chr
  deriving DecidableEq, Repr

/-- Unit 3. -/
structure Base32Decoder where
  regs : Regs
  phase : Phase
  buf : BitVec 12
  bits : BitVec 4
  src : Buffer Chr
  dst : Buffer Byte
  deriving DecidableEq, Repr

/-- What can reach the block from outside (44_command_protocol.md R200, R209). -/
inductive Input where
  /-- The host issues a command and it runs to its end in this one step (R210, the whole command in a single step). -/
  | call (w : CommandWord)
  /-- The host issues a command and the unit accepts it; the unit's steps follow one by one (R201, R206). -/
  | issue (w : CommandWord)
  /-- Unit `u` is the agent that takes this step (R209). -/
  | turn (u : UnitId)
  /-- The host writes one element of `u.SRC` (R200 (a)). -/
  | writeSrc (u : UnitId) (i : LenWord) (v : Nat)
  /-- The host reads one element of `u.DST` (R200 (b)). -/
  | readDst (u : UnitId) (i : LenWord)
  /-- The host reads `u.OP` (R200 (c)). -/
  | readOp (u : UnitId)
  /-- The host reads `u.LEN` (R200 (c)). -/
  | readLen (u : UnitId)
  /-- The host reads `u.OUTLEN` (R200 (c)). -/
  | readOutlen (u : UnitId)
  /-- The host reads `u.STATUS` (R200 (c)). -/
  | readStatus (u : UnitId)
  /-- The host resets the block (R200 (e), 70_reset_and_hazards.md R260). -/
  | reset
  deriving DecidableEq, Repr

/-- What a read port hands to the host (10_state.md R38, 44_command_protocol.md R200 (b), (c)). -/
inductive Answer where
  | op (v : OpCode)
  | len (v : LenWord)
  | outlen (v : LenWord)
  | status (v : BitVec 5)
  | byte (v : Byte)
  | chr (v : Chr)
  deriving DecidableEq, Repr

/-- Why the machine stops with a fault. All three mark states the spec says no unit is ever in; no run from reset
reaches one, and the stop is safe (log 12). -/
inductive Fault where
  /-- Raised by a unit's step that reads an SRC element nothing has written (10_state.md R49). Safe. -/
  | unwrittenSourceRead (u : UnitId)
  /-- Raised by a decoder's EMIT step that meets an INVALID character, which the SCAN pass had to find
  (41_hex_decoder.md R148, 43_base32_decoder.md R189). Safe. -/
  | invalidCharacterInEmit (u : UnitId)
  /-- Raised by a BUSY unit none of whose conditions holds, IDX being beyond LEN (44_command_protocol.md R206,
  10_state.md R31). Safe. -/
  | noEnabledStep (u : UnitId)
  deriving DecidableEq, Repr

/-- Why the machine gives a step no meaning. -/
inductive Refusal where
  /-- An instruction whose meaning has not been written; raised by `exec` alone. Safe. No arm raises it now. -/
  | notModelled (mnemonic : String)
  /-- Raised when a command with code 001 or 101 is issued: "a model refuses a command with a reserved code"
  (30_encoding.md R112). Safe. -/
  | reservedCode (op : OpCode)
  /-- Raised when a command that would become BUSY is issued and some `SRC[0 .. len-1]` was never written
  (70_reset_and_hazards.md R263, R267; 93_implementation_defined.md U6 "refuse"). Safe (log 4). -/
  | sourceNotWritten (u : UnitId)
  /-- Raised when the host touches a buffer of a BUSY unit (70_reset_and_hazards.md R263, R264, R267; U8 "refuse").
  Safe (log 11). -/
  | bufferOfBusyUnit (u : UnitId)
  /-- Raised when the host writes an SRC value that does not fit the element (70_reset_and_hazards.md R263, R267).
  Safe (log 11). -/
  | elementTooWide (u : UnitId)
  deriving DecidableEq, Repr

/-- The whole state: the four units, the block's parameters, and the model's own fields (INVENTORY.md, "State"). -/
structure State where
  /-- The parameters of the block, which no step changes (00_scope.md R9, R10, R12; log 7, log 8). -/
  params : Params
  hexEncoder : HexEncoder
  hexDecoder : HexDecoder
  base32Encoder : Base32Encoder
  base32Decoder : Base32Decoder
  /-- The model's: what reaches the block next, oldest first (log 2, log 9). -/
  inputs : List Input
  /-- The model's: what the read ports last handed to the host (log 15). -/
  answer : Option Answer
  /-- The model's: how many free values have been used (log 5). -/
  fresh : Nat
  deriving DecidableEq, Repr

/-- A unit's registers after reset (10_state.md R49): `OP` is the unit number with bit 0 clear. `IDX` and `ODX` are
unspecified there. DESIGN CHOICE (log 3): 0. -/
def Regs.afterReset (op : OpCode) : Regs :=
  { op := op, len := 0, outlen := 0, status := { state := .idle, err := .none, result := false }, idx := 0, odx := 0 }

/-- Right after reset (10_state.md R49, 70_reset_and_hazards.md R260). `PHASE`, `BUF` and `BITS` are unspecified there.
DESIGN CHOICE (log 3): SCAN and 0. The buffers are unspecified there: nothing is listed. The parameters are the
defaults (log 7, log 8). -/
def State.reset : State where
  params := .defaults
  hexEncoder := { regs := .afterReset 0b000#3, src := [], dst := [] }
  hexDecoder := { regs := .afterReset 0b010#3, phase := .scan, src := [], dst := [] }
  base32Encoder := { regs := .afterReset 0b100#3, buf := 0, bits := 0, src := [], dst := [] }
  base32Decoder := { regs := .afterReset 0b110#3, phase := .scan, buf := 0, bits := 0, src := [], dst := [] }
  inputs := []
  answer := none
  fresh := 0

end Sys2Proof.Machine
end

