-- ==== Sys2Proof/Machine/Flags.lean ====
section
/-! DEFINITION. The status word of a unit: the codes of its fields and what writes them (10_state.md R26 to R30; the
block has no other flags, R48). -/

namespace Sys2Proof.Machine

/-- The code of `STATUS.STATE` (10_state.md R27). -/
def RunState.code : RunState → BitVec 2
  | .idle => 0
  | .busy => 1
  | .done => 2

/-- The code of `STATUS.ERR` (10_state.md R29, 60_exceptions.md R230). -/
def Err.code : Err → BitVec 2
  | .none => 0
  | .outOfRange => 1
  | .invalidLength => 2
  | .invalidCharacter => 3

/-- The code of `PHASE` (10_state.md R28). -/
def Phase.code : Phase → BitVec 1
  | .scan => 0
  | .emit => 1

/-- The 5-bit `STATUS` the host reads: `STATUS[1:0] = STATE`, `STATUS[3:2] = ERR`, `STATUS[4] = RESULT`
(10_state.md R26). -/
def Status.word (s : Status) : BitVec 5 := BitVec.ofBool s.result ++ s.err.code ++ s.state.code

/-- A unit is running a command (10_state.md R27). -/
abbrev Regs.Busy (r : Regs) : Prop := r.status.state = .busy

/-- The command in progress is a validation, `OP[0] = 1` (10_state.md R23). -/
abbrev Regs.Validates (r : Regs) : Prop := r.op.getLsbD 0 = true

/-- `RESULT <- b` (10_state.md R30). -/
def setResult (b : Bool) (r : Regs) : Regs := { r with status := { r.status with result := b } }

end Sys2Proof.Machine
end

