-- ==== Sys2Proof/Machine/Operands.lean ====
section
/-! DEFINITION. How operands are taken apart and put together: the four ROM tables, the symbol values, and the
whole-string functions of the six operations (30_encoding.md sections 2, 3, 5; rules R130, R140, R160, R180). -/

namespace Sys2Proof.Machine

/-! ## alphabet_table_rom -/

/-- `HEX_ALPHA`, index = symbol value, entry = 7-bit ASCII code (30_encoding.md R94, R98). -/
def hexAlphabet : Vector (BitVec 7) 16 :=
  #v[0x30, 0x31, 0x32, 0x33, 0x34, 0x35, 0x36, 0x37,
     0x38, 0x39, 0x61, 0x62, 0x63, 0x64, 0x65, 0x66]

/-- `B32_ALPHA` (30_encoding.md R96, R98). -/
def b32Alphabet : Vector (BitVec 7) 32 :=
  #v[0x30, 0x31, 0x32, 0x33, 0x34, 0x35, 0x36, 0x37,
     0x38, 0x39, 0x61, 0x62, 0x63, 0x64, 0x65, 0x66,
     0x67, 0x68, 0x6A, 0x6B, 0x6D, 0x6E, 0x70, 0x71,
     0x72, 0x73, 0x74, 0x76, 0x77, 0x78, 0x79, 0x7A]

/-- The character an encoder writes for a hexadecimal symbol value: `zext_CHAR_W(HEX_ALPHA[v])`, the code itself at
every width (R98). -/
def hexAlpha (v : BitVec 4) : Chr := (hexAlphabet[v.toNat]'v.isLt).toNat

/-- The character an encoder writes for a Base32 symbol value: `zext_CHAR_W(B32_ALPHA[v])` (R98). -/
def b32Alpha (v : BitVec 5) : Chr := (b32Alphabet[v.toNat]'v.isLt).toNat

/-! ## decode_lut_rom: a value, or nothing for INVALID (30_encoding.md R100). One row holds 16 codes. -/

/-- `HEX_LUT`, the sixteen codes 0x00 to 0x0F; codes 0x10 to 0x2F hold the same row of INVALID (R101). -/
def hexLutNone : List (Option (BitVec 4)) := List.replicate 16 none

/-- Codes 0x30 to 0x3F (R101). -/
def hexLutRow3 : List (Option (BitVec 4)) :=
  [some 0, some 1, some 2, some 3, some 4, some 5, some 6, some 7, some 8, some 9, none, none, none, none, none, none]

/-- Codes 0x40 to 0x4F (R101). -/
def hexLutRow4 : List (Option (BitVec 4)) :=
  [none, some 10, some 11, some 12, some 13, some 14, some 15, none, none, none, none, none, none, none, none, none]

/-- `HEX_LUT`, 128 entries, index = ASCII code (30_encoding.md R101). The rows 0x60 and 0x70 are those of the lowercase
letters and hold what 0x40 and 0x50 hold (R106). -/
def hexLut : List (Option (BitVec 4)) :=
  hexLutNone ++ hexLutNone ++ hexLutNone ++ hexLutRow3 ++ hexLutRow4 ++ hexLutNone ++ hexLutRow4 ++ hexLutNone

/-- `B32_LUT`, the sixteen codes 0x00 to 0x0F; codes 0x10 to 0x2F hold the same row of INVALID (R103). -/
def b32LutNone : List (Option (BitVec 5)) := List.replicate 16 none

/-- Codes 0x30 to 0x3F (R103). -/
def b32LutRow3 : List (Option (BitVec 5)) :=
  [some 0, some 1, some 2, some 3, some 4, some 5, some 6, some 7, some 8, some 9, none, none, none, none, none, none]

/-- Codes 0x40 to 0x4F (R103). -/
def b32LutRow4 : List (Option (BitVec 5)) :=
  [none, some 10, some 11, some 12, some 13, some 14, some 15, some 16, some 17, none, some 18, some 19, none, some 20, some 21, none]

/-- Codes 0x50 to 0x5F (R103). -/
def b32LutRow5 : List (Option (BitVec 5)) :=
  [some 22, some 23, some 24, some 25, some 26, none, some 27, some 28, some 29, some 30, some 31, none, none, none, none, none]

/-- `B32_LUT`, 128 entries, index = ASCII code (30_encoding.md R103). The rows 0x60 and 0x70 are those of the lowercase
letters and hold what 0x40 and 0x50 hold (R106). -/
def b32Lut : List (Option (BitVec 5)) :=
  b32LutNone ++ b32LutNone ++ b32LutNone ++ b32LutRow3 ++ b32LutRow4 ++ b32LutRow5 ++ b32LutRow4 ++ b32LutRow5

/-- `hexval(c)` of a character of any code: a code of 128 or more is INVALID without a ROM read
(30_encoding.md R102, 20_memory.md R74). -/
def hexval (c : Chr) : Option (BitVec 4) := if 128 ≤ c then none else hexLut.getD c none

/-- `b32val(c)` (30_encoding.md R104). -/
def b32val (c : Chr) : Option (BitVec 5) := if 128 ≤ c then none else b32Lut.getD c none

/-- The uppercase equivalent of a character: 0x20 lower for `a` to `z`, every other character as it is
(30_encoding.md R99). -/
def upperChr (c : Chr) : Chr := if 0x61 ≤ c ∧ c ≤ 0x7A then c - 0x20 else c

/-- The lowercase form of a character: 0x20 higher for `A` to `Z`. -/
def lowerChr (c : Chr) : Chr := if 0x41 ≤ c ∧ c ≤ 0x5A then c + 0x20 else c

/-! ## Hexadecimal operands (30_encoding.md R115) -/

/-- The symbol value of the high four bits of a byte (R115). -/
def highNibble (b : Byte) : BitVec 4 := (b >>> 4).setWidth 4

/-- The symbol value of the low four bits of a byte (R115). -/
def lowNibble (b : Byte) : BitVec 4 := (b &&& 0xF).setWidth 4

/-- Two symbol values join into the byte `(h << 4) | l` (R115). -/
def joinNibbles (h l : BitVec 4) : Byte := (h.setWidth 8 <<< 4) ||| l.setWidth 8

/-- `HexEncode(B)` (40_hex_encoder.md R130). -/
def hexEncode (bs : List Byte) : List Chr := bs.flatMap fun b => [hexAlpha (highNibble b), hexAlpha (lowNibble b)]

/-- `HexValid(S)` (41_hex_decoder.md R140). -/
def hexValid (s : List Chr) : Bool := s.length % 2 == 0 && s.all fun c => (hexval c).isSome

/-- The bytes of consecutive pairs of characters, where every character is valid (R140). -/
def hexPairs : List Chr → Option (List Byte)
  | [] => some []
  | [_] => none
  | c₁ :: c₂ :: rest =>
    match hexval c₁, hexval c₂, hexPairs rest with
    | some h, some l, some bs => some (joinNibbles h l :: bs)
    | _, _, _ => none

/-- `HexDecode(S)`, defined when `HexValid(S)` (41_hex_decoder.md R140). -/
def hexDecode (s : List Chr) : Option (List Byte) := if hexValid s then hexPairs s else none

/-! ## Base32 operands (30_encoding.md R116): one string of bits, most significant bit first -/

/-- The number a list of bits is, the first bit the most significant. -/
def bitsValue (bits : List Bool) : Nat := bits.foldl (fun n b => 2 * n + b.toNat) 0

/-- `X'[k]` of 42_base32_encoder.md R160: bit `7 - k mod 8` of byte `k / 8`, and zero past the last byte. -/
def byteStreamBit (bs : List Byte) (k : Nat) : Bool :=
  match bs[k / 8]? with
  | some b => b.getLsbD (7 - k % 8)
  | none => false

/-- `Y[k]` of 43_base32_decoder.md R180: bit `4 - k mod 5` of symbol value `k / 5`. -/
def symbolStreamBit (vs : List (BitVec 5)) (k : Nat) : Bool :=
  match vs[k / 5]? with
  | some v => v.getLsbD (4 - k % 5)
  | none => false

/-- The symbol value `v_j` of R160: bits `5j` to `5j+4` of the stream. -/
def b32Symbol (bs : List Byte) (j : Nat) : BitVec 5 :=
  BitVec.ofNat 5 (bitsValue ((List.range 5).map fun t => byteStreamBit bs (5 * j + t)))

/-- The byte `B[j]` of R180: bits `8j` to `8j+7` of the stream. -/
def b32Byte (vs : List (BitVec 5)) (j : Nat) : Byte :=
  BitVec.ofNat 8 (bitsValue ((List.range 8).map fun t => symbolStreamBit vs (8 * j + t)))

/-! ## Lengths (30_encoding.md R117), over the natural numbers -/

/-- Output length of TOHEX (R117). -/
def toHexLength (n : Nat) : Nat := 2 * n

/-- Output length of FROMHEX (R117). -/
def fromHexLength (n : Nat) : Nat := n / 2

/-- Output length of TOBASE32, `ceil(8 n / 5)` (R117). -/
def toBase32Length (n : Nat) : Nat := (8 * n + 4) / 5

/-- Output length of FROMBASE32, `floor(5 n / 8)` (R117). -/
def fromBase32Length (n : Nat) : Nat := 5 * n / 8

/-- Length check of the hexadecimal decoder: even (41_hex_decoder.md R141). -/
def hexLengthOk (n : Nat) : Bool := n % 2 == 0

/-- Length check of the Base32 decoder: the length class `n mod 8` is not 1, 3 or 6 (43_base32_decoder.md R181). -/
def b32LengthOk (n : Nat) : Bool := n % 8 != 1 && n % 8 != 3 && n % 8 != 6

/-- `B32Encode(B)` (42_base32_encoder.md R160). -/
def b32Encode (bs : List Byte) : List Chr :=
  (List.range (toBase32Length bs.length)).map fun j => b32Alpha (b32Symbol bs j)

/-- `B32Valid(S)` (43_base32_decoder.md R180). -/
def b32Valid (s : List Chr) : Bool := b32LengthOk s.length && s.all fun c => (b32val c).isSome

/-- `B32Decode(S)`, defined when `B32Valid(S)` (43_base32_decoder.md R180). The bits left over at the end belong to no
byte and are dropped whatever they are (R191). -/
def b32Decode (s : List Chr) : Option (List Byte) :=
  if b32Valid s then
    let vs := s.filterMap b32val
    some ((List.range (fromBase32Length s.length)).map (b32Byte vs))
  else none

end Sys2Proof.Machine
end

