-- ==== Sys2Proof/Machine/Ops.lean ====
section
/-! DEFINITION. The named operations over buffers and registers, the end of a command with and without an error, and how
a unit accepts, steps and runs a command (20_memory.md, 44_command_protocol.md, 60_exceptions.md R236). -/

namespace Sys2Proof.Machine

/-! ## Outcomes -/

/-- Go on with the next state, or stop as `o` stops. -/
def andThen {α β : Type} (o : Host.Outcome α Fault Refusal) (f : α → Host.Outcome β Fault Refusal) :
    Host.Outcome β Fault Refusal :=
  match o with
  | .next a => f a
  | .fault e => .fault e
  | .refused r => .refused r

/-! ## Buffers (20_memory.md R60 to R65): one element per access -/

/-- `MemRead(space:i, 1)`; nothing where no element was ever written (20_memory.md R64, 10_state.md R49). -/
def Buffer.read {α : Type} : Buffer α → Nat → Option (α)
  | [], _ => none
  | (k, v) :: rest, i => if i = k then some v else Buffer.read rest i

/-- `MemWrite(space:i, 1, v)` (20_memory.md R64); the list stays strictly rising. -/
def Buffer.write {α : Type} : Buffer α → Nat → α → Buffer α
  | [], i, v => [(i, v)]
  | (k, u) :: rest, i, v =>
    if i < k then (i, v) :: (k, u) :: rest
    else if i = k then (i, v) :: rest
    else (k, u) :: Buffer.write rest i v

/-- Every element at an index below `n` has been written. -/
def Buffer.allWritten {α : Type} (b : Buffer α) : Nat → Bool
  | 0 => true
  | n + 1 => (b.read n).isSome && b.allWritten n

/-- Every element at an index below `n` holds no specified value any more (70_reset_and_hazards.md R261). -/
def Buffer.forgetBelow {α : Type} (b : Buffer α) (n : Nat) : Buffer α := b.filter fun c => n ≤ c.1

/-- The indices of the list rise strictly, and the first is at least `lo`. -/
def Buffer.risingFrom {α : Type} : Nat → Buffer α → Bool
  | _, [] => true
  | lo, (k, _) :: rest => lo ≤ k && Buffer.risingFrom (k + 1) rest

/-- Every index is a 32-bit number (20_memory.md R61). -/
def Buffer.indicesFit {α : Type} (b : Buffer α) : Bool := b.all fun c => c.1 < 2 ^ 32

/-- The canonical form of a buffer: indices strictly rising, each a 32-bit number. An unlisted index holds no value, so
no entry can equal what an unlisted index reads as. -/
def Buffer.wf {α : Type} (b : Buffer α) : Bool := b.risingFrom 0 && b.indicesFit

/-- Every character is a code of `charW` bits (30_encoding.md R91). -/
def Buffer.codesFit (charW : Nat) (b : Buffer Chr) : Bool := b.all fun c => c.2 < 2 ^ charW

/-- All eight buffers of the block are in canonical form, and every character has the width of a character. -/
def Memory.wf (s : State) : Bool :=
  s.hexEncoder.src.wf && s.hexEncoder.dst.wf && s.hexDecoder.src.wf && s.hexDecoder.dst.wf &&
    s.base32Encoder.src.wf && s.base32Encoder.dst.wf && s.base32Decoder.src.wf && s.base32Decoder.dst.wf &&
    s.hexEncoder.dst.codesFit s.params.charW && s.hexDecoder.src.codesFit s.params.charW &&
    s.base32Encoder.dst.codesFit s.params.charW && s.base32Decoder.src.codesFit s.params.charW

/-- The elements at the indices `0 .. n-1`, a free value where none was written. -/
def Buffer.elements {α : Type} (b : Buffer α) (free : Nat → α) (n : Nat) : List (α) :=
  (List.range n).map fun i => (b.read i).getD (free i)

/-- The elements of `xs` stored at the indices from `i` on, in order. -/
def Buffer.writeList {α : Type} (b : Buffer α) (i : Nat) : List (α) → Buffer α
  | [] => b
  | x :: xs => (b.write i x).writeList (i + 1) xs

/-! ## The end of a command -/

/-- `raise E()`, the block's trap entry: `ERR` holds the error, `OUTLEN` and `RESULT` are 0, `STATE` is DONE, and
nothing else changes (60_exceptions.md R236). There is no return from it: the next command is accepted in DONE as after
any other end (R241). -/
def raise (e : Err) (r : Regs) : Regs :=
  { r with outlen := 0, status := { state := .done, err := e, result := false } }

/-- `complete()`: `ERR` is None, `STATE` is DONE, `OUTLEN` and `RESULT` stay (44_command_protocol.md R208). -/
def complete (r : Regs) : Regs := { r with status := { r.status with state := .done, err := .none } }

/-! ## Acceptance (44_command_protocol.md R201) -/

/-- What every acceptance does first: `OP`, `LEN`, `RESULT <- 0`, `ERR <- None` (R201). -/
def load (op : OpCode) (len : LenWord) (r : Regs) : Regs :=
  { r with op := op, len := len, status := { r.status with result := false, err := .none } }

/-- The command ends at acceptance without error, with no output (R203 and the acceptance rules). -/
def endAtOnce (result : Bool) (r : Regs) : Regs := complete (setResult result { r with outlen := 0 })

/-- The command starts to run: `OUTLEN`, `IDX <- 0`, `ODX <- 0`, `STATE <- BUSY`. -/
def start (outlen : Nat) (r : Regs) : Regs :=
  { r with outlen := BitVec.ofNat 32 outlen, idx := 0, odx := 0, status := { r.status with state := .busy } }

/-- Acceptance of an encoder's command, on the registers all units have (40_hex_encoder.md R132,
42_base32_encoder.md R162): the bound, the empty input, the start. -/
def acceptEncode (op : OpCode) (maxIn : Nat) (outLength : Nat → Nat) (len : LenWord) (r : Regs) : Regs :=
  if maxIn < len.toNat then raise .outOfRange (load op len r)
  else if len = 0 then endAtOnce false (load op len r)
  else start (outLength len.toNat) (load op len r)

/-- Acceptance of a decoder's command, on the registers all units have (41_hex_decoder.md R145,
43_base32_decoder.md R185): the length check, the empty input, the start. -/
def acceptDecode (op : OpCode) (lengthOk : Nat → Bool) (outLength : Nat → Nat) (len : LenWord) (r : Regs) : Regs :=
  if lengthOk len.toNat = false then
    if (load op len r).Validates then endAtOnce false (load op len r) else raise .invalidLength (load op len r)
  else if len = 0 then endAtOnce (op.getLsbD 0) (load op len r)
  else start (if (load op len r).Validates then 0 else outLength len.toNat) (load op len r)

/-! ## The SCAN pass of a decoder, on the registers all units have -/

/-- One character has been checked (41_hex_decoder.md R146, 43_base32_decoder.md R186). -/
def scanOne (valid : Bool) (r : Regs) : Regs :=
  if valid then { r with idx := r.idx + 1 }
  else if r.Validates then complete (setResult false r)
  else raise .invalidCharacter r

/-- Every character was valid: a validation answers true, a decode goes on to write (41_hex_decoder.md R147,
43_base32_decoder.md R187). The second part says whether the EMIT pass starts. -/
def scanEnd (r : Regs) : Regs × Phase :=
  if r.Validates then (complete (setResult true r), .scan) else ({ r with idx := 0 }, .emit)

/-! ## Running a unit -/

/-- What the shared operations below need of a unit: where it stands in the state, its registers, whether all of
`SRC[0 .. LEN-1]` has been written, and its one enabled step while BUSY. -/
structure UnitOps (α : Type) where
  id : UnitId
  get : State → α
  put : α → State → State
  regs : α → Regs
  sourceReady : α → Bool
  turn : α → Host.Outcome α Fault Refusal

/-- At most `fuel` steps of a unit, until it is no longer BUSY (44_command_protocol.md R206, R207). -/
def runToDone {α : Type} (o : UnitOps α) : Nat → α → Host.Outcome α Fault Refusal
  | 0, u => .next u
  | fuel + 1, u => if (o.regs u).Busy then andThen (o.turn u) (runToDone o fuel) else .next u

/-- The unit takes its one enabled step; a unit that is not BUSY has none and nothing changes
(44_command_protocol.md R206). -/
def UnitOps.takeTurn {α : Type} (o : UnitOps α) (s : State) : Host.Outcome State Fault Refusal :=
  if (o.regs (o.get s)).Busy then andThen (o.turn (o.get s)) fun u => .next (o.put u s) else .next s

/-- The unit has accepted a command, which is now in `u`. A command that starts to run needs all of its source written
(70_reset_and_hazards.md R263, U6 "refuse"); one that ended at acceptance reads nothing (log 18). -/
def UnitOps.requireSource {α : Type} (o : UnitOps α) (u : α) : Host.Outcome α Fault Refusal :=
  if (o.regs u).Busy ∧ o.sourceReady u = false then .refused (.sourceNotWritten o.id) else .next u

/-- A command is issued and accepted, in a step of its own (44_command_protocol.md R201). A BUSY unit does not accept:
the offer waits with no effect and the unit goes on running (R201, U16; log 10). -/
def UnitOps.issue {α : Type} (o : UnitOps α) (accept : α → α) (s : State) : Host.Outcome State Fault Refusal :=
  if (o.regs (o.get s)).Busy then o.takeTurn s
  else andThen (o.requireSource (accept (o.get s))) fun u => .next (o.put u s)

/-- A command is issued and run from acceptance to DONE in one step (44_command_protocol.md R210, log 1). `fuel` bounds
the unit's steps (R211). -/
def UnitOps.call {α : Type} (o : UnitOps α) (fuel : Nat) (accept : α → α) (s : State) :
    Host.Outcome State Fault Refusal :=
  if (o.regs (o.get s)).Busy then o.takeTurn s
  else andThen (andThen (o.requireSource (accept (o.get s))) (runToDone o fuel)) fun u => .next (o.put u s)

/-! ## Units and commands -/

/-- The unit with a given number (10_state.md R20). -/
def unitOfNumber (n : BitVec 2) : UnitId :=
  match n.toNat with
  | 0 => .hexEncoder
  | 1 => .hexDecoder
  | 2 => .base32Encoder
  | _ => .base32Decoder

/-- The unit a command goes to, `op[2:1]` (30_encoding.md R113). -/
def unitOf (i : Instr) : UnitId := unitOfNumber ((opcode i).extractLsb' 1 2)

/-- The registers of a unit of the state. -/
def State.regsOf (s : State) : UnitId → Regs
  | .hexEncoder => s.hexEncoder.regs
  | .hexDecoder => s.hexDecoder.regs
  | .base32Encoder => s.base32Encoder.regs
  | .base32Decoder => s.base32Decoder.regs

end Sys2Proof.Machine
end

