-- ==== Sys2Proof/Machine/Base32Decoder.lean ====
section
/-! DEFINITION. Unit base32_decoder, operations FROMBASE32 and ISBASE32 (43_base32_decoder.md). -/

namespace Sys2Proof.Machine

/-- Acceptance of FROMBASE32 and ISBASE32 (R185): where the command starts to run, `BUF <- 0`, `BITS <- 0`,
`PHASE <- SCAN`. -/
def acceptBase32Decoder (op : OpCode) (len : LenWord) (u : Base32Decoder) : Base32Decoder :=
  let r := acceptDecode op b32LengthOk fromBase32Length len u.regs
  { u with
    regs := r
    phase := if r.Busy then .scan else u.phase
    buf := if r.Busy then 0 else u.buf
    bits := if r.Busy then 0 else u.bits }

/-- One character of value `v` is taken in, and the top 8 bits are given out when 8 or more are held (R189). -/
def base32TakeSymbol (v : BitVec 5) (u : Base32Decoder) : Base32Decoder :=
  let buf := (u.buf.toNat <<< 5) ||| v.toNat
  let bits := u.bits.toNat + 5
  let regs := { u.regs with idx := u.regs.idx + 1 }
  if 8 ≤ bits then
    { u with
      dst := u.dst.write u.regs.odx.toNat (BitVec.ofNat 8 ((buf >>> (bits - 8)) &&& 0xFF))
      buf := BitVec.ofNat 12 (buf &&& (1 <<< (bits - 8) - 1))
      bits := BitVec.ofNat 4 (bits - 8)
      regs := { regs with odx := u.regs.odx + 1 } }
  else
    { u with
      buf := BitVec.ofNat 12 (buf &&& (1 <<< bits - 1))
      bits := BitVec.ofNat 4 bits
      regs := regs }

/-- A step of the SCAN pass (R186, R187). -/
def base32DecoderScan (u : Base32Decoder) : Host.Outcome Base32Decoder Fault Refusal :=
  if u.regs.idx < u.regs.len then
    match u.src.read u.regs.idx.toNat with
    | some c => .next { u with regs := scanOne (b32val c).isSome u.regs }
    | none => .fault (.unwrittenSourceRead .base32Decoder)
  else if u.regs.idx = u.regs.len then .next { u with regs := (scanEnd u.regs).1, phase := (scanEnd u.regs).2 }
  else .fault (.noEnabledStep .base32Decoder)

/-- A step of the EMIT pass (R189, R190). -/
def base32DecoderEmit (u : Base32Decoder) : Host.Outcome Base32Decoder Fault Refusal :=
  if u.regs.idx < u.regs.len then
    match u.src.read u.regs.idx.toNat with
    | some c =>
      match b32val c with
      | some v => .next (base32TakeSymbol v u)
      | none => .fault (.invalidCharacterInEmit .base32Decoder)
    | none => .fault (.unwrittenSourceRead .base32Decoder)
  else if u.regs.idx = u.regs.len then .next { u with regs := complete u.regs }
  else .fault (.noEnabledStep .base32Decoder)

/-- The unit's one enabled step while BUSY (44_command_protocol.md R206). -/
def base32DecoderTurn (u : Base32Decoder) : Host.Outcome Base32Decoder Fault Refusal :=
  match u.phase with
  | .scan => base32DecoderScan u
  | .emit => base32DecoderEmit u

/-- base32_decoder for the shared operations. -/
def base32DecoderOps : UnitOps Base32Decoder where
  id := .base32Decoder
  get s := s.base32Decoder
  put u s := { s with base32Decoder := u }
  regs u := u.regs
  sourceReady u := u.src.allWritten u.regs.len.toNat
  turn := base32DecoderTurn

/-- FROMBASE32 (R183): `len` characters become `floor(5 len / 8)` bytes in DST; InvalidLength, InvalidCharacter. The
bits left over at the end are dropped, never examined (R191). -/
def execFromBase32 (len : LenWord) (s : State) : Host.Outcome State Fault Refusal :=
  base32DecoderOps.call (2 * len.toNat + 2) (acceptBase32Decoder 0b110#3 len) s

/-- Acceptance of FROMBASE32 alone (R185). -/
def issueFromBase32 (len : LenWord) (s : State) : Host.Outcome State Fault Refusal :=
  base32DecoderOps.issue (acceptBase32Decoder 0b110#3 len) s

/-- ISBASE32 (R184): RESULT tells whether FROMBASE32 would succeed; no error, no output. -/
def execIsBase32 (len : LenWord) (s : State) : Host.Outcome State Fault Refusal :=
  base32DecoderOps.call (len.toNat + 1) (acceptBase32Decoder 0b111#3 len) s

/-- Acceptance of ISBASE32 alone (R185). -/
def issueIsBase32 (len : LenWord) (s : State) : Host.Outcome State Fault Refusal :=
  base32DecoderOps.issue (acceptBase32Decoder 0b111#3 len) s

end Sys2Proof.Machine
end

