-- ==== Sys2Proof/Machine/Base32Encoder.lean ====
section
/-! DEFINITION. Unit base32_encoder, operation TOBASE32 (42_base32_encoder.md). -/

namespace Sys2Proof.Machine

/-- Acceptance of TOBASE32 in a block with parameters `p` (R162): where the command starts to run, `BUF <- 0` and `BITS
<- 0`. -/
def acceptToBase32 (p : Params) (len : LenWord) (u : Base32Encoder) : Base32Encoder :=
  let r := acceptEncode 0b100#3 p.b32MaxIn toBase32Length len u.regs
  { u with regs := r, buf := if r.Busy then 0 else u.buf, bits := if r.Busy then 0 else u.bits }

/-- Give out the top 5 of the `bits` valid bits of `buf` as one character, keep the rest, and move on to input index
`idx` (the second half of R164). -/
def base32EmitSymbol (buf bits : Nat) (idx : LenWord) (u : Base32Encoder) : Base32Encoder :=
  { u with
    dst := u.dst.write u.regs.odx.toNat (b32Alpha (BitVec.ofNat 5 ((buf >>> (bits - 5)) &&& 0x1F)))
    buf := BitVec.ofNat 12 (buf &&& (1 <<< (bits - 5) - 1))
    bits := BitVec.ofNat 4 (bits - 5)
    regs := { u.regs with idx := idx, odx := u.regs.odx + 1 } }

/-- One character (R164): take in the next byte when fewer than 5 bits are held, or fill with zero bits on the low
side when no input is left (R166). -/
def base32EncodeStep (u : Base32Encoder) : Host.Outcome Base32Encoder Fault Refusal :=
  if u.bits.toNat < 5 then
    if u.regs.idx < u.regs.len then
      match u.src.read u.regs.idx.toNat with
      | some b =>
        .next (base32EmitSymbol ((u.buf.toNat <<< 8) ||| b.toNat) (u.bits.toNat + 8) (u.regs.idx + 1) u)
      | none => .fault (.unwrittenSourceRead .base32Encoder)
    else .next (base32EmitSymbol (u.buf.toNat <<< (5 - u.bits.toNat)) 5 u.regs.idx u)
  else .next (base32EmitSymbol u.buf.toNat u.bits.toNat u.regs.idx u)

/-- The unit's one enabled step while BUSY (44_command_protocol.md R206; R164, R165). -/
def base32EncoderTurn (u : Base32Encoder) : Host.Outcome Base32Encoder Fault Refusal :=
  if u.bits = 0 ∧ u.regs.idx = u.regs.len then .next { u with regs := complete u.regs } else base32EncodeStep u

/-- base32_encoder for the shared operations. -/
def base32EncoderOps : UnitOps Base32Encoder where
  id := .base32Encoder
  get s := s.base32Encoder
  put u s := { s with base32Encoder := u }
  regs u := u.regs
  sourceReady u := u.src.allWritten u.regs.len.toNat
  turn := base32EncoderTurn

/-- TOBASE32 (R161): `len` bytes become `ceil(8 len / 5)` characters in DST; OutOfRange beyond B32_MAX_IN. -/
def execToBase32 (len : LenWord) (s : State) : Host.Outcome State Fault Refusal :=
  base32EncoderOps.call (toBase32Length len.toNat + 1) (acceptToBase32 s.params len) s

/-- Acceptance of TOBASE32 alone (R162). -/
def issueToBase32 (len : LenWord) (s : State) : Host.Outcome State Fault Refusal :=
  base32EncoderOps.issue (acceptToBase32 s.params len) s

end Sys2Proof.Machine
end

