-- ==== Sys2Proof/Machine/HexDecoder.lean ====
section
/-! DEFINITION. Unit hex_decoder, operations FROMHEX and ISHEX (41_hex_decoder.md). -/

namespace Sys2Proof.Machine

/-- Acceptance of FROMHEX and ISHEX (R145): where the command starts to run, `PHASE <- SCAN`. -/
def acceptHexDecoder (op : OpCode) (len : LenWord) (u : HexDecoder) : HexDecoder :=
  let r := acceptDecode op hexLengthOk fromHexLength len u.regs
  { u with regs := r, phase := if r.Busy then .scan else u.phase }

/-- One pair of characters becomes one byte (R148). -/
def hexDecodePair (h l : BitVec 4) (u : HexDecoder) : HexDecoder :=
  { u with
    dst := u.dst.write u.regs.odx.toNat (joinNibbles h l)
    regs := { u.regs with idx := u.regs.idx + 2, odx := u.regs.odx + 1 } }

/-- A step of the SCAN pass (R146, R147). -/
def hexDecoderScan (u : HexDecoder) : Host.Outcome HexDecoder Fault Refusal :=
  if u.regs.idx < u.regs.len then
    match u.src.read u.regs.idx.toNat with
    | some c => .next { u with regs := scanOne (hexval c).isSome u.regs }
    | none => .fault (.unwrittenSourceRead .hexDecoder)
  else if u.regs.idx = u.regs.len then .next { u with regs := (scanEnd u.regs).1, phase := (scanEnd u.regs).2 }
  else .fault (.noEnabledStep .hexDecoder)

/-- A step of the EMIT pass (R148, R149). -/
def hexDecoderEmit (u : HexDecoder) : Host.Outcome HexDecoder Fault Refusal :=
  if u.regs.idx < u.regs.len then
    match u.src.read u.regs.idx.toNat, u.src.read (u.regs.idx + 1).toNat with
    | some c₁, some c₂ =>
      match hexval c₁, hexval c₂ with
      | some h, some l => .next (hexDecodePair h l u)
      | _, _ => .fault (.invalidCharacterInEmit .hexDecoder)
    | _, _ => .fault (.unwrittenSourceRead .hexDecoder)
  else if u.regs.idx = u.regs.len then .next { u with regs := complete u.regs }
  else .fault (.noEnabledStep .hexDecoder)

/-- The unit's one enabled step while BUSY (44_command_protocol.md R206). -/
def hexDecoderTurn (u : HexDecoder) : Host.Outcome HexDecoder Fault Refusal :=
  match u.phase with
  | .scan => hexDecoderScan u
  | .emit => hexDecoderEmit u

/-- hex_decoder for the shared operations. -/
def hexDecoderOps : UnitOps HexDecoder where
  id := .hexDecoder
  get s := s.hexDecoder
  put u s := { s with hexDecoder := u }
  regs u := u.regs
  sourceReady u := u.src.allWritten u.regs.len.toNat
  turn := hexDecoderTurn

/-- FROMHEX (R143): `len` characters become `len / 2` bytes in DST; InvalidLength, InvalidCharacter. -/
def execFromHex (len : LenWord) (s : State) : Host.Outcome State Fault Refusal :=
  hexDecoderOps.call (len.toNat + 1 + len.toNat / 2 + 1) (acceptHexDecoder 0b010#3 len) s

/-- Acceptance of FROMHEX alone (R145). -/
def issueFromHex (len : LenWord) (s : State) : Host.Outcome State Fault Refusal :=
  hexDecoderOps.issue (acceptHexDecoder 0b010#3 len) s

/-- ISHEX (R144): RESULT tells whether FROMHEX would succeed; no error, no output. -/
def execIsHex (len : LenWord) (s : State) : Host.Outcome State Fault Refusal :=
  hexDecoderOps.call (len.toNat + 1) (acceptHexDecoder 0b011#3 len) s

/-- Acceptance of ISHEX alone (R145). -/
def issueIsHex (len : LenWord) (s : State) : Host.Outcome State Fault Refusal :=
  hexDecoderOps.issue (acceptHexDecoder 0b011#3 len) s

end Sys2Proof.Machine
end

