-- ==== Sys2Proof/Machine/HexEncoder.lean ====
section
/-! DEFINITION. Unit hex_encoder, operation TOHEX (40_hex_encoder.md). -/

namespace Sys2Proof.Machine

/-- Acceptance of TOHEX in a block with parameters `p` (R132). -/
def acceptToHex (p : Params) (len : LenWord) (u : HexEncoder) : HexEncoder :=
  { u with regs := acceptEncode 0b000#3 p.hexMaxIn toHexLength len u.regs }

/-- One byte becomes two characters (R133). -/
def hexEncodeByte (b : Byte) (u : HexEncoder) : HexEncoder :=
  { u with
    dst := (u.dst.write u.regs.odx.toNat (hexAlpha (highNibble b))).write (u.regs.odx + 1).toNat
      (hexAlpha (lowNibble b))
    regs := { u.regs with idx := u.regs.idx + 1, odx := u.regs.odx + 2 } }

/-- The unit's one enabled step while BUSY (44_command_protocol.md R206; R133, R134). -/
def hexEncoderTurn (u : HexEncoder) : Host.Outcome HexEncoder Fault Refusal :=
  if u.regs.idx < u.regs.len then
    match u.src.read u.regs.idx.toNat with
    | some b => .next (hexEncodeByte b u)
    | none => .fault (.unwrittenSourceRead .hexEncoder)
  else if u.regs.idx = u.regs.len then .next { u with regs := complete u.regs }
  else .fault (.noEnabledStep .hexEncoder)

/-- hex_encoder for the shared operations. -/
def hexEncoderOps : UnitOps HexEncoder where
  id := .hexEncoder
  get s := s.hexEncoder
  put u s := { s with hexEncoder := u }
  regs u := u.regs
  sourceReady u := u.src.allWritten u.regs.len.toNat
  turn := hexEncoderTurn

/-- TOHEX (R131): `SRC[0 .. len-1]` becomes `2 len` characters in DST; OutOfRange beyond HEX_MAX_IN. -/
def execToHex (len : LenWord) (s : State) : Host.Outcome State Fault Refusal :=
  hexEncoderOps.call (len.toNat + 1) (acceptToHex s.params len) s

/-- Acceptance of TOHEX alone (R132). -/
def issueToHex (len : LenWord) (s : State) : Host.Outcome State Fault Refusal :=
  hexEncoderOps.issue (acceptToHex s.params len) s

end Sys2Proof.Machine
end

