-- ==== Sys2Proof/Machine/Dispatch.lean ====
section
/-! DEFINITION. One arm for each command: its meaning. -/

namespace Sys2Proof.Machine

def exec (i : Instr) (s : State) : Host.Outcome State Fault Refusal :=
  match i with
  | .toHex len => Sys2Proof.Machine.execToHex len s
  | .fromHex len => Sys2Proof.Machine.execFromHex len s
  | .isHex len => Sys2Proof.Machine.execIsHex len s
  | .toBase32 len => Sys2Proof.Machine.execToBase32 len s
  | .fromBase32 len => Sys2Proof.Machine.execFromBase32 len s
  | .isBase32 len => Sys2Proof.Machine.execIsBase32 len s

end Sys2Proof.Machine
end

