-- ==== Sys2Proof/Machine/Inputs.lean ====
section
/-! DEFINITION. What reaches the block from outside: an offered command, the host's reads and writes, reset, and whose
turn it is (44_command_protocol.md R200, R201, R209; 70_reset_and_hazards.md R260, R261). -/

namespace Sys2Proof.Machine

/-! ## A command is offered -/

/-- Acceptance of a command, without its run (44_command_protocol.md R201). -/
def issueInstr (i : Instr) (s : State) : Host.Outcome State Fault Refusal :=
  match i with
  | .toHex len => issueToHex len s
  | .fromHex len => issueFromHex len s
  | .isHex len => issueIsHex len s
  | .toBase32 len => issueToBase32 len s
  | .fromBase32 len => issueFromBase32 len s
  | .isBase32 len => issueIsBase32 len s

/-- The word `w` stands at the command port. A reserved code is refused (30_encoding.md R112). An offer to a BUSY unit
stays (44_command_protocol.md R201; log 10); any other offer is taken and `rest` comes next. -/
def offer (w : CommandWord) (run : Instr → State → Host.Outcome State Fault Refusal) (rest : List Input) (s : State) :
    Host.Outcome State Fault Refusal :=
  match decode w with
  | .error (.reservedCode op) => .refused (.reservedCode op)
  | .ok i => run i (if (s.regsOf (unitOf i)).Busy then s else { s with inputs := rest })

/-! ## Turns -/

/-- Unit `u` takes its one enabled step, if it has one (44_command_protocol.md R206, R209). -/
def takeTurnOf (u : UnitId) (s : State) : Host.Outcome State Fault Refusal :=
  match u with
  | .hexEncoder => hexEncoderOps.takeTurn s
  | .hexDecoder => hexDecoderOps.takeTurn s
  | .base32Encoder => base32EncoderOps.takeTurn s
  | .base32Decoder => base32DecoderOps.takeTurn s

/-- The BUSY unit of the lowest number. -/
def firstBusy (s : State) : Option UnitId :=
  [UnitId.hexEncoder, .hexDecoder, .base32Encoder, .base32Decoder].find? fun u => (s.regsOf u).Busy

/-- Nothing comes from outside: a BUSY unit goes on. DESIGN CHOICE (log 9): the one of the lowest number; with no BUSY
unit nothing changes (44_command_protocol.md R206). -/
def quietStep (s : State) : Host.Outcome State Fault Refusal :=
  match firstBusy s with
  | some u => takeTurnOf u s
  | none => .next s

/-! ## The host's reads and writes -/

/-- One element of a SRC, `mk v`: refused on a BUSY unit (R200 (a), 70_reset_and_hazards.md R263, R267) and for a value
that does not fit the `width` bits of an element (R263). -/
def writeElement {α : Type} (mk : Nat → α) (width : Nat) (u : UnitId) (r : Regs) (b : Buffer α) (i : LenWord)
    (v : Nat) : Host.Outcome (Buffer α) Fault Refusal :=
  if r.Busy then .refused (.bufferOfBusyUnit u)
  else if v < 2 ^ width then .next (b.write i.toNat (mk v))
  else .refused (.elementTooWide u)

/-- A byte of an encoder's SRC. -/
def writeByte (u : UnitId) (r : Regs) (b : Buffer Byte) (i : LenWord) (v : Nat) :
    Host.Outcome (Buffer Byte) Fault Refusal := writeElement (BitVec.ofNat 8) 8 u r b i v

/-- A character of a decoder's SRC, of the width of a character in the block (00_scope.md R12, 20_memory.md R62). -/
def writeChar (p : Params) (u : UnitId) (r : Regs) (b : Buffer Chr) (i : LenWord) (v : Nat) :
    Host.Outcome (Buffer Chr) Fault Refusal := writeElement id p.charW u r b i v

/-- The host writes one element of `u.SRC` (44_command_protocol.md R200 (a)). -/
def hostWriteSrc (u : UnitId) (i : LenWord) (v : Nat) (s : State) : Host.Outcome State Fault Refusal :=
  match u with
  | .hexEncoder =>
    andThen (writeByte u s.hexEncoder.regs s.hexEncoder.src i v) fun b =>
      .next { s with hexEncoder := { s.hexEncoder with src := b } }
  | .hexDecoder =>
    andThen (writeChar s.params u s.hexDecoder.regs s.hexDecoder.src i v) fun b =>
      .next { s with hexDecoder := { s.hexDecoder with src := b } }
  | .base32Encoder =>
    andThen (writeByte u s.base32Encoder.regs s.base32Encoder.src i v) fun b =>
      .next { s with base32Encoder := { s.base32Encoder with src := b } }
  | .base32Decoder =>
    andThen (writeChar s.params u s.base32Decoder.regs s.base32Decoder.src i v) fun b =>
      .next { s with base32Decoder := { s.base32Decoder with src := b } }

/-- A value is handed to the host; nothing of the block changes (10_state.md R38). -/
def handOut (a : Answer) (s : State) : State := { s with answer := some a }

/-- A DST element is handed to the host: the element, or a free value where none was ever written
(93_implementation_defined.md U6; log 5). -/
def handOutElement {α : Type} (mk : α → Answer) (free : Nat → α) (e : Option α) (s : State) : State :=
  match e with
  | some v => handOut (mk v) s
  | none => { handOut (mk (free s.fresh)) s with fresh := s.fresh + 1 }

/-- The host reads one element of `u.DST` (44_command_protocol.md R200 (b)); refused on a BUSY unit
(70_reset_and_hazards.md R264, R267). -/
def hostReadDst (u : UnitId) (i : LenWord) (s : State) : Host.Outcome State Fault Refusal :=
  if (s.regsOf u).Busy then .refused (.bufferOfBusyUnit u)
  else
    match u with
    | .hexEncoder => .next (handOutElement .chr s.params.freeChar (s.hexEncoder.dst.read i.toNat) s)
    | .hexDecoder => .next (handOutElement .byte Config.freeByte (s.hexDecoder.dst.read i.toNat) s)
    | .base32Encoder => .next (handOutElement .chr s.params.freeChar (s.base32Encoder.dst.read i.toNat) s)
    | .base32Decoder => .next (handOutElement .byte Config.freeByte (s.base32Decoder.dst.read i.toNat) s)

/-! ## Reset -/

/-- DST after a reset: a command cut off leaves nothing specified in `0 .. OUTLEN-1` (70_reset_and_hazards.md R261, U7);
any other DST is not touched. -/
def dstAfterReset {α : Type} (r : Regs) (b : Buffer α) : Buffer α := if r.Busy then b.forgetBelow r.outlen.toNat else b

/-- Reset, on all four units at once: every register at its reset value, SRC unspecified, DST as `dstAfterReset` says
(70_reset_and_hazards.md R260, R261, 10_state.md R49). The parameters are no registers and stay, and so does what the
host will do next. -/
def resetBlock (s : State) : State :=
  { State.reset with
    params := s.params
    hexEncoder := { State.reset.hexEncoder with dst := dstAfterReset s.hexEncoder.regs s.hexEncoder.dst }
    hexDecoder := { State.reset.hexDecoder with dst := dstAfterReset s.hexDecoder.regs s.hexDecoder.dst }
    base32Encoder := { State.reset.base32Encoder with dst := dstAfterReset s.base32Encoder.regs s.base32Encoder.dst }
    base32Decoder := { State.reset.base32Decoder with dst := dstAfterReset s.base32Decoder.regs s.base32Decoder.dst }
    inputs := s.inputs
    answer := s.answer
    fresh := s.fresh }

/-! ## One input -/

/-- What the block does with the input `x`, `rest` being what comes after it. -/
def runInput (x : Input) (rest : List Input) (s : State) : Host.Outcome State Fault Refusal :=
  match x with
  | .call w => offer w exec rest s
  | .issue w => offer w issueInstr rest s
  | .turn u => takeTurnOf u { s with inputs := rest }
  | .writeSrc u i v => hostWriteSrc u i v { s with inputs := rest }
  | .readDst u i => hostReadDst u i { s with inputs := rest }
  | .readOp u => .next (handOut (.op (s.regsOf u).op) { s with inputs := rest })
  | .readLen u => .next (handOut (.len (s.regsOf u).len) { s with inputs := rest })
  | .readOutlen u => .next (handOut (.outlen (s.regsOf u).outlen) { s with inputs := rest })
  | .readStatus u => .next (handOut (.status (s.regsOf u).status.word) { s with inputs := rest })
  | .reset => .next (resetBlock { s with inputs := rest })

/-- The word `w` is offered next, to be run whole. -/
def offerNext (w : Nat) (s : State) : State := { s with inputs := .call (BitVec.ofNat 35 w) :: s.inputs }

end Sys2Proof.Machine
end

