-- ==== Sys2Proof/Machine/Step.lean ====
section
/-! DEFINITION. One step of the machine: the next input from outside, or, with none, a BUSY unit goes on. -/

namespace Sys2Proof.Machine

/-- One step (44_command_protocol.md R209). -/
def step (s : State) : Host.Outcome State Fault Refusal :=
  match s.inputs with
  | [] => quietStep s
  | x :: rest => runInput x rest s

/-- The block fetches nothing (10_state.md R47): the command word is offered to it next (log 2). -/
def State.withFetchWord (s : State) (_nbits w : Nat) : State := offerNext w s

end Sys2Proof.Machine
end

