-- ==== Sys2Proof/Machine/Uuid.lean ====
section
/-! DEFINITION. The four UUID adapters, pseudo-operations of the host over one command each (45_uuid_pseudo_ops.md).
They add nothing to the block (R220). -/

namespace Sys2Proof.Machine

/-- The native in-memory form of a UUID, which the platform decides (R221, U11; log 17). -/
inductive UuidLayout where
  /-- Already in the canonical order. -/
  | bigEndian
  /-- The first three fields, of 4, 2 and 2 bytes, in little-endian order. -/
  | littleEndianFields
  deriving DecidableEq, Repr

/-- `canon`: from the native form to the canonical big-endian form (R221). -/
def uuidCanon (layout : UuidLayout) (n : Vector Byte 16) : Vector Byte 16 :=
  match layout with
  | .bigEndian => n
  | .littleEndianFields =>
    #v[n[3], n[2], n[1], n[0], n[5], n[4], n[7], n[6], n[8], n[9], n[10], n[11], n[12], n[13], n[14], n[15]]

/-- `uncanon`: "the same permutation" (R221). -/
def uuidUncanon (layout : UuidLayout) (u : Vector Byte 16) : Vector Byte 16 := uuidCanon layout u

/-- The host writes a list of elements to `u.SRC` from index `i` on. -/
def hostWriteList (u : UnitId) (i : Nat) (xs : List Nat) (s : State) : Host.Outcome State Fault Refusal :=
  match xs with
  | [] => .next s
  | x :: rest => andThen (hostWriteSrc u (BitVec.ofNat 32 i) x s) (hostWriteList u (i + 1) rest)

/-- ToHexUUID (R223): the canonical bytes to SRC, `TOHEX 16`, 32 characters from DST. DESIGN CHOICE (log 17): where the
block's bound is below 16, which R223 takes it not to be, the host hands the encoder's error on. -/
def toHexUuid (layout : UuidLayout) (n : Vector Byte 16) (s : State) :
    Host.Outcome (State × Except Err (List Chr)) Fault Refusal :=
  andThen (hostWriteList .hexEncoder 0 ((uuidCanon layout n).toList.map (·.toNat)) s) fun s₁ =>
    andThen (exec (.toHex 16) s₁) fun s₂ =>
      if s₂.hexEncoder.regs.status.err = .outOfRange then .next (s₂, .error .outOfRange)
      else .next (s₂, .ok (s₂.hexEncoder.dst.elements s₂.params.freeChar 32))

/-- ToBase32UUID (R224): the canonical bytes to SRC, `TOBASE32 16`, 26 characters from DST; a bound below 16 as in
`toHexUuid`. -/
def toBase32Uuid (layout : UuidLayout) (n : Vector Byte 16) (s : State) :
    Host.Outcome (State × Except Err (List Chr)) Fault Refusal :=
  andThen (hostWriteList .base32Encoder 0 ((uuidCanon layout n).toList.map (·.toNat)) s) fun s₁ =>
    andThen (exec (.toBase32 16) s₁) fun s₂ =>
      if s₂.base32Encoder.regs.status.err = .outOfRange then .next (s₂, .error .outOfRange)
      else .next (s₂, .ok (s₂.base32Encoder.dst.elements s₂.params.freeChar 26))

/-- The UUID the host reads from the first 16 bytes of a decoder's DST. -/
def readUuid (layout : UuidLayout) (dst : Buffer Byte) : Vector Byte 16 :=
  uuidUncanon layout (Vector.ofFn fun i : Fin 16 => (dst.read i.val).getD (Config.freeByte i.val))

/-- FromHexUUID (R225): the host checks the length 32 first (R227), then `FROMHEX 32`. -/
def fromHexUuid (layout : UuidLayout) (t : List Chr) (s : State) :
    Host.Outcome (State × Except Err (Vector Byte 16)) Fault Refusal :=
  if t.length = 32 then
    andThen (hostWriteList .hexDecoder 0 t s) fun s₁ =>
      andThen (exec (.fromHex 32) s₁) fun s₂ =>
        if s₂.hexDecoder.regs.status.err = .invalidCharacter then .next (s₂, .error .invalidCharacter)
        else .next (s₂, .ok (readUuid layout s₂.hexDecoder.dst))
  else .next (s, .error .invalidLength)

/-- FromBase32UUID (R226): the host checks the length 26 first (R227), then `FROMBASE32 26`. -/
def fromBase32Uuid (layout : UuidLayout) (t : List Chr) (s : State) :
    Host.Outcome (State × Except Err (Vector Byte 16)) Fault Refusal :=
  if t.length = 26 then
    andThen (hostWriteList .base32Decoder 0 t s) fun s₁ =>
      andThen (exec (.fromBase32 26) s₁) fun s₂ =>
        if s₂.base32Decoder.regs.status.err = .invalidCharacter then .next (s₂, .error .invalidCharacter)
        else .next (s₂, .ok (readUuid layout s₂.base32Decoder.dst))
  else .next (s, .error .invalidLength)

end Sys2Proof.Machine
end

