-- ==== Sys2Proof/Safety.lean ====
section
/-! DEFINITION. What a sound state of the block is, and a safe step. -/

namespace Sys2Proof.Machine

/-! ## What can be seen of a unit's buffers -/

/-- The element of `u.SRC` at index `i`, as a number. -/
def State.srcRead (s : State) (u : UnitId) (i : Nat) : Option Nat :=
  match u with
  | .hexEncoder => (s.hexEncoder.src.read i).map (·.toNat)
  | .hexDecoder => s.hexDecoder.src.read i
  | .base32Encoder => (s.base32Encoder.src.read i).map (·.toNat)
  | .base32Decoder => s.base32Decoder.src.read i

/-- The element of `u.DST` at index `i`, as a number. -/
def State.dstRead (s : State) (u : UnitId) (i : Nat) : Option Nat :=
  match u with
  | .hexEncoder => s.hexEncoder.dst.read i
  | .hexDecoder => (s.hexDecoder.dst.read i).map (·.toNat)
  | .base32Encoder => s.base32Encoder.dst.read i
  | .base32Decoder => (s.base32Decoder.dst.read i).map (·.toNat)

/-- Everything of unit `u` is the same in both states. -/
def SameUnit (u : UnitId) (s t : State) : Prop :=
  match u with
  | .hexEncoder => t.hexEncoder = s.hexEncoder
  | .hexDecoder => t.hexDecoder = s.hexDecoder
  | .base32Encoder => t.base32Encoder = s.base32Encoder
  | .base32Decoder => t.base32Decoder = s.base32Decoder

/-- Everything outside unit `u` is the same in both states. -/
def SameOutside (u : UnitId) (s t : State) : Prop :=
  (∀ v, v ≠ u → SameUnit v s t) ∧ t.inputs = s.inputs ∧ t.answer = s.answer ∧ t.fresh = s.fresh ∧ t.params = s.params

/-- The registers only some units have, `PHASE`, `BUF` and `BITS`, are the same in both states. -/
def SameWorking (u : UnitId) (s t : State) : Prop :=
  match u with
  | .hexEncoder => True
  | .hexDecoder => t.hexDecoder.phase = s.hexDecoder.phase
  | .base32Encoder => t.base32Encoder.buf = s.base32Encoder.buf ∧ t.base32Encoder.bits = s.base32Encoder.bits
  | .base32Decoder => t.base32Decoder.phase = s.base32Decoder.phase ∧
      t.base32Decoder.buf = s.base32Decoder.buf ∧ t.base32Decoder.bits = s.base32Decoder.bits

/-! ## Runs of one unit -/

/-- `n` turns of unit `u`, one after another (44_command_protocol.md R206). -/
def runTurns (u : UnitId) : Nat → State → Host.Outcome State Fault Refusal
  | 0, s => .next s
  | n + 1, s => andThen (takeTurnOf u s) (runTurns u n)

/-- The most steps a command takes after its acceptance (44_command_protocol.md R211). -/
def stepBound : Instr → Nat
  | .toHex len => len.toNat + 1
  | .fromHex len => len.toNat + 1 + len.toNat / 2 + 1
  | .isHex len => len.toNat + 1
  | .toBase32 len => toBase32Length len.toNat + 1
  | .fromBase32 len => 2 * len.toNat + 2
  | .isBase32 len => len.toNat + 1

/-- How many elements of DST a command that succeeds writes (30_encoding.md R117). -/
def outputLength : Instr → Nat
  | .toHex len => toHexLength len.toNat
  | .fromHex len => fromHexLength len.toNat
  | .toBase32 len => toBase32Length len.toNat
  | .fromBase32 len => fromBase32Length len.toNat
  | .isHex _ | .isBase32 _ => 0

/-- A command of this length ends at its acceptance, in a block with parameters `p` (44_command_protocol.md R203,
R204). -/
def endsAtAcceptance (p : Params) : Instr → Bool
  | .toHex len => p.hexMaxIn < len.toNat || len == 0
  | .fromHex len | .isHex len => !hexLengthOk len.toNat || len == 0
  | .toBase32 len => p.b32MaxIn < len.toNat || len == 0
  | .fromBase32 len | .isBase32 len => !b32LengthOk len.toNat || len == 0

/-! ## Sound states -/

/-- Every element of a buffer at an index below `n` has been written. -/
abbrev Buffer.WrittenBelow {α : Type} (b : Buffer α) (n : Nat) : Prop := ∀ i, i < n → (b.read i).isSome

/-- The elements at the indices `0, 1, ..` of a buffer begin with the list `xs`. -/
abbrev Buffer.Holds {α : Type} (b : Buffer α) (xs : List α) : Prop := ∀ i, i < xs.length → b.read i = xs[i]?

/-- Every element below `n` has been written and is a character with a value. -/
abbrev Buffer.ValidBelow {β : Type} (val : Chr → Option β) (b : Buffer Chr) (n : Nat) : Prop :=
  ∀ i, i < n → ((b.read i).bind val).isSome

/-- What holds of the registers of an encoder, `outLength` giving its output length and `maxIn` its bound
(10_state.md R23, R25, R27, R29, R30, R33). -/
structure EncoderRegsInv (op : OpCode) (maxIn : Nat) (outLength : Nat → Nat) (r : Regs) : Prop where
  op_eq : r.op = op
  result_false : r.status.result = false
  err_legal : r.status.err = .none ∨ r.status.err = .outOfRange
  err_done : r.status.err ≠ .none → r.status.state = .done ∧ r.outlen = 0
  idle_zero : r.status.state = .idle → r.len = 0 ∧ r.outlen = 0
  busy_len : r.status.state = .busy → 0 < r.len.toNat ∧ r.len.toNat ≤ maxIn
  outlen_eq : r.status.err = .none → r.status.state ≠ .idle → r.outlen.toNat = outLength r.len.toNat
  idx_le : r.status.state = .busy → r.idx.toNat ≤ r.len.toNat
  odx_le : r.status.state = .busy → r.odx.toNat ≤ r.outlen.toNat

/-- What holds of the registers of a decoder, `decodeOp` and `checkOp` being its two operations. -/
structure DecoderRegsInv (decodeOp checkOp : OpCode) (lengthOk : Nat → Bool) (outLength : Nat → Nat) (r : Regs) :
    Prop where
  op_legal : r.op = decodeOp ∨ r.op = checkOp
  result_check : r.status.result = true → r.op = checkOp ∧ r.status.state = .done
  err_legal : r.status.err ≠ .outOfRange
  err_done : r.status.err ≠ .none → r.status.state = .done ∧ r.outlen = 0 ∧ r.op = decodeOp
  idle_zero : r.status.state = .idle → r.op = decodeOp ∧ r.len = 0 ∧ r.outlen = 0
  busy_len : r.status.state = .busy → 0 < r.len.toNat ∧ lengthOk r.len.toNat = true
  outlen_check : r.op = checkOp → r.outlen = 0
  outlen_decode : r.op = decodeOp → r.status.err = .none → r.status.state ≠ .idle →
    r.outlen.toNat = outLength r.len.toNat
  idx_le : r.status.state = .busy → r.idx.toNat ≤ r.len.toNat
  odx_le : r.status.state = .busy → r.odx.toNat ≤ r.outlen.toNat

/-- hex_encoder is in a sound state: `ODX = 2 IDX` while BUSY (40_hex_encoder.md R133), the whole source is there, what
lies below ODX has been written, and after an end without error the whole output has been. -/
structure HexEncoder.Inv (p : Params) (u : HexEncoder) : Prop where
  regs : EncoderRegsInv 0b000#3 p.hexMaxIn toHexLength u.regs
  src_wf : u.src.wf = true
  dst_wf : u.dst.wf = true
  dst_codes : u.dst.codesFit p.charW = true
  src_written : u.regs.status.state = .busy → u.src.WrittenBelow u.regs.len.toNat
  odx_eq : u.regs.status.state = .busy → u.regs.odx.toNat = 2 * u.regs.idx.toNat
  dst_progress : u.regs.status.state = .busy → u.dst.WrittenBelow u.regs.odx.toNat
  dst_done : u.regs.status.state = .done → u.dst.WrittenBelow u.regs.outlen.toNat

/-- hex_decoder is in a sound state: in the SCAN pass every character below IDX is valid and nothing is written; in the
EMIT pass every character is valid and `IDX = 2 ODX` (41_hex_decoder.md R146 to R149). -/
structure HexDecoder.Inv (p : Params) (u : HexDecoder) : Prop where
  regs : DecoderRegsInv 0b010#3 0b011#3 hexLengthOk fromHexLength u.regs
  src_wf : u.src.wf = true
  dst_wf : u.dst.wf = true
  src_codes : u.src.codesFit p.charW = true
  src_written : u.regs.status.state = .busy → u.src.WrittenBelow u.regs.len.toNat
  scan : u.regs.status.state = .busy → u.phase = .scan →
    u.regs.odx = 0 ∧ u.src.ValidBelow hexval u.regs.idx.toNat
  emit : u.regs.status.state = .busy → u.phase = .emit →
    u.regs.op = 0b010#3 ∧ u.regs.idx.toNat = 2 * u.regs.odx.toNat ∧ u.src.ValidBelow hexval u.regs.len.toNat
  dst_progress : u.regs.status.state = .busy → u.dst.WrittenBelow u.regs.odx.toNat
  dst_done : u.regs.status.state = .done → u.dst.WrittenBelow u.regs.outlen.toNat

/-- base32_encoder is in a sound state: `BITS` is in 0..7 and `BUF < 2^BITS` (10_state.md R35, R36); the bits taken in
are those given out and those held, until the last group is filled with zero bits (42_base32_encoder.md R164 to R166).
-/
structure Base32Encoder.Inv (p : Params) (u : Base32Encoder) : Prop where
  regs : EncoderRegsInv 0b100#3 p.b32MaxIn toBase32Length u.regs
  src_wf : u.src.wf = true
  dst_wf : u.dst.wf = true
  dst_codes : u.dst.codesFit p.charW = true
  src_written : u.regs.status.state = .busy → u.src.WrittenBelow u.regs.len.toNat
  bits_le : u.regs.status.state = .busy → u.bits.toNat ≤ 7
  buf_lt : u.regs.status.state = .busy → u.buf.toNat < 2 ^ u.bits.toNat
  bits_balance : u.regs.status.state = .busy →
    5 * u.regs.odx.toNat + u.bits.toNat = 8 * u.regs.idx.toNat ∨
      (u.bits = 0 ∧ u.regs.idx = u.regs.len ∧ u.regs.odx = u.regs.outlen)
  dst_progress : u.regs.status.state = .busy → u.dst.WrittenBelow u.regs.odx.toNat
  dst_done : u.regs.status.state = .done → u.dst.WrittenBelow u.regs.outlen.toNat

/-- base32_decoder is in a sound state: in the SCAN pass every character below IDX is valid, the accumulator is empty
and nothing is written; in the EMIT pass every character is valid, `BITS` is in 0..7, `BUF < 2^BITS`, and
`BITS = 5 IDX - 8 ODX` (43_base32_decoder.md R186 to R190). -/
structure Base32Decoder.Inv (p : Params) (u : Base32Decoder) : Prop where
  regs : DecoderRegsInv 0b110#3 0b111#3 b32LengthOk fromBase32Length u.regs
  src_wf : u.src.wf = true
  dst_wf : u.dst.wf = true
  src_codes : u.src.codesFit p.charW = true
  src_written : u.regs.status.state = .busy → u.src.WrittenBelow u.regs.len.toNat
  scan : u.regs.status.state = .busy → u.phase = .scan →
    u.regs.odx = 0 ∧ u.buf = 0 ∧ u.bits = 0 ∧ u.src.ValidBelow b32val u.regs.idx.toNat
  emit : u.regs.status.state = .busy → u.phase = .emit →
    u.regs.op = 0b110#3 ∧ u.bits.toNat ≤ 7 ∧ u.buf.toNat < 2 ^ u.bits.toNat ∧
      5 * u.regs.idx.toNat = 8 * u.regs.odx.toNat + u.bits.toNat ∧ u.src.ValidBelow b32val u.regs.len.toNat
  dst_progress : u.regs.status.state = .busy → u.dst.WrittenBelow u.regs.odx.toNat
  dst_done : u.regs.status.state = .done → u.dst.WrittenBelow u.regs.outlen.toNat

/-- The state of the block is sound: its parameters are legal and all four units are sound. The bounds on IDX, ODX, BITS
and BUF are those of a BUSY unit (log 13). -/
structure State.Inv (s : State) : Prop where
  params : s.params.Legal
  hexEncoder : s.hexEncoder.Inv s.params
  hexDecoder : s.hexDecoder.Inv s.params
  base32Encoder : s.base32Encoder.Inv s.params
  base32Decoder : s.base32Decoder.Inv s.params

/-- A step is safe when it does not end in a fault: it goes on, or it is refused because the host broke a duty or
offered a reserved code (70_reset_and_hazards.md R267, 93_implementation_defined.md section 1). -/
def SafeStep (s : State) : Prop := ∀ f, step s ≠ .fault f

end Sys2Proof.Machine
end

