-- ==== Sys2Proof/Certificates/Slice0/Obligations.lean ====
section
/-! DEFINITION. What is claimed of the block, from the numbered rules of spec/. Nothing is proved here. -/

open Sys2Proof Sys2Proof.Machine

/-! ## The command word (30_encoding.md section 4) -/

/-- R110, R111: the word of every command decodes to that command, with every length; and it is no reserved word. -/
def Obligations.DecodeOfEncodeIsTheCommand : Prop :=
  ∀ i : Instr, commandWordWellFormed (encode i) = true ∧ decode (encode i) = .ok i

/-- R110, R111: no bit of a word that decodes is dropped: its command encodes to that very word. -/
def Obligations.EncodeOfDecodeIsTheWord : Prop := ∀ (w : CommandWord) (i : Instr), decode w = .ok i → encode i = w

/-- R112: the words of code 001 and 101, and no others, have no meaning, and a machine that is offered one refuses,
whether the command is to run whole or to be accepted alone. -/
def Obligations.ReservedCodesAreRefused : Prop :=
  (∀ w : CommandWord, (opField w = 0b001#3 ∨ opField w = 0b101#3) ↔ decode w = .error (.reservedCode (opField w))) ∧
  (∀ (s : State) (w : CommandWord) (rest : List Input), opField w = 0b001#3 ∨ opField w = 0b101#3 →
    s.inputs = .call w :: rest ∨ s.inputs = .issue w :: rest → step s = .refused (.reservedCode (opField w)))

/-- 95_test_vectors.md T248 to T257: ten command words and what they are (a sanity check). -/
def Obligations.TableWordsDecode : Prop :=
  decode 0x000000000#35 = .ok (.toHex 0) ∧ decode 0x000000010#35 = .ok (.toHex 16) ∧
  decode 0x200000020#35 = .ok (.fromHex 32) ∧ decode 0x300000020#35 = .ok (.isHex 32) ∧
  decode 0x400000010#35 = .ok (.toBase32 16) ∧ decode 0x60000001A#35 = .ok (.fromBase32 26) ∧
  decode 0x70000001A#35 = .ok (.isBase32 26) ∧ decode 0x7FFFFFFFF#35 = .ok (.isBase32 4294967295) ∧
  decode 0x100000010#35 = .error (.reservedCode 0b001#3) ∧ decode 0x500000010#35 = .error (.reservedCode 0b101#3)

/-- R113: `op[2:1]` is the number of the unit a command goes to, for every word that is a command. -/
def Obligations.CommandGoesToTheUnitOfItsNumber : Prop :=
  ∀ (w : CommandWord) (i : Instr), decode w = .ok i →
    (w.extractLsb' 33 2 = 0b00#2 → unitOf i = .hexEncoder) ∧ (w.extractLsb' 33 2 = 0b01#2 → unitOf i = .hexDecoder) ∧
    (w.extractLsb' 33 2 = 0b10#2 → unitOf i = .base32Encoder) ∧
    (w.extractLsb' 33 2 = 0b11#2 → unitOf i = .base32Decoder)

/-! ## The ROM tables (30_encoding.md sections 2, 3) -/

/-- R94, R96, R105: the contents of the alphabet tables, `0-9a-f` and `0123456789abcdefghjkmnpqrstvwxyz` by their codes,
in order, all lowercase (R5); and the decode tables invert them, for the uppercase equivalents too (R106). -/
def Obligations.DecodeTablesInvertTheAlphabets : Prop :=
  (∀ v : BitVec 4, hexAlpha v = if v.toNat < 10 then 0x30 + v.toNat else 0x57 + v.toNat) ∧
  (List.range 32).map (fun v => b32Alpha (BitVec.ofNat 5 v)) =
    [0x30, 0x31, 0x32, 0x33, 0x34, 0x35, 0x36, 0x37, 0x38, 0x39, 0x61, 0x62, 0x63, 0x64, 0x65, 0x66,
     0x67, 0x68, 0x6A, 0x6B, 0x6D, 0x6E, 0x70, 0x71, 0x72, 0x73, 0x74, 0x76, 0x77, 0x78, 0x79, 0x7A] ∧
  (∀ v : BitVec 4, hexval (hexAlpha v) = some v ∧ hexval (upperChr (hexAlpha v)) = some v) ∧
  (∀ v : BitVec 5, b32val (b32Alpha v) = some v ∧ b32val (upperChr (b32Alpha v)) = some v)

/-- R102: of all codes, however wide a character is, exactly `0-9`, `a-f` and `A-F` are valid hexadecimal characters,
and no code of 128 or more is. -/
def Obligations.ValidHexCharactersAreTheTwentyTwo : Prop :=
  ∀ c : Nat, ((hexval c).isSome ↔
      0x30 ≤ c ∧ c ≤ 0x39 ∨ 0x61 ≤ c ∧ c ≤ 0x66 ∨ 0x41 ≤ c ∧ c ≤ 0x46) ∧ (128 ≤ c → hexval c = none)

/-- R103, R104: of all codes, exactly the digits and the letters other than i, l, o, u, of either case, are valid Base32
characters, and no code of 128 or more is. -/
def Obligations.ValidBase32CharactersAreTheFiftyFour : Prop :=
  ∀ c : Nat, ((b32val c).isSome ↔
      0x30 ≤ c ∧ c ≤ 0x39 ∨
      0x61 ≤ c ∧ c ≤ 0x7A ∧ c ≠ 0x69 ∧ c ≠ 0x6C ∧ c ≠ 0x6F ∧ c ≠ 0x75 ∨
      0x41 ≤ c ∧ c ≤ 0x5A ∧ c ≠ 0x49 ∧ c ≠ 0x4C ∧ c ≠ 0x4F ∧ c ≠ 0x55) ∧ (128 ≤ c → b32val c = none)

/-! ## The functions of the six operations -/

/-- R152: every byte sequence (of an accepted length, and any other) comes back from its hexadecimal text; every valid
text comes back in lowercase; decoding is one-to-one on lowercase texts. -/
def Obligations.HexRoundTrip : Prop :=
  (∀ bs : List Byte, hexValid (hexEncode bs) = true ∧ hexDecode (hexEncode bs) = some bs) ∧
  (∀ (cs : List Chr) (bs : List Byte), hexDecode cs = some bs → hexEncode bs = cs.map lowerChr) ∧
  (∀ cs ds : List Chr, hexValid cs = true → hexValid ds = true → cs.map lowerChr = cs → ds.map lowerChr = ds →
    hexDecode cs = hexDecode ds → cs = ds)

/-- R151: hexadecimal decoding and validating take no notice of case, for every string. -/
def Obligations.HexDecodingIgnoresCase : Prop :=
  ∀ cs : List Chr, hexDecode (cs.map upperChr) = hexDecode cs ∧ hexValid (cs.map upperChr) = hexValid cs

/-- R4, R193: every byte sequence (of an accepted length, and any other) comes back from its Base32 text. -/
def Obligations.Base32RoundTrip : Prop :=
  ∀ bs : List Byte, b32Valid (b32Encode bs) = true ∧ b32Decode (b32Encode bs) = some bs

/-- R193: encoding what a valid Base32 text decodes to gives back its characters in lowercase, but for the last one,
whose symbol value has its left-over bits cleared. -/
def Obligations.Base32ReencodingClearsTheLeftoverBits : Prop :=
  ∀ (cs : List Chr) (bs : List Byte), b32Decode cs = some bs →
    (b32Encode bs).length = cs.length ∧
    ∀ (j : Nat) (c : Chr) (v : BitVec 5), cs[j]? = some c → b32val c = some v →
      b32Alpha v = lowerChr c ∧ (j + 1 < cs.length → (b32Encode bs)[j]? = some (lowerChr c)) ∧
      (j + 1 = cs.length → (b32Encode bs)[j]? =
        some (b32Alpha ((v >>> (5 * cs.length - 8 * bs.length)) <<< (5 * cs.length - 8 * bs.length))))

/-- R195: Base32 decoding and validating take no notice of case, for every string. -/
def Obligations.Base32DecodingIgnoresCase : Prop :=
  ∀ cs : List Chr, b32Decode (cs.map upperChr) = b32Decode cs ∧ b32Valid (cs.map upperChr) = b32Valid cs

/-- R191: the bits left over at the end are dropped whatever they are: two texts of one length whose symbol values agree
but for the left-over bits of the last one decode alike, and each is valid when the other is. -/
def Obligations.LeftoverBitsAreNotVerified : Prop :=
  ∀ (cs ds : List Chr), cs.length = ds.length →
    (∀ j, j + 1 < cs.length → (cs[j]?.bind b32val) = (ds[j]?.bind b32val)) →
    (∀ j, j + 1 = cs.length →
      ((cs[j]?.bind b32val).map fun v : BitVec 5 => v >>> (5 * cs.length % 8 : Nat)) =
        ((ds[j]?.bind b32val).map fun v : BitVec 5 => v >>> (5 * cs.length % 8 : Nat))) →
    b32Decode cs = b32Decode ds ∧ b32Valid cs = b32Valid ds

/-- R170: if one byte sequence begins another, their Base32 texts agree in the first `floor(8 |B| / 5)` characters,
which do not depend on the zero fill. -/
def Obligations.Base32TextOfAnInitialPart : Prop :=
  ∀ bs more : List Byte,
    (b32Encode (bs ++ more)).take (8 * bs.length / 5) = (b32Encode bs).take (8 * bs.length / 5)

/-- R168: the lengths of Base32 texts by the remainder of the input length, the zero bits filled, the input bits in the
last symbol, and that the lengths that occur are exactly those the decoder accepts. -/
def Obligations.ToBase32LengthTable : Prop :=
  (∀ q : Nat,
    toBase32Length (5 * q) = 8 * q ∧ toBase32Length (5 * q + 1) = 8 * q + 2 ∧ toBase32Length (5 * q + 2) = 8 * q + 4 ∧
    toBase32Length (5 * q + 3) = 8 * q + 5 ∧ toBase32Length (5 * q + 4) = 8 * q + 7) ∧
  (∀ n : Nat, 5 * toBase32Length n - 8 * n =
    if n % 5 = 0 then 0 else if n % 5 = 1 then 2 else if n % 5 = 2 then 4 else if n % 5 = 3 then 1 else 3) ∧
  (∀ n : Nat, 0 < n → 8 * n - 5 * (toBase32Length n - 1) =
    if n % 5 = 0 then 5 else if n % 5 = 1 then 3 else if n % 5 = 2 then 1 else if n % 5 = 3 then 4 else 2) ∧
  (∀ m : Nat, (∃ n, toBase32Length n = m) ↔ b32LengthOk m = true)

/-- R196: the length check of the Base32 decoder, its output length and the left-over bits, by length class. -/
def Obligations.FromBase32LengthTable : Prop :=
  ∀ q : Nat,
    (b32LengthOk (8 * q) = true ∧ fromBase32Length (8 * q) = 5 * q) ∧
    b32LengthOk (8 * q + 1) = false ∧
    (b32LengthOk (8 * q + 2) = true ∧ fromBase32Length (8 * q + 2) = 5 * q + 1) ∧
    b32LengthOk (8 * q + 3) = false ∧
    (b32LengthOk (8 * q + 4) = true ∧ fromBase32Length (8 * q + 4) = 5 * q + 2) ∧
    (b32LengthOk (8 * q + 5) = true ∧ fromBase32Length (8 * q + 5) = 5 * q + 3) ∧
    b32LengthOk (8 * q + 6) = false ∧
    (b32LengthOk (8 * q + 7) = true ∧ fromBase32Length (8 * q + 7) = 5 * q + 4) ∧
    (∀ n, 5 * n - 8 * fromBase32Length n = 5 * n % 8)

/-! ## Acceptance (44_command_protocol.md section 2) -/

/-- R204: what acceptance decides from `len` alone, the eighteen rows of the table, in a block with any legal
parameters. -/
def Obligations.AcceptanceDecidesFromTheLength : Prop :=
  ∀ (p : Params) (len : LenWord) (u : HexEncoder) (v : HexDecoder) (x : Base32Encoder) (y : Base32Decoder), p.Legal →
    let n := len.toNat
    let toHex := (acceptToHex p len u).regs
    let fromHex := acceptHexDecoder 0b010#3 len v
    let isHex := acceptHexDecoder 0b011#3 len v
    let toB32 := (acceptToBase32 p len x).regs
    let fromB32 := acceptBase32Decoder 0b110#3 len y
    let isB32 := acceptBase32Decoder 0b111#3 len y
    (p.hexMaxIn < n → toHex.status = ⟨.done, .outOfRange, false⟩ ∧ toHex.outlen = 0) ∧
    (n = 0 → toHex.status = ⟨.done, .none, false⟩ ∧ toHex.outlen = 0) ∧
    (1 ≤ n ∧ n ≤ p.hexMaxIn → toHex.status.state = .busy ∧ toHex.outlen.toNat = 2 * n) ∧
    (n % 2 = 1 → fromHex.regs.status = ⟨.done, .invalidLength, false⟩ ∧ fromHex.regs.outlen = 0) ∧
    (n = 0 → fromHex.regs.status = ⟨.done, .none, false⟩ ∧ fromHex.regs.outlen = 0) ∧
    (n % 2 = 0 ∧ 2 ≤ n → fromHex.regs.status.state = .busy ∧ fromHex.phase = .scan ∧
      fromHex.regs.outlen.toNat = n / 2) ∧
    (n % 2 = 1 → isHex.regs.status = ⟨.done, .none, false⟩ ∧ isHex.regs.outlen = 0) ∧
    (n = 0 → isHex.regs.status = ⟨.done, .none, true⟩ ∧ isHex.regs.outlen = 0) ∧
    (n % 2 = 0 ∧ 2 ≤ n → isHex.regs.status.state = .busy ∧ isHex.phase = .scan ∧ isHex.regs.outlen = 0) ∧
    (p.b32MaxIn < n → toB32.status = ⟨.done, .outOfRange, false⟩ ∧ toB32.outlen = 0) ∧
    (n = 0 → toB32.status = ⟨.done, .none, false⟩ ∧ toB32.outlen = 0) ∧
    (1 ≤ n ∧ n ≤ p.b32MaxIn → toB32.status.state = .busy ∧ toB32.outlen.toNat = (8 * n + 4) / 5) ∧
    (n % 8 = 1 ∨ n % 8 = 3 ∨ n % 8 = 6 →
      fromB32.regs.status = ⟨.done, .invalidLength, false⟩ ∧ fromB32.regs.outlen = 0) ∧
    (n = 0 → fromB32.regs.status = ⟨.done, .none, false⟩ ∧ fromB32.regs.outlen = 0) ∧
    ((n % 8 = 0 ∨ n % 8 = 2 ∨ n % 8 = 4 ∨ n % 8 = 5 ∨ n % 8 = 7) ∧ 2 ≤ n →
      fromB32.regs.status.state = .busy ∧ fromB32.phase = .scan ∧ fromB32.regs.outlen.toNat = 5 * n / 8) ∧
    (n % 8 = 1 ∨ n % 8 = 3 ∨ n % 8 = 6 → isB32.regs.status = ⟨.done, .none, false⟩ ∧ isB32.regs.outlen = 0) ∧
    (n = 0 → isB32.regs.status = ⟨.done, .none, true⟩ ∧ isB32.regs.outlen = 0) ∧
    ((n % 8 = 0 ∨ n % 8 = 2 ∨ n % 8 = 4 ∨ n % 8 = 5 ∨ n % 8 = 7) ∧ 2 ≤ n →
      isB32.regs.status.state = .busy ∧ isB32.phase = .scan ∧ isB32.regs.outlen = 0)

/-- R201: a command offered to a unit that is IDLE or DONE is accepted in one step: OP and LEN are the command's, ERR
and RESULT are None and 0 while it runs, the unit is BUSY or DONE, and no element of a buffer and nothing outside the
unit changes. OUTLEN, IDX, ODX, PHASE, BUF and BITS may (the acceptance rules). That a command which ends at acceptance
needs no source written is the model's reading (log 18). -/
def Obligations.AcceptanceLoadsTheCommand : Prop :=
  ∀ (s : State) (w : CommandWord) (i : Instr) (rest : List Input),
    s.inputs = .issue w :: rest → decode w = .ok i → ¬(s.regsOf (unitOf i)).Busy →
    (endsAtAcceptance s.params i = true ∨ ∀ k, k < i.len.toNat → (s.srcRead (unitOf i) k).isSome) →
    ∃ t, step s = .next t ∧ SameOutside (unitOf i) { s with inputs := rest } t ∧
      (t.regsOf (unitOf i)).op = opcode i ∧ (t.regsOf (unitOf i)).len = i.len ∧
      (endsAtAcceptance s.params i = true → (t.regsOf (unitOf i)).status.state = .done) ∧
      (endsAtAcceptance s.params i = false → (t.regsOf (unitOf i)).status = ⟨.busy, .none, false⟩) ∧
      (∀ k, t.srcRead (unitOf i) k = s.srcRead (unitOf i) k) ∧ (∀ k, t.dstRead (unitOf i) k = s.dstRead (unitOf i) k)

/-- R201, U16: a command offered to a BUSY unit waits with no effect: the unit takes its own step, the offer stays, and
the unit's OP and LEN stay, whether the command is to run whole or to be accepted alone. -/
def Obligations.OfferToABusyUnitWaits : Prop :=
  ∀ (s : State) (w : CommandWord) (i : Instr) (rest : List Input), decode w = .ok i → (s.regsOf (unitOf i)).Busy →
    s.inputs = .call w :: rest ∨ s.inputs = .issue w :: rest →
    step s = takeTurnOf (unitOf i) s ∧ exec i s = takeTurnOf (unitOf i) s ∧
    ∀ t, step s = .next t → t.inputs = s.inputs ∧ (t.regsOf (unitOf i)).op = (s.regsOf (unitOf i)).op ∧
      (t.regsOf (unitOf i)).len = (s.regsOf (unitOf i)).len

/-- R263, R267, U6 ("refuse"): a command that would run, some element of whose source was never written, is refused; one
that ends at acceptance needs no source. Which of the two a missing element means is the model's reading (log 4,
log 18). -/
def Obligations.CommandWithoutItsSourceIsRefused : Prop :=
  ∀ (s : State) (i : Instr), ¬(s.regsOf (unitOf i)).Busy → endsAtAcceptance s.params i = false →
    (∃ k, k < i.len.toNat ∧ s.srcRead (unitOf i) k = none) →
    exec i s = .refused (.sourceNotWritten (unitOf i)) ∧ issueInstr i s = .refused (.sourceNotWritten (unitOf i))

/-- A step runs the offered command: where a command word stands at the head of the inputs, decodes, and its unit is not
BUSY, the step is `exec` of that command with the word taken from the inputs; and that is where `withFetchWord` puts a
word (10_state.md R47, R50; 44_command_protocol.md R201; log 2). -/
def Obligations.StepRunsTheOfferedCommand : Prop :=
  (∀ (s : State) (w : CommandWord) (i : Instr) (rest : List Input),
    s.inputs = .call w :: rest → decode w = .ok i → ¬(s.regsOf (unitOf i)).Busy →
    step s = exec i { s with inputs := rest }) ∧
  (∀ (s : State) (nbits w : Nat) (i : Instr),
    decode (BitVec.ofNat 35 w) = .ok i → ¬(s.regsOf (unitOf i)).Busy → step (s.withFetchWord nbits w) = exec i s)

/-! ## Results of the six operations -/

/-- R131: TOHEX of an accepted length runs to DONE with the hexadecimal text of the source in DST, no other element of
DST and nothing outside hex_encoder changed. IDX and ODX may change (R21; U5). -/
def Obligations.ToHexWritesTheTextOfTheSource : Prop :=
  ∀ (len : LenWord) (bs : List Byte) (s : State), s.params.Legal → ¬s.hexEncoder.regs.Busy →
    len.toNat ≤ s.params.hexMaxIn → bs.length = len.toNat → s.hexEncoder.src.Holds bs →
    ∃ u : HexEncoder, exec (.toHex len) s = .next { s with hexEncoder := u } ∧
      u.regs.op = 0b000#3 ∧ u.regs.len = len ∧ u.regs.outlen.toNat = 2 * len.toNat ∧
      u.regs.status = ⟨.done, .none, false⟩ ∧ u.src = s.hexEncoder.src ∧
      (hexEncode bs).length = 2 * len.toNat ∧ u.dst.Holds (hexEncode bs) ∧
      ∀ j, 2 * len.toNat ≤ j → u.dst.read j = s.hexEncoder.dst.read j

/-- R143: FROMHEX of a valid source runs to DONE with the bytes of the source in DST, no other element of DST and
nothing outside hex_decoder changed. IDX, ODX and PHASE may change (R21; U5). -/
def Obligations.FromHexWritesTheBytesOfTheSource : Prop :=
  ∀ (len : LenWord) (cs : List Chr) (bs : List Byte) (s : State), ¬s.hexDecoder.regs.Busy →
    cs.length = len.toNat → s.hexDecoder.src.Holds cs → hexDecode cs = some bs →
    ∃ u : HexDecoder, exec (.fromHex len) s = .next { s with hexDecoder := u } ∧
      u.regs.op = 0b010#3 ∧ u.regs.len = len ∧ u.regs.outlen.toNat = len.toNat / 2 ∧
      u.regs.status = ⟨.done, .none, false⟩ ∧ u.src = s.hexDecoder.src ∧
      bs.length = len.toNat / 2 ∧ u.dst.Holds bs ∧
      ∀ j, len.toNat / 2 ≤ j → u.dst.read j = s.hexDecoder.dst.read j

/-- R161: TOBASE32 of an accepted length runs to DONE with the Base32 text of the source in DST, no other element of DST
and nothing outside base32_encoder changed. IDX, ODX, BUF and BITS may change (R21; U5). -/
def Obligations.ToBase32WritesTheTextOfTheSource : Prop :=
  ∀ (len : LenWord) (bs : List Byte) (s : State), s.params.Legal → ¬s.base32Encoder.regs.Busy →
    len.toNat ≤ s.params.b32MaxIn → bs.length = len.toNat → s.base32Encoder.src.Holds bs →
    ∃ u : Base32Encoder, exec (.toBase32 len) s = .next { s with base32Encoder := u } ∧
      u.regs.op = 0b100#3 ∧ u.regs.len = len ∧ u.regs.outlen.toNat = (8 * len.toNat + 4) / 5 ∧
      u.regs.status = ⟨.done, .none, false⟩ ∧ u.src = s.base32Encoder.src ∧
      (b32Encode bs).length = (8 * len.toNat + 4) / 5 ∧ u.dst.Holds (b32Encode bs) ∧
      ∀ j, (8 * len.toNat + 4) / 5 ≤ j → u.dst.read j = s.base32Encoder.dst.read j

/-- R183: FROMBASE32 of a valid source runs to DONE with the bytes of the source in DST, no other element of DST and
nothing outside base32_decoder changed. IDX, ODX, PHASE, BUF and BITS may change (R21; U5). -/
def Obligations.FromBase32WritesTheBytesOfTheSource : Prop :=
  ∀ (len : LenWord) (cs : List Chr) (bs : List Byte) (s : State), ¬s.base32Decoder.regs.Busy →
    cs.length = len.toNat → s.base32Decoder.src.Holds cs → b32Decode cs = some bs →
    ∃ u : Base32Decoder, exec (.fromBase32 len) s = .next { s with base32Decoder := u } ∧
      u.regs.op = 0b110#3 ∧ u.regs.len = len ∧ u.regs.outlen.toNat = 5 * len.toNat / 8 ∧
      u.regs.status = ⟨.done, .none, false⟩ ∧ u.src = s.base32Decoder.src ∧
      bs.length = 5 * len.toNat / 8 ∧ u.dst.Holds bs ∧
      ∀ j, 5 * len.toNat / 8 ≤ j → u.dst.read j = s.base32Decoder.dst.read j

/-- R144: ISHEX answers in RESULT whether the source is valid hexadecimal text, with no error, no output, and nothing
but hex_decoder's registers changed. IDX and PHASE, ODX too, may change (R21; U5). -/
def Obligations.IsHexAnswersForTheSource : Prop :=
  ∀ (len : LenWord) (cs : List Chr) (s : State), ¬s.hexDecoder.regs.Busy →
    cs.length = len.toNat → s.hexDecoder.src.Holds cs →
    ∃ u : HexDecoder, exec (.isHex len) s = .next { s with hexDecoder := u } ∧
      u.regs.op = 0b011#3 ∧ u.regs.len = len ∧ u.regs.outlen = 0 ∧
      u.regs.status = ⟨.done, .none, hexValid cs⟩ ∧ u.src = s.hexDecoder.src ∧ u.dst = s.hexDecoder.dst

/-- R184: ISBASE32 answers in RESULT whether the source is valid Base32 text, with no error, no output, and nothing but
base32_decoder's registers changed. IDX, ODX, PHASE, BUF and BITS may change (R21; U5). -/
def Obligations.IsBase32AnswersForTheSource : Prop :=
  ∀ (len : LenWord) (cs : List Chr) (s : State), ¬s.base32Decoder.regs.Busy →
    cs.length = len.toNat → s.base32Decoder.src.Holds cs →
    ∃ u : Base32Decoder, exec (.isBase32 len) s = .next { s with base32Decoder := u } ∧
      u.regs.op = 0b111#3 ∧ u.regs.len = len ∧ u.regs.outlen = 0 ∧
      u.regs.status = ⟨.done, .none, b32Valid cs⟩ ∧ u.src = s.base32Decoder.src ∧ u.dst = s.base32Decoder.dst

/-! ## Errors (60_exceptions.md) -/

/-- R231, R236: an encoder's command that is too long ends at acceptance with OutOfRange, whatever the source holds:
ERR, OUTLEN, RESULT and STATE as R236 says, OP and LEN the command's, and nothing else changed. -/
def Obligations.TooLongAnInputIsOutOfRange : Prop :=
  ∀ (len : LenWord) (s : State),
    (¬s.hexEncoder.regs.Busy → s.params.hexMaxIn < len.toNat →
      exec (.toHex len) s = .next { s with hexEncoder := { s.hexEncoder with
        regs := { s.hexEncoder.regs with
          op := 0b000#3, len := len, outlen := 0, status := ⟨.done, .outOfRange, false⟩ } } }) ∧
    (¬s.base32Encoder.regs.Busy → s.params.b32MaxIn < len.toNat →
      exec (.toBase32 len) s = .next { s with base32Encoder := { s.base32Encoder with
        regs := { s.base32Encoder.regs with
          op := 0b100#3, len := len, outlen := 0, status := ⟨.done, .outOfRange, false⟩ } } })

/-- R150, R192, R236: a decode of a bad length ends at acceptance with InvalidLength, whatever the characters are;
nothing else changes. That this is so also where they were never written is the model's reading (log 18). -/
def Obligations.BadLengthIsInvalidLength : Prop :=
  ∀ (len : LenWord) (s : State),
    (¬s.hexDecoder.regs.Busy → len.toNat % 2 = 1 →
      exec (.fromHex len) s = .next { s with hexDecoder := { s.hexDecoder with
        regs := { s.hexDecoder.regs with
          op := 0b010#3, len := len, outlen := 0, status := ⟨.done, .invalidLength, false⟩ } } }) ∧
    (¬s.base32Decoder.regs.Busy → len.toNat % 8 = 1 ∨ len.toNat % 8 = 3 ∨ len.toNat % 8 = 6 →
      exec (.fromBase32 len) s = .next { s with base32Decoder := { s.base32Decoder with
        regs := { s.base32Decoder.regs with
          op := 0b110#3, len := len, outlen := 0, status := ⟨.done, .invalidLength, false⟩ } } })

/-- R239, R145, R185: a validation of a bad length raises nothing: it answers 0 with ERR None, whatever the characters
are. That this is so also where they were never written is the model's reading (log 18), and so is that IDX, ODX, PHASE,
BUF and BITS, which U5 leaves open, stay as they were (log 13). -/
def Obligations.BadLengthValidatesToFalse : Prop :=
  ∀ (len : LenWord) (s : State),
    (¬s.hexDecoder.regs.Busy → len.toNat % 2 = 1 →
      exec (.isHex len) s = .next { s with hexDecoder := { s.hexDecoder with
        regs := { s.hexDecoder.regs with
          op := 0b011#3, len := len, outlen := 0, status := ⟨.done, .none, false⟩ } } }) ∧
    (¬s.base32Decoder.regs.Busy → len.toNat % 8 = 1 ∨ len.toNat % 8 = 3 ∨ len.toNat % 8 = 6 →
      exec (.isBase32 len) s = .next { s with base32Decoder := { s.base32Decoder with
        regs := { s.base32Decoder.regs with
          op := 0b111#3, len := len, outlen := 0, status := ⟨.done, .none, false⟩ } } })

/-- R233, R236, R237: a decode of a good length with an invalid character anywhere ends with InvalidCharacter, OUTLEN 0,
and DST exactly as it was. -/
def Obligations.BadCharacterIsInvalidCharacter : Prop :=
  ∀ (len : LenWord) (cs : List Chr) (s : State), cs.length = len.toNat →
    (¬s.hexDecoder.regs.Busy → len.toNat % 2 = 0 → s.hexDecoder.src.Holds cs →
      (∃ c, c ∈ cs ∧ hexval c = none) →
      ∃ u : HexDecoder, exec (.fromHex len) s = .next { s with hexDecoder := u } ∧
        u.regs.op = 0b010#3 ∧ u.regs.len = len ∧ u.regs.outlen = 0 ∧
        u.regs.status = ⟨.done, .invalidCharacter, false⟩ ∧ u.src = s.hexDecoder.src ∧ u.dst = s.hexDecoder.dst) ∧
    (¬s.base32Decoder.regs.Busy → b32LengthOk len.toNat = true → s.base32Decoder.src.Holds cs →
      (∃ c, c ∈ cs ∧ b32val c = none) →
      ∃ u : Base32Decoder, exec (.fromBase32 len) s = .next { s with base32Decoder := u } ∧
        u.regs.op = 0b110#3 ∧ u.regs.len = len ∧ u.regs.outlen = 0 ∧
        u.regs.status = ⟨.done, .invalidCharacter, false⟩ ∧ u.src = s.base32Decoder.src ∧
        u.dst = s.base32Decoder.dst)

/-- R235: which operation can end with which error, and exactly when. -/
def Obligations.EachErrorHasItsCause : Prop :=
  ∀ (i : Instr) (s t : State), ¬(s.regsOf (unitOf i)).Busy → exec i s = .next t →
    let e := (t.regsOf (unitOf i)).status.err
    let n := i.len.toNat
    (e = .outOfRange ↔
      (∃ len, i = .toHex len ∧ s.params.hexMaxIn < n) ∨ (∃ len, i = .toBase32 len ∧ s.params.b32MaxIn < n)) ∧
    (e = .invalidLength ↔
      (∃ len, i = .fromHex len ∧ n % 2 = 1) ∨
        (∃ len, i = .fromBase32 len ∧ (n % 8 = 1 ∨ n % 8 = 3 ∨ n % 8 = 6))) ∧
    (e = .invalidCharacter ↔
      (∃ len, i = .fromHex len ∧ n % 2 = 0 ∧ ∃ k c, k < n ∧ s.srcRead .hexDecoder k = some c ∧ hexval c = none) ∨
        (∃ len, i = .fromBase32 len ∧ b32LengthOk n = true ∧
          ∃ k c, k < n ∧ s.srcRead .base32Decoder k = some c ∧ b32val c = none))

/-- R237: for every command, either it ends with ERR None, or it ends with an error, OUTLEN is 0 and DST is exactly as
it was; and it has ended. -/
def Obligations.RejectionIsAtomic : Prop :=
  ∀ (i : Instr) (s t : State), s.params.Legal → ¬(s.regsOf (unitOf i)).Busy → exec i s = .next t →
    (t.regsOf (unitOf i)).status.state = .done ∧
    ((t.regsOf (unitOf i)).status.err ≠ .none →
      (t.regsOf (unitOf i)).outlen = 0 ∧ ∀ k, t.dstRead (unitOf i) k = s.dstRead (unitOf i) k) ∧
    ((t.regsOf (unitOf i)).status.err = .none →
      (t.regsOf (unitOf i)).outlen.toNat = outputLength i ∧ ∀ k, k < outputLength i → (t.dstRead (unitOf i) k).isSome)

/-! ## What a command leaves alone, and on what it depends -/

/-- R3, R20, R65: the frame of every command, in a block with legal parameters. Nothing outside its unit changes; no
element of its unit's SRC changes; no element of DST at or beyond the command's output length changes (for a validation,
none at all). -/
def Obligations.CommandLeavesTheRestAlone : Prop :=
  ∀ (i : Instr) (s t : State), s.params.Legal → ¬(s.regsOf (unitOf i)).Busy → exec i s = .next t →
    SameOutside (unitOf i) s t ∧ (∀ k, t.srcRead (unitOf i) k = s.srcRead (unitOf i) k) ∧
    (∀ k, outputLength i ≤ k → t.dstRead (unitOf i) k = s.dstRead (unitOf i) k) ∧
    (t.regsOf (unitOf i)).op = opcode i ∧ (t.regsOf (unitOf i)).len = i.len

/-- R23, R24, R38, R64, R65: the frame of a unit's step. Nothing outside the unit changes, nor its OP, LEN and SRC; of
DST at most the element at ODX (hex_encoder: and the next one). -/
def Obligations.TurnLeavesTheRestAlone : Prop :=
  ∀ (u : UnitId) (s t : State), takeTurnOf u s = .next t →
    SameOutside u s t ∧ (t.regsOf u).op = (s.regsOf u).op ∧ (t.regsOf u).len = (s.regsOf u).len ∧
    (∀ k, t.srcRead u k = s.srcRead u k) ∧
    (∀ k, k ≠ (s.regsOf u).odx.toNat → (u = .hexEncoder → k ≠ ((s.regsOf u).odx + 1).toNat) →
      t.dstRead u k = s.dstRead u k)

/-- R45: the outcome of a command is a function of op, len and SRC[0 .. len-1] alone: two states of a block (of the same
parameters) that agree there, and may differ in everything else, end with the same STATUS, OUTLEN and DST[0 ..
OUTLEN-1]. -/
def Obligations.OutcomeDependsOnTheInputAlone : Prop :=
  ∀ (i : Instr) (s₁ s₂ t₁ t₂ : State), s₁.params = s₂.params →
    ¬(s₁.regsOf (unitOf i)).Busy → ¬(s₂.regsOf (unitOf i)).Busy →
    (∀ k, k < i.len.toNat → s₁.srcRead (unitOf i) k = s₂.srcRead (unitOf i) k) →
    exec i s₁ = .next t₁ → exec i s₂ = .next t₂ →
    (t₁.regsOf (unitOf i)).status = (t₂.regsOf (unitOf i)).status ∧
    (t₁.regsOf (unitOf i)).outlen = (t₂.regsOf (unitOf i)).outlen ∧
    ∀ k, k < (t₁.regsOf (unitOf i)).outlen.toNat → t₁.dstRead (unitOf i) k = t₂.dstRead (unitOf i) k

/-- R78: commands on different units give the same, in either order. -/
def Obligations.CommandsOnDifferentUnitsCommute : Prop :=
  ∀ (i j : Instr) (s a t : State), unitOf i ≠ unitOf j → exec i s = .next a → exec j a = .next t →
    ∃ b, exec j s = .next b ∧ exec i b = .next t

/-- R78, R209: steps of different units give the same, in either order. -/
def Obligations.TurnsOfDifferentUnitsCommute : Prop :=
  ∀ (u v : UnitId) (s a t : State), u ≠ v → takeTurnOf u s = .next a → takeTurnOf v a = .next t →
    ∃ b, takeTurnOf v s = .next b ∧ takeTurnOf u b = .next t

/-! ## A unit's steps (44_command_protocol.md R206) -/

/-- R133: one step of TOHEX turns one byte into the two characters of its high and its low four bits. -/
def Obligations.HexEncoderStepWritesTwoCharacters : Prop :=
  ∀ (s : State) (b : Byte), s.hexEncoder.regs.Busy → s.hexEncoder.regs.idx < s.hexEncoder.regs.len →
    s.hexEncoder.src.read s.hexEncoder.regs.idx.toNat = some b →
    ∃ u : HexEncoder, takeTurnOf .hexEncoder s = .next { s with hexEncoder := u } ∧
      u.regs = { s.hexEncoder.regs with idx := s.hexEncoder.regs.idx + 1, odx := s.hexEncoder.regs.odx + 2 } ∧
      u.src = s.hexEncoder.src ∧
      u.dst.read s.hexEncoder.regs.odx.toNat = some (hexAlpha (BitVec.ofNat 4 (b.toNat / 16))) ∧
      u.dst.read (s.hexEncoder.regs.odx + 1).toNat = some (hexAlpha (BitVec.ofNat 4 (b.toNat % 16))) ∧
      ∀ k, k ≠ s.hexEncoder.regs.odx.toNat → k ≠ (s.hexEncoder.regs.odx + 1).toNat →
        u.dst.read k = s.hexEncoder.dst.read k

/-- R146, R186: one step of the SCAN pass of a decoder checks one character: the index moves on, a decode ends with
InvalidCharacter, or a validation answers false; BUF, BITS and both buffers are not touched. -/
def Obligations.ScanStepChecksOneCharacter : Prop :=
  (∀ (s : State) (c : Chr), let u := s.hexDecoder
    u.regs.Busy → u.phase = .scan → u.regs.idx < u.regs.len → u.src.read u.regs.idx.toNat = some c →
    (hexval c ≠ none → takeTurnOf .hexDecoder s =
      .next { s with hexDecoder := { u with regs := { u.regs with idx := u.regs.idx + 1 } } }) ∧
    (hexval c = none → u.regs.op.getLsbD 0 = false → takeTurnOf .hexDecoder s =
      .next { s with hexDecoder := { u with
        regs := { u.regs with outlen := 0, status := ⟨.done, .invalidCharacter, false⟩ } } }) ∧
    (hexval c = none → u.regs.op.getLsbD 0 = true → takeTurnOf .hexDecoder s =
      .next { s with hexDecoder := { u with regs := { u.regs with status := ⟨.done, .none, false⟩ } } })) ∧
  (∀ (s : State) (c : Chr), let u := s.base32Decoder
    u.regs.Busy → u.phase = .scan → u.regs.idx < u.regs.len → u.src.read u.regs.idx.toNat = some c →
    (b32val c ≠ none → takeTurnOf .base32Decoder s =
      .next { s with base32Decoder := { u with regs := { u.regs with idx := u.regs.idx + 1 } } }) ∧
    (b32val c = none → u.regs.op.getLsbD 0 = false → takeTurnOf .base32Decoder s =
      .next { s with base32Decoder := { u with
        regs := { u.regs with outlen := 0, status := ⟨.done, .invalidCharacter, false⟩ } } }) ∧
    (b32val c = none → u.regs.op.getLsbD 0 = true → takeTurnOf .base32Decoder s =
      .next { s with base32Decoder := { u with regs := { u.regs with status := ⟨.done, .none, false⟩ } } }))

/-- R147, R187: the end of the SCAN pass of a decoder: a validation answers true, a decode starts to write, BUF and BITS
as they are. -/
def Obligations.ScanPassEnds : Prop :=
  (∀ s : State, let u := s.hexDecoder
    u.regs.Busy → u.phase = .scan → u.regs.idx = u.regs.len →
    (u.regs.op.getLsbD 0 = true → takeTurnOf .hexDecoder s =
      .next { s with hexDecoder := { u with regs := { u.regs with status := ⟨.done, .none, true⟩ } } }) ∧
    (u.regs.op.getLsbD 0 = false → takeTurnOf .hexDecoder s =
      .next { s with hexDecoder := { u with regs := { u.regs with idx := 0 }, phase := .emit } })) ∧
  (∀ s : State, let u := s.base32Decoder
    u.regs.Busy → u.phase = .scan → u.regs.idx = u.regs.len →
    (u.regs.op.getLsbD 0 = true → takeTurnOf .base32Decoder s =
      .next { s with base32Decoder := { u with regs := { u.regs with status := ⟨.done, .none, true⟩ } } }) ∧
    (u.regs.op.getLsbD 0 = false → takeTurnOf .base32Decoder s =
      .next { s with base32Decoder := { u with regs := { u.regs with idx := 0 }, phase := .emit } }))

/-- R148: one step of the EMIT pass of FROMHEX turns one pair of characters into the byte `16 h + l`. -/
def Obligations.HexDecoderEmitWritesOneByte : Prop :=
  ∀ (s : State) (c₁ c₂ : Chr) (h l : BitVec 4), let u := s.hexDecoder
    u.regs.Busy → u.phase = .emit → u.regs.idx < u.regs.len → u.src.read u.regs.idx.toNat = some c₁ →
    u.src.read (u.regs.idx + 1).toNat = some c₂ → hexval c₁ = some h → hexval c₂ = some l →
    takeTurnOf .hexDecoder s = .next { s with hexDecoder := { u with
      dst := u.dst.write u.regs.odx.toNat (BitVec.ofNat 8 (16 * h.toNat + l.toNat))
      regs := { u.regs with idx := u.regs.idx + 2, odx := u.regs.odx + 1 } } }

/-- R164, R166: one step of TOBASE32 in a sound state, in numbers: with `pool` the `n` bits held after a byte is taken
in (fewer than 5 held, input left) or zeros are filled in below (fewer than 5, none left), the character of the top five
of them is written, and the rest are kept. -/
def Obligations.Base32EncoderStepWritesOneCharacter : Prop :=
  ∀ (s : State) (pool n : Nat) (idx' : LenWord), let u := s.base32Encoder
    s.Inv → u.regs.Busy → ¬(u.bits = 0 ∧ u.regs.idx = u.regs.len) →
    ((∃ b, u.bits.toNat < 5 ∧ u.regs.idx < u.regs.len ∧ u.src.read u.regs.idx.toNat = some b ∧
        pool = u.buf.toNat * 256 + b.toNat ∧ n = u.bits.toNat + 8 ∧ idx' = u.regs.idx + 1) ∨
      (u.bits.toNat < 5 ∧ u.regs.idx = u.regs.len ∧ pool = u.buf.toNat * 2 ^ (5 - u.bits.toNat) ∧ n = 5 ∧
        idx' = u.regs.idx) ∨
      (5 ≤ u.bits.toNat ∧ pool = u.buf.toNat ∧ n = u.bits.toNat ∧ idx' = u.regs.idx)) →
    pool < 2 ^ n ∧ n ≤ 12 ∧
    takeTurnOf .base32Encoder s = .next { s with base32Encoder := { u with
      dst := u.dst.write u.regs.odx.toNat (b32Alpha (BitVec.ofNat 5 (pool / 2 ^ (n - 5))))
      buf := BitVec.ofNat 12 (pool % 2 ^ (n - 5))
      bits := BitVec.ofNat 4 (n - 5)
      regs := { u.regs with idx := idx', odx := u.regs.odx + 1 } } }

/-- R189: one step of the EMIT pass of FROMBASE32 in a sound state, in numbers: five bits are taken in, and when eight
or more are then held, the top eight are written as a byte. -/
def Obligations.Base32DecoderEmitTakesOneCharacter : Prop :=
  ∀ (s : State) (c : Chr) (v : BitVec 5), let u := s.base32Decoder
    let pool := u.buf.toNat * 32 + v.toNat
    let n := u.bits.toNat + 5
    s.Inv → u.regs.Busy → u.phase = .emit → u.regs.idx < u.regs.len →
    u.src.read u.regs.idx.toNat = some c → b32val c = some v →
    pool < 2 ^ n ∧ n ≤ 12 ∧
    (8 ≤ n → takeTurnOf .base32Decoder s = .next { s with base32Decoder := { u with
      dst := u.dst.write u.regs.odx.toNat (BitVec.ofNat 8 (pool / 2 ^ (n - 8)))
      buf := BitVec.ofNat 12 (pool % 2 ^ (n - 8))
      bits := BitVec.ofNat 4 (n - 8)
      regs := { u.regs with idx := u.regs.idx + 1, odx := u.regs.odx + 1 } } }) ∧
    (n < 8 → takeTurnOf .base32Decoder s = .next { s with base32Decoder := { u with
      buf := BitVec.ofNat 12 pool
      bits := BitVec.ofNat 4 n
      regs := { u.regs with idx := u.regs.idx + 1 } } })

/-- R134, R149, R165, R190, R208: where a unit in a sound state has no more to read, and a decoder is in its EMIT pass,
its step is `complete()`: ERR None, STATE DONE, everything else as it was, and ODX is then OUTLEN. -/
def Obligations.CompletionComesWithTheWholeOutput : Prop :=
  ∀ s : State, s.Inv →
    (s.hexEncoder.regs.Busy → s.hexEncoder.regs.idx = s.hexEncoder.regs.len →
      s.hexEncoder.regs.odx = s.hexEncoder.regs.outlen ∧
      takeTurnOf .hexEncoder s = .next { s with hexEncoder := { s.hexEncoder with
        regs := { s.hexEncoder.regs with status := ⟨.done, .none, s.hexEncoder.regs.status.result⟩ } } }) ∧
    (s.hexDecoder.regs.Busy → s.hexDecoder.phase = .emit → s.hexDecoder.regs.idx = s.hexDecoder.regs.len →
      s.hexDecoder.regs.odx = s.hexDecoder.regs.outlen ∧
      takeTurnOf .hexDecoder s = .next { s with hexDecoder := { s.hexDecoder with
        regs := { s.hexDecoder.regs with status := ⟨.done, .none, s.hexDecoder.regs.status.result⟩ } } }) ∧
    (s.base32Encoder.regs.Busy → s.base32Encoder.bits = 0 → s.base32Encoder.regs.idx = s.base32Encoder.regs.len →
      s.base32Encoder.regs.odx = s.base32Encoder.regs.outlen ∧
      takeTurnOf .base32Encoder s = .next { s with base32Encoder := { s.base32Encoder with
        regs := { s.base32Encoder.regs with status := ⟨.done, .none, s.base32Encoder.regs.status.result⟩ } } }) ∧
    (s.base32Decoder.regs.Busy → s.base32Decoder.phase = .emit →
      s.base32Decoder.regs.idx = s.base32Decoder.regs.len →
      s.base32Decoder.regs.odx = s.base32Decoder.regs.outlen ∧
      s.base32Decoder.bits.toNat = 5 * s.base32Decoder.regs.len.toNat - 8 * s.base32Decoder.regs.outlen.toNat ∧
      takeTurnOf .base32Decoder s = .next { s with base32Decoder := { s.base32Decoder with
        regs := { s.base32Decoder.regs with status := ⟨.done, .none, s.base32Decoder.regs.status.result⟩ } } })

/-! ## The whole machine -/

/-- The state after reset is sound (10_state.md R49). -/
def Obligations.ResetStateIsSound : Prop := State.reset.Inv

/-- Every step from a sound state leads to a sound state: R23, R25, R27 to R36, R65 and the progress of each unit's
command, for every input there is (`State.Inv` in Safety.lean). The bounds on IDX, ODX, BITS and BUF (R31, R32, R35,
R36) are claimed of a unit while it is BUSY only: after a command that ended at its acceptance they hold what an earlier
command left (log 13). -/
def Obligations.EveryStepKeepsTheStateSound : Prop := ∀ s t : State, s.Inv → step s = .next t → t.Inv

/-- R207, 93_implementation_defined.md section 1: from a sound state no step faults, whatever the input: a step goes on,
or is refused because the host broke a duty or offered a reserved code. -/
def Obligations.NoStepFromASoundStateFaults : Prop := ∀ s : State, s.Inv → SafeStep s

/-- R206, R207: a BUSY unit of a sound state always has its step, and the step changes the unit. -/
def Obligations.ABusyUnitIsNeverStuck : Prop :=
  ∀ (s : State) (u : UnitId), s.Inv → (s.regsOf u).Busy → ∃ t, takeTurnOf u s = .next t ∧ ¬SameUnit u s t

/-- R210, R211: a command run whole and the same command accepted and then stepped by its unit end in the same state,
DONE, after at most the steps R211 counts; TOHEX and TOBASE32 take exactly that many when they run. -/
def Obligations.WholeCommandIsItsSteps : Prop :=
  ∀ (i : Instr) (s a : State), ¬(s.regsOf (unitOf i)).Busy → issueInstr i s = .next a →
    ∃ (n : Nat) (t : State), n ≤ stepBound i ∧ runTurns (unitOf i) n a = .next t ∧ exec i s = .next t ∧
      (t.regsOf (unitOf i)).status.state = .done ∧ (endsAtAcceptance s.params i = true → n = 0) ∧
      (endsAtAcceptance s.params i = false → (∃ len, i = .toHex len ∨ i = .toBase32 len) → n = stepBound i) ∧
      (∀ m b, m < n → runTurns (unitOf i) m a = .next b → (b.regsOf (unitOf i)).Busy)

/-- R27: nothing but reset makes a unit IDLE, and nothing but reset or a command for the unit takes it out of DONE. -/
def Obligations.OnlyResetMakesAUnitIdle : Prop :=
  ∀ (s t : State) (u : UnitId), step s = .next t →
    ((t.regsOf u).status.state = .idle → (s.regsOf u).status.state = .idle ∨ ∃ rest, s.inputs = .reset :: rest) ∧
    ((s.regsOf u).status.state = .done → (t.regsOf u).status.state ≠ .done →
      ∃ rest, s.inputs = .reset :: rest ∨
        ∃ w i, (s.inputs = .call w :: rest ∨ s.inputs = .issue w :: rest) ∧ decode w = .ok i ∧ unitOf i = u)

/-- R260, R261: reset, at any time: every unit has the registers' reset values that R49 gives; a DST of a unit that was
not BUSY is not touched; of one that was, nothing at or beyond its OUTLEN is; no SRC element is specified. -/
def Obligations.ResetRestoresEveryUnit : Prop :=
  ∀ (s : State) (rest : List Input), s.inputs = .reset :: rest →
    ∃ t, step s = .next t ∧ t.inputs = rest ∧ t.params = s.params ∧
      ∀ u : UnitId, (t.regsOf u).status = ⟨.idle, .none, false⟩ ∧ (t.regsOf u).outlen = 0 ∧ (t.regsOf u).len = 0 ∧
        (t.regsOf u).op.getLsbD 0 = false ∧ unitOfNumber ((t.regsOf u).op.extractLsb' 1 2) = u ∧
        (∀ k, t.srcRead u k = none) ∧
        (¬(s.regsOf u).Busy → ∀ k, t.dstRead u k = s.dstRead u k) ∧
        ((s.regsOf u).Busy → ∀ k, t.dstRead u k = if (s.regsOf u).outlen.toNat ≤ k then s.dstRead u k else none)

/-- R9, R10, R12: the parameters are fixed: no step, whatever the input, changes one. -/
def Obligations.EveryStepKeepsTheParameters : Prop := ∀ s t : State, step s = .next t → t.params = s.params

/-! ## The host -/

/-- R200 (a): the host writes an element of the SRC of a unit that is not BUSY: that element holds the value, and
nothing else changes. A value too wide for a byte or for a character of the block's width is refused (R263, R267). -/
def Obligations.HostWriteLandsInTheSource : Prop :=
  ∀ (s : State) (u : UnitId) (i : LenWord) (v : Nat) (rest : List Input),
    s.inputs = .writeSrc u i v :: rest → ¬(s.regsOf u).Busy →
    let bound := match u with
      | .hexEncoder | .base32Encoder => 256
      | .hexDecoder | .base32Decoder => 2 ^ s.params.charW
    (v < bound → ∃ t, step s = .next t ∧ SameOutside u { s with inputs := rest } t ∧ t.regsOf u = s.regsOf u ∧
      t.srcRead u i.toNat = some v ∧ (∀ k, k ≠ i.toNat → t.srcRead u k = s.srcRead u k) ∧
      (∀ k, t.dstRead u k = s.dstRead u k) ∧ SameWorking u s t) ∧
    (bound ≤ v → step s = .refused (.elementTooWide u))

/-- R263, R264, R267, U8: the host may not touch the buffers of a BUSY unit: the run is refused. -/
def Obligations.BuffersOfABusyUnitAreTheUnits : Prop :=
  ∀ (s : State) (u : UnitId) (i : LenWord) (v : Nat) (rest : List Input), (s.regsOf u).Busy →
    s.inputs = .writeSrc u i v :: rest ∨ s.inputs = .readDst u i :: rest → step s = .refused (.bufferOfBusyUnit u)

/-- R38, R200 (b), (c), R26, R27, R29: a read of OP, LEN, OUTLEN or STATUS, at any time, and of a written element of DST
of a unit that is not BUSY, hands out that value and changes nothing of the block. A DST element that was never written
hands out some value of the element's width, which the spec leaves open (U6; the model's counter of free values moves
on, log 5). -/
def Obligations.ReadsHaveNoSideEffect : Prop :=
  ∀ (s : State) (u : UnitId) (rest : List Input),
    (s.inputs = .readOp u :: rest →
      step s = .next { s with inputs := rest, answer := some (.op (s.regsOf u).op) }) ∧
    (s.inputs = .readLen u :: rest →
      step s = .next { s with inputs := rest, answer := some (.len (s.regsOf u).len) }) ∧
    (s.inputs = .readOutlen u :: rest →
      step s = .next { s with inputs := rest, answer := some (.outlen (s.regsOf u).outlen) }) ∧
    (s.inputs = .readStatus u :: rest → ∃ w : BitVec 5,
      step s = .next { s with inputs := rest, answer := some (.status w) } ∧
      w.extractLsb' 0 2 = (match (s.regsOf u).status.state with
        | .idle => 0#2
        | .busy => 1#2
        | .done => 2#2) ∧
      w.extractLsb' 2 2 = (match (s.regsOf u).status.err with
        | .none => 0#2
        | .outOfRange => 1#2
        | .invalidLength => 2#2
        | .invalidCharacter => 3#2) ∧
      w.getLsbD 4 = (s.regsOf u).status.result) ∧
    (∀ (i : LenWord) (v : Nat), s.inputs = .readDst u i :: rest → ¬(s.regsOf u).Busy →
      s.dstRead u i.toNat = some v →
      step s = .next { s with inputs := rest, answer := some (match u with
        | .hexEncoder | .base32Encoder => .chr v
        | .hexDecoder | .base32Decoder => .byte (BitVec.ofNat 8 v)) }) ∧
    (∀ i : LenWord, s.inputs = .readDst u i :: rest → ¬(s.regsOf u).Busy → s.dstRead u i.toNat = none →
      ∃ v : Answer, step s = .next { s with inputs := rest, answer := some v, fresh := s.fresh + 1 } ∧
        match u with
        | .hexEncoder | .base32Encoder => ∃ c, v = .chr c ∧ c < 2 ^ s.params.charW
        | .hexDecoder | .base32Decoder => ∃ b, v = .byte b)

/-! ## The UUID adapters (45_uuid_pseudo_ops.md) -/

/-- R221: the canonical form of a UUID whose first three fields are little-endian, the way back being the same
permutation; for a native form that is big-endian both are the identity; and each way undoes the other. -/
def Obligations.UuidCanonicalFormReversesThreeFields : Prop :=
  (∀ n : Vector Byte 16, (uuidCanon .littleEndianFields n).toList =
      [n[3], n[2], n[1], n[0], n[5], n[4], n[7], n[6], n[8], n[9], n[10], n[11], n[12], n[13], n[14], n[15]] ∧
    uuidUncanon .littleEndianFields n = uuidCanon .littleEndianFields n ∧
    uuidCanon .bigEndian n = n ∧ uuidUncanon .bigEndian n = n) ∧
  ∀ (layout : UuidLayout) (n : Vector Byte 16), uuidUncanon layout (uuidCanon layout n) = n ∧
    uuidCanon layout (uuidUncanon layout n) = n

/-- R223, R224: the text of a UUID is the hexadecimal or Base32 text of its canonical bytes, 32 or 26 characters, where
the bound is at least 16, as R223 takes it to be; below that the host fails with the encoder's error, which is the
model's choice (log 17). -/
def Obligations.UuidTextIsTheTextOfItsCanonicalBytes : Prop :=
  ∀ (layout : UuidLayout) (n : Vector Byte 16) (s : State),
    (¬s.hexEncoder.regs.Busy → 16 ≤ s.params.hexMaxIn →
      ∃ t, toHexUuid layout n s = .next (t, .ok (hexEncode (uuidCanon layout n).toList)) ∧
        SameOutside .hexEncoder s t ∧ (hexEncode (uuidCanon layout n).toList).length = 32) ∧
    (¬s.base32Encoder.regs.Busy → 16 ≤ s.params.b32MaxIn →
      ∃ t, toBase32Uuid layout n s = .next (t, .ok (b32Encode (uuidCanon layout n).toList)) ∧
        SameOutside .base32Encoder s t ∧ (b32Encode (uuidCanon layout n).toList).length = 26) ∧
    (¬s.hexEncoder.regs.Busy → s.params.hexMaxIn < 16 →
      ∃ t, toHexUuid layout n s = .next (t, .error .outOfRange) ∧ SameOutside .hexEncoder s t) ∧
    (¬s.base32Encoder.regs.Busy → s.params.b32MaxIn < 16 →
      ∃ t, toBase32Uuid layout n s = .next (t, .error .outOfRange) ∧ SameOutside .base32Encoder s t)

/-- R225, R226, R227: of a text whose codes have the block's character width: a text of the wrong length fails with
InvalidLength and no command; a text of the right length with an invalid character fails with InvalidCharacter; any
other gives the UUID whose canonical bytes it decodes to. -/
def Obligations.UuidOfATextIsItsDecoding : Prop :=
  ∀ (layout : UuidLayout) (cs : List Chr) (s : State), (∀ c, c ∈ cs → c < 2 ^ s.params.charW) →
    (cs.length ≠ 32 → fromHexUuid layout cs s = .next (s, .error .invalidLength)) ∧
    (cs.length ≠ 26 → fromBase32Uuid layout cs s = .next (s, .error .invalidLength)) ∧
    (cs.length = 32 → ¬s.hexDecoder.regs.Busy → hexValid cs = false →
      ∃ t, fromHexUuid layout cs s = .next (t, .error .invalidCharacter) ∧ SameOutside .hexDecoder s t) ∧
    (cs.length = 26 → ¬s.base32Decoder.regs.Busy → b32Valid cs = false →
      ∃ t, fromBase32Uuid layout cs s = .next (t, .error .invalidCharacter) ∧ SameOutside .base32Decoder s t) ∧
    (∀ bs, cs.length = 32 → ¬s.hexDecoder.regs.Busy → hexDecode cs = some bs →
      ∃ t n, fromHexUuid layout cs s = .next (t, .ok n) ∧ SameOutside .hexDecoder s t ∧
        (uuidCanon layout n).toList = bs) ∧
    (∀ bs, cs.length = 26 → ¬s.base32Decoder.regs.Busy → b32Decode cs = some bs →
      ∃ t n, fromBase32Uuid layout cs s = .next (t, .ok n) ∧ SameOutside .base32Decoder s t ∧
        (uuidCanon layout n).toList = bs)
end

