-- ==== Sys2Proof/Laws/Memory.lean ====
section
/-! SUPPORT. The laws of a buffer: what a read gives after a write, what a write leaves alone, and that every operation
keeps the canonical form. -/

namespace Sys2Proof.Machine

variable {α : Type}

/-- A write, then a read at the same index, gives the element written. -/
@[simp] theorem Buffer.read_write_same (b : Buffer α) (i : Nat) (v : α) : (b.write i v).read i = some v := by
  induction b with
  | nil => simp [Buffer.write, Buffer.read]
  | cons c rest ih =>
    obtain ⟨k, u⟩ := c
    simp only [Buffer.write]
    split
    · simp [Buffer.read]
    · split
      · simp [Buffer.read]
      · simp [Buffer.read, *]

/-- A write leaves every other index as it was. -/
@[simp] theorem Buffer.read_write_other (b : Buffer α) {i j : Nat} (v : α) (h : j ≠ i) :
    (b.write i v).read j = b.read j := by
  induction b with
  | nil => simp [Buffer.write, Buffer.read, h]
  | cons c rest ih =>
    obtain ⟨k, u⟩ := c
    simp only [Buffer.write]
    split
    · simp [Buffer.read, h]
    · split
      · subst i; simp [Buffer.read, h]
      · simp [Buffer.read, ih]

/-- What a read gives after a write, at any index. -/
theorem Buffer.read_write (b : Buffer α) (i j : Nat) (v : α) :
    (b.write i v).read j = if j = i then some v else b.read j := by
  split
  · subst j; simp
  · simp [*]

/-- A buffer whose indices rise from `lo` lists nothing below `lo`. -/
theorem Buffer.read_below_risingFrom {b : Buffer α} {lo i : Nat} (h : b.risingFrom lo = true) (hi : i < lo) :
    b.read i = none := by
  induction b generalizing lo with
  | nil => rfl
  | cons c rest ih =>
    obtain ⟨k, u⟩ := c
    simp only [Buffer.risingFrom, Bool.and_eq_true, decide_eq_true_eq] at h
    have : i ≠ k := by omega
    simp [Buffer.read, this, ih h.2 (by omega)]

/-- A lower start is a weaker claim. -/
theorem Buffer.risingFrom_mono {b : Buffer α} {lo lo' : Nat} (h : b.risingFrom lo = true) (hl : lo' ≤ lo) :
    b.risingFrom lo' = true := by
  cases b with
  | nil => rfl
  | cons c rest =>
    obtain ⟨k, u⟩ := c
    simp only [Buffer.risingFrom, Bool.and_eq_true, decide_eq_true_eq] at h ⊢
    exact ⟨by omega, h.2⟩

/-- A write at or above `lo` keeps the indices rising from `lo`. -/
theorem Buffer.risingFrom_write {b : Buffer α} {lo i : Nat} (v : α) (h : b.risingFrom lo = true) (hi : lo ≤ i) :
    (b.write i v).risingFrom lo = true := by
  induction b generalizing lo with
  | nil => simp [Buffer.write, Buffer.risingFrom, hi]
  | cons c rest ih =>
    obtain ⟨k, u⟩ := c
    simp only [Buffer.risingFrom, Bool.and_eq_true, decide_eq_true_eq] at h
    simp only [Buffer.write]
    split
    · simp only [Buffer.risingFrom, Bool.and_eq_true, decide_eq_true_eq]
      exact ⟨hi, by omega, h.2⟩
    · split
      · subst i
        simp only [Buffer.risingFrom, Bool.and_eq_true, decide_eq_true_eq]
        exact ⟨hi, h.2⟩
      · simp only [Buffer.risingFrom, Bool.and_eq_true, decide_eq_true_eq]
        exact ⟨h.1, ih h.2 (by omega)⟩

/-- A write at a 32-bit index keeps all indices 32-bit numbers. -/
theorem Buffer.indicesFit_write {b : Buffer α} {i : Nat} (v : α) (h : b.indicesFit = true) (hi : i < 2 ^ 32) :
    (b.write i v).indicesFit = true := by
  induction b with
  | nil => simpa [Buffer.write, Buffer.indicesFit] using hi
  | cons c rest ih =>
    obtain ⟨k, u⟩ := c
    simp only [Buffer.indicesFit, List.all_cons, Bool.and_eq_true, decide_eq_true_eq] at h ih
    simp only [Buffer.write]
    split
    · simp only [Buffer.indicesFit, List.all_cons, Bool.and_eq_true, decide_eq_true_eq]
      exact ⟨hi, h.1, h.2⟩
    · split
      · simp only [Buffer.indicesFit, List.all_cons, Bool.and_eq_true, decide_eq_true_eq]
        exact ⟨hi, h.2⟩
      · simp only [Buffer.indicesFit, List.all_cons, Bool.and_eq_true, decide_eq_true_eq]
        exact ⟨h.1, ih h.2⟩

/-- A write at a 32-bit index keeps the canonical form. -/
theorem Buffer.wf_write {b : Buffer α} {i : Nat} (v : α) (h : b.wf = true) (hi : i < 2 ^ 32) :
    (b.write i v).wf = true := by
  simp only [Buffer.wf, Bool.and_eq_true] at h ⊢
  exact ⟨Buffer.risingFrom_write v h.1 (Nat.zero_le i), Buffer.indicesFit_write v h.2 hi⟩

/-- A write at an index register keeps the canonical form. -/
theorem Buffer.wf_write_reg {b : Buffer α} (i : LenWord) (v : α) (h : b.wf = true) :
    (b.write i.toNat v).wf = true := Buffer.wf_write v h i.isLt

/-- Forgetting what lies below `n` leaves every index from `n` on as it was, and nothing below. -/
theorem Buffer.read_forgetBelow (b : Buffer α) (n i : Nat) :
    (b.forgetBelow n).read i = if n ≤ i then b.read i else none := by
  induction b with
  | nil => simp [Buffer.forgetBelow, Buffer.read]
  | cons c rest ih =>
    obtain ⟨k, u⟩ := c
    simp only [Buffer.forgetBelow, List.filter_cons, Buffer.read] at ih ⊢
    by_cases hk : n ≤ k
    · simp only [hk, decide_true, ↓reduceIte, Buffer.read, ih]
      by_cases hik : i = k
      · subst i; simp [hk]
      · simp [hik]
    · simp only [hk, decide_false, Bool.false_eq_true, ↓reduceIte, ih]
      by_cases hik : i = k
      · subst i; simp [hk]
      · simp [hik]

/-- Dropping entries keeps the indices rising. -/
theorem Buffer.risingFrom_forgetBelow {b : Buffer α} {lo : Nat} (n : Nat) (h : b.risingFrom lo = true) :
    (b.forgetBelow n).risingFrom lo = true := by
  induction b generalizing lo with
  | nil => rfl
  | cons c rest ih =>
    obtain ⟨k, u⟩ := c
    simp only [Buffer.risingFrom, Bool.and_eq_true, decide_eq_true_eq] at h
    simp only [Buffer.forgetBelow, List.filter_cons] at ih ⊢
    split
    · simp only [Buffer.risingFrom, Bool.and_eq_true, decide_eq_true_eq]
      exact ⟨h.1, ih h.2⟩
    · exact Buffer.risingFrom_mono (ih h.2) (by omega)

/-- Forgetting keeps the canonical form. -/
theorem Buffer.wf_forgetBelow {b : Buffer α} (n : Nat) (h : b.wf = true) : (b.forgetBelow n).wf = true := by
  simp only [Buffer.wf, Bool.and_eq_true] at h ⊢
  refine ⟨Buffer.risingFrom_forgetBelow n h.1, ?_⟩
  have h2 := h.2
  simp only [Buffer.indicesFit, List.all_eq_true] at h2 ⊢
  exact fun c hc => h2 c (List.mem_of_mem_filter hc)

/-- Storing a list of elements at 32-bit indices keeps the canonical form. -/
theorem Buffer.wf_writeList {b : Buffer α} (i : Nat) (xs : List (α)) (h : b.wf = true)
    (hi : i + xs.length ≤ 2 ^ 32) : (b.writeList i xs).wf = true := by
  induction xs generalizing b i with
  | nil => exact h
  | cons x xs ih =>
    simp only [List.length_cons] at hi
    exact ih (i + 1) (Buffer.wf_write x h (by omega)) (by omega)

/-- What `allWritten` says. -/
theorem Buffer.allWritten_iff (b : Buffer α) (n : Nat) : b.allWritten n = true ↔ ∀ i, i < n → (b.read i).isSome := by
  induction n with
  | zero => simp [Buffer.allWritten]
  | succ n ih =>
    simp only [Buffer.allWritten, Bool.and_eq_true, ih]
    constructor
    · rintro ⟨h1, h2⟩ i hi
      rcases Nat.lt_succ_iff_lt_or_eq.mp hi with h | rfl
      · exact h2 i h
      · exact h1
    · exact fun h => ⟨h n (by omega), fun i hi => h i (by omega)⟩

/-- Two canonical buffers that read alike at every index are the same list. -/
theorem Buffer.ext_of_risingFrom {b c : Buffer α} {lo : Nat} (hb : b.risingFrom lo = true) (hc : c.risingFrom lo = true)
    (h : ∀ i, b.read i = c.read i) : b = c := by
  induction b generalizing c lo with
  | nil =>
    cases c with
    | nil => rfl
    | cons d rest => obtain ⟨k, u⟩ := d; simpa [Buffer.read] using h k
  | cons d rest ih =>
    obtain ⟨k, u⟩ := d
    simp only [Buffer.risingFrom, Bool.and_eq_true, decide_eq_true_eq] at hb
    cases c with
    | nil => simpa [Buffer.read] using h k
    | cons e rest' =>
      obtain ⟨k', u'⟩ := e
      simp only [Buffer.risingFrom, Bool.and_eq_true, decide_eq_true_eq] at hc
      have hk : k = k' := by
        by_contra hne
        rcases Nat.lt_or_gt_of_ne hne with hlt | hgt
        · have h1 := h k
          simp [Buffer.read, hne, Buffer.read_below_risingFrom hc.2 (by omega : k < k' + 1)] at h1
        · have h1 := h k'
          have hne' : k' ≠ k := by omega
          simp [Buffer.read, hne', Buffer.read_below_risingFrom hb.2 (by omega : k' < k + 1)] at h1
      subst k'
      have hu : u = u' := by simpa [Buffer.read] using h k
      subst u'
      have hrest : rest = rest' := by
        refine ih hb.2 hc.2 fun i => ?_
        by_cases hi : i = k
        · subst i
          rw [Buffer.read_below_risingFrom hb.2 (Nat.lt_succ_self k),
            Buffer.read_below_risingFrom hc.2 (Nat.lt_succ_self k)]
        · simpa [Buffer.read, hi] using h i
      rw [hrest]

/-- Equal memories are equal data. -/
theorem Buffer.ext_of_wf {b c : Buffer α} (hb : b.wf = true) (hc : c.wf = true) (h : ∀ i, b.read i = c.read i) :
    b = c := by
  simp only [Buffer.wf, Bool.and_eq_true] at hb hc
  exact Buffer.ext_of_risingFrom hb.1 hc.1 h

/-- Memory right after reset is in canonical form. -/
theorem reset_memory_wf : Memory.wf State.reset = true := by decide

/-- Everything a host's write of SRC that goes on can be. -/
theorem writeElement_eq_next {mk : Nat → α} {width : Nat} {u : UnitId} {r : Regs} {b c : Buffer α} {i : LenWord}
    {v : Nat} : writeElement mk width u r b i v = .next c ↔ ¬r.Busy ∧ v < 2 ^ width ∧ c = b.write i.toNat (mk v) := by
  unfold writeElement
  by_cases hb : r.Busy
  · rw [if_pos hb]
    exact ⟨fun h => (nomatch h), fun h => absurd hb h.1⟩
  · by_cases hv : v < 2 ^ width
    · rw [if_neg hb, if_pos hv]
      exact ⟨fun h => by { cases h; exact ⟨hb, hv, rfl⟩ }, fun h => by rw [h.2.2]⟩
    · rw [if_neg hb, if_neg hv]
      exact ⟨fun h => (nomatch h), fun h => absurd h.2.1 hv⟩

/-- A host's write of SRC keeps the buffer in canonical form. -/
theorem wf_writeElement {mk : Nat → α} {width : Nat} {u : UnitId} {r : Regs} {b c : Buffer α} {i : LenWord} {v : Nat}
    (h : writeElement mk width u r b i v = .next c) (hb : b.wf = true) : c.wf = true := by
  rw [(writeElement_eq_next.mp h).2.2]
  exact Buffer.wf_write_reg i _ hb

/-- What `codesFit` says: every character that is read has the width of a character. -/
theorem Buffer.code_lt_of_codesFit {charW : Nat} {b : Buffer Chr} (h : b.codesFit charW = true) {i : Nat} {c : Chr}
    (hc : b.read i = some c) : c < 2 ^ charW := by
  induction b with
  | nil => simp [Buffer.read] at hc
  | cons d rest ih =>
    obtain ⟨k, u⟩ := d
    simp only [Buffer.codesFit, List.all_cons, Bool.and_eq_true, decide_eq_true_eq] at h ih
    simp only [Buffer.read] at hc
    split at hc
    · cases hc; exact h.1
    · exact ih h.2 hc

/-- A write of a code that fits keeps every character within its width. -/
theorem Buffer.codesFit_write {charW : Nat} {b : Buffer Chr} {i : Nat} {c : Chr} (h : b.codesFit charW = true)
    (hc : c < 2 ^ charW) : (b.write i c).codesFit charW = true := by
  induction b with
  | nil => simpa [Buffer.write, Buffer.codesFit] using hc
  | cons d rest ih =>
    obtain ⟨k, u⟩ := d
    simp only [Buffer.codesFit, List.all_cons, Bool.and_eq_true, decide_eq_true_eq] at h ih
    simp only [Buffer.write]
    split
    · simp only [Buffer.codesFit, List.all_cons, Bool.and_eq_true, decide_eq_true_eq]
      exact ⟨hc, h.1, h.2⟩
    · split
      · simp only [Buffer.codesFit, List.all_cons, Bool.and_eq_true, decide_eq_true_eq]
        exact ⟨hc, h.2⟩
      · simp only [Buffer.codesFit, List.all_cons, Bool.and_eq_true, decide_eq_true_eq]
        exact ⟨h.1, ih h.2⟩

/-- Forgetting keeps every character within its width. -/
theorem Buffer.codesFit_forgetBelow {charW : Nat} {b : Buffer Chr} (n : Nat) (h : b.codesFit charW = true) :
    (b.forgetBelow n).codesFit charW = true := by
  simp only [Buffer.codesFit, List.all_eq_true] at h ⊢
  exact fun c hc => h c (List.mem_of_mem_filter hc)

/-- A host's write of a decoder's SRC keeps every character within its width. -/
theorem codesFit_writeChar {p : Params} {u : UnitId} {r : Regs} {b c : Buffer Chr} {i : LenWord} {v : Nat}
    (h : writeChar p u r b i v = .next c) (hb : b.codesFit p.charW = true) : c.codesFit p.charW = true := by
  obtain ⟨-, hv, rfl⟩ := writeElement_eq_next.mp h
  exact Buffer.codesFit_write hb hv

/-- The characters an encoder writes are below 128 (30_encoding.md R98). -/
theorem hexAlpha_lt (v : BitVec 4) : hexAlpha v < 128 := (hexAlphabet[v.toNat]'v.isLt).isLt

/-- The characters an encoder writes are below 128 (30_encoding.md R98). -/
theorem b32Alpha_lt (v : BitVec 5) : b32Alpha v < 128 := (b32Alphabet[v.toNat]'v.isLt).isLt

/-- A code below 128 fits in a character of every legal width (00_scope.md R12). -/
theorem code_fits {p : Params} (hp : p.Legal) {c : Chr} (hc : c < 128) : c < 2 ^ p.charW :=
  lt_of_lt_of_le hc (le_trans (by decide) (Nat.pow_le_pow_right (by decide : 0 < 2) hp.1))

/-- A free character fits too. -/
theorem freeChar_lt (p : Params) (n : Nat) : p.freeChar n < 2 ^ p.charW := Nat.mod_lt _ (Nat.two_pow_pos _)

/-- A reset keeps DST in canonical form. -/
theorem wf_dstAfterReset {r : Regs} {b : Buffer α} (h : b.wf = true) : (dstAfterReset r b).wf = true := by
  unfold dstAfterReset
  split
  · exact Buffer.wf_forgetBelow _ h
  · exact h

end Sys2Proof.Machine
end

