-- ==== Sys2Proof/Laws/State.lean ====
section
/-! SUPPORT. One lemma for each field of each named update of the state and of a unit's registers. -/

namespace Sys2Proof.Machine

/-! ## Registers -/

section Registers
variable (e : Err) (b : Bool) (op : OpCode) (len : LenWord) (n : Nat) (r : Regs)

@[simp] theorem raise_op : (raise e r).op = r.op := rfl
@[simp] theorem raise_len : (raise e r).len = r.len := rfl
@[simp] theorem raise_outlen : (raise e r).outlen = 0 := rfl
@[simp] theorem raise_status : (raise e r).status = ⟨.done, e, false⟩ := rfl
@[simp] theorem raise_idx : (raise e r).idx = r.idx := rfl
@[simp] theorem raise_odx : (raise e r).odx = r.odx := rfl

@[simp] theorem complete_op : (complete r).op = r.op := rfl
@[simp] theorem complete_len : (complete r).len = r.len := rfl
@[simp] theorem complete_outlen : (complete r).outlen = r.outlen := rfl
@[simp] theorem complete_status : (complete r).status = ⟨.done, .none, r.status.result⟩ := rfl
@[simp] theorem complete_idx : (complete r).idx = r.idx := rfl
@[simp] theorem complete_odx : (complete r).odx = r.odx := rfl

@[simp] theorem load_op : (load op len r).op = op := rfl
@[simp] theorem load_len : (load op len r).len = len := rfl
@[simp] theorem load_outlen : (load op len r).outlen = r.outlen := rfl
@[simp] theorem load_status : (load op len r).status = ⟨r.status.state, .none, false⟩ := rfl
@[simp] theorem load_idx : (load op len r).idx = r.idx := rfl
@[simp] theorem load_odx : (load op len r).odx = r.odx := rfl

@[simp] theorem start_op : (start n r).op = r.op := rfl
@[simp] theorem start_len : (start n r).len = r.len := rfl
@[simp] theorem start_outlen : (start n r).outlen = BitVec.ofNat 32 n := rfl
@[simp] theorem start_status : (start n r).status = ⟨.busy, r.status.err, r.status.result⟩ := rfl
@[simp] theorem start_idx : (start n r).idx = 0 := rfl
@[simp] theorem start_odx : (start n r).odx = 0 := rfl

@[simp] theorem endAtOnce_op : (endAtOnce b r).op = r.op := rfl
@[simp] theorem endAtOnce_len : (endAtOnce b r).len = r.len := rfl
@[simp] theorem endAtOnce_outlen : (endAtOnce b r).outlen = 0 := rfl
@[simp] theorem endAtOnce_status : (endAtOnce b r).status = ⟨.done, .none, b⟩ := rfl
@[simp] theorem endAtOnce_idx : (endAtOnce b r).idx = r.idx := rfl
@[simp] theorem endAtOnce_odx : (endAtOnce b r).odx = r.odx := rfl

@[simp] theorem setResult_op : (setResult b r).op = r.op := rfl
@[simp] theorem setResult_len : (setResult b r).len = r.len := rfl
@[simp] theorem setResult_outlen : (setResult b r).outlen = r.outlen := rfl
@[simp] theorem setResult_status : (setResult b r).status = ⟨r.status.state, r.status.err, b⟩ := rfl
@[simp] theorem setResult_idx : (setResult b r).idx = r.idx := rfl
@[simp] theorem setResult_odx : (setResult b r).odx = r.odx := rfl

end Registers

/-! ## The units' records -/

section Records
variable (u : HexEncoder) (v : HexDecoder) (x : Base32Encoder) (y : Base32Decoder) (b : Byte) (h l : BitVec 4)
  (len : LenWord) (op : OpCode) (buf bits : Nat) (i : LenWord) (p : Params)

@[simp] theorem acceptToHex_regs :
    (acceptToHex p len u).regs = acceptEncode 0b000#3 p.hexMaxIn toHexLength len u.regs := rfl
@[simp] theorem acceptToHex_src : (acceptToHex p len u).src = u.src := rfl
@[simp] theorem acceptToHex_dst : (acceptToHex p len u).dst = u.dst := rfl

@[simp] theorem acceptHexDecoder_regs :
    (acceptHexDecoder op len v).regs = acceptDecode op hexLengthOk fromHexLength len v.regs := rfl
@[simp] theorem acceptHexDecoder_src : (acceptHexDecoder op len v).src = v.src := rfl
@[simp] theorem acceptHexDecoder_dst : (acceptHexDecoder op len v).dst = v.dst := rfl

@[simp] theorem acceptToBase32_regs :
    (acceptToBase32 p len x).regs = acceptEncode 0b100#3 p.b32MaxIn toBase32Length len x.regs := rfl
@[simp] theorem acceptToBase32_src : (acceptToBase32 p len x).src = x.src := rfl
@[simp] theorem acceptToBase32_dst : (acceptToBase32 p len x).dst = x.dst := rfl

@[simp] theorem acceptBase32Decoder_regs :
    (acceptBase32Decoder op len y).regs = acceptDecode op b32LengthOk fromBase32Length len y.regs := rfl
@[simp] theorem acceptBase32Decoder_src : (acceptBase32Decoder op len y).src = y.src := rfl
@[simp] theorem acceptBase32Decoder_dst : (acceptBase32Decoder op len y).dst = y.dst := rfl

@[simp] theorem hexEncodeByte_src : (hexEncodeByte b u).src = u.src := rfl
@[simp] theorem hexEncodeByte_op : (hexEncodeByte b u).regs.op = u.regs.op := rfl
@[simp] theorem hexEncodeByte_len : (hexEncodeByte b u).regs.len = u.regs.len := rfl
@[simp] theorem hexEncodeByte_outlen : (hexEncodeByte b u).regs.outlen = u.regs.outlen := rfl
@[simp] theorem hexEncodeByte_status : (hexEncodeByte b u).regs.status = u.regs.status := rfl
@[simp] theorem hexEncodeByte_idx : (hexEncodeByte b u).regs.idx = u.regs.idx + 1 := rfl
@[simp] theorem hexEncodeByte_odx : (hexEncodeByte b u).regs.odx = u.regs.odx + 2 := rfl

@[simp] theorem hexDecodePair_src : (hexDecodePair h l v).src = v.src := rfl
@[simp] theorem hexDecodePair_phase : (hexDecodePair h l v).phase = v.phase := rfl
@[simp] theorem hexDecodePair_dst :
    (hexDecodePair h l v).dst = v.dst.write v.regs.odx.toNat (joinNibbles h l) := rfl
@[simp] theorem hexDecodePair_op : (hexDecodePair h l v).regs.op = v.regs.op := rfl
@[simp] theorem hexDecodePair_len : (hexDecodePair h l v).regs.len = v.regs.len := rfl
@[simp] theorem hexDecodePair_outlen : (hexDecodePair h l v).regs.outlen = v.regs.outlen := rfl
@[simp] theorem hexDecodePair_status : (hexDecodePair h l v).regs.status = v.regs.status := rfl
@[simp] theorem hexDecodePair_idx : (hexDecodePair h l v).regs.idx = v.regs.idx + 2 := rfl
@[simp] theorem hexDecodePair_odx : (hexDecodePair h l v).regs.odx = v.regs.odx + 1 := rfl

@[simp] theorem base32EmitSymbol_src : (base32EmitSymbol buf bits i x).src = x.src := rfl
@[simp] theorem base32EmitSymbol_op : (base32EmitSymbol buf bits i x).regs.op = x.regs.op := rfl
@[simp] theorem base32EmitSymbol_len : (base32EmitSymbol buf bits i x).regs.len = x.regs.len := rfl
@[simp] theorem base32EmitSymbol_outlen : (base32EmitSymbol buf bits i x).regs.outlen = x.regs.outlen := rfl
@[simp] theorem base32EmitSymbol_status : (base32EmitSymbol buf bits i x).regs.status = x.regs.status := rfl
@[simp] theorem base32EmitSymbol_idx : (base32EmitSymbol buf bits i x).regs.idx = i := rfl
@[simp] theorem base32EmitSymbol_odx : (base32EmitSymbol buf bits i x).regs.odx = x.regs.odx + 1 := rfl
@[simp] theorem base32EmitSymbol_bits : (base32EmitSymbol buf bits i x).bits = BitVec.ofNat 4 (bits - 5) := rfl

end Records

/-! ## The state -/

section States
variable (s : State) (u : UnitId) (a : Answer) (nbits w : Nat)

@[simp] theorem withFetchWord_inputs :
    (s.withFetchWord nbits w).inputs = .call (BitVec.ofNat 35 w) :: s.inputs := rfl
@[simp] theorem withFetchWord_hexEncoder : (s.withFetchWord nbits w).hexEncoder = s.hexEncoder := rfl
@[simp] theorem withFetchWord_hexDecoder : (s.withFetchWord nbits w).hexDecoder = s.hexDecoder := rfl
@[simp] theorem withFetchWord_base32Encoder : (s.withFetchWord nbits w).base32Encoder = s.base32Encoder := rfl
@[simp] theorem withFetchWord_base32Decoder : (s.withFetchWord nbits w).base32Decoder = s.base32Decoder := rfl
@[simp] theorem withFetchWord_answer : (s.withFetchWord nbits w).answer = s.answer := rfl
@[simp] theorem withFetchWord_params : (s.withFetchWord nbits w).params = s.params := rfl
@[simp] theorem withFetchWord_fresh : (s.withFetchWord nbits w).fresh = s.fresh := rfl

@[simp] theorem handOut_answer : (handOut a s).answer = some a := rfl
@[simp] theorem handOut_hexEncoder : (handOut a s).hexEncoder = s.hexEncoder := rfl
@[simp] theorem handOut_hexDecoder : (handOut a s).hexDecoder = s.hexDecoder := rfl
@[simp] theorem handOut_base32Encoder : (handOut a s).base32Encoder = s.base32Encoder := rfl
@[simp] theorem handOut_base32Decoder : (handOut a s).base32Decoder = s.base32Decoder := rfl
@[simp] theorem handOut_inputs : (handOut a s).inputs = s.inputs := rfl
@[simp] theorem handOut_params : (handOut a s).params = s.params := rfl
@[simp] theorem handOut_fresh : (handOut a s).fresh = s.fresh := rfl

@[simp] theorem resetBlock_params : (resetBlock s).params = s.params := rfl
@[simp] theorem resetBlock_inputs : (resetBlock s).inputs = s.inputs := rfl
@[simp] theorem resetBlock_answer : (resetBlock s).answer = s.answer := rfl
@[simp] theorem resetBlock_fresh : (resetBlock s).fresh = s.fresh := rfl

/-- The inputs are no part of a unit. -/
@[simp] theorem regsOf_inputs (xs : List Input) : State.regsOf { s with inputs := xs } u = s.regsOf u := by
  cases u <;> rfl

/-- Handing out a value leaves every unit's registers. -/
@[simp] theorem regsOf_handOut : (handOut a s).regsOf u = s.regsOf u := by cases u <;> rfl

/-- After a reset every unit has its reset registers. -/
@[simp] theorem regsOf_resetBlock : (resetBlock s).regsOf u = State.reset.regsOf u := by cases u <;> rfl

@[simp] theorem regsOf_hexEncoder : s.regsOf .hexEncoder = s.hexEncoder.regs := rfl
@[simp] theorem regsOf_hexDecoder : s.regsOf .hexDecoder = s.hexDecoder.regs := rfl
@[simp] theorem regsOf_base32Encoder : s.regsOf .base32Encoder = s.base32Encoder.regs := rfl
@[simp] theorem regsOf_base32Decoder : s.regsOf .base32Decoder = s.base32Decoder.regs := rfl

@[simp] theorem unitOf_toHex (n : LenWord) : unitOf (.toHex n) = .hexEncoder := by
  simp [unitOf, opcode, unitOfNumber]
@[simp] theorem unitOf_fromHex (n : LenWord) : unitOf (.fromHex n) = .hexDecoder := by
  simp [unitOf, opcode, unitOfNumber]
@[simp] theorem unitOf_isHex (n : LenWord) : unitOf (.isHex n) = .hexDecoder := by
  simp [unitOf, opcode, unitOfNumber]
@[simp] theorem unitOf_toBase32 (n : LenWord) : unitOf (.toBase32 n) = .base32Encoder := by
  simp [unitOf, opcode, unitOfNumber]
@[simp] theorem unitOf_fromBase32 (n : LenWord) : unitOf (.fromBase32 n) = .base32Decoder := by
  simp [unitOf, opcode, unitOfNumber]
@[simp] theorem unitOf_isBase32 (n : LenWord) : unitOf (.isBase32 n) = .base32Decoder := by
  simp [unitOf, opcode, unitOfNumber]

end States

end Sys2Proof.Machine
end

