-- ==== Sys2Proof/Laws/Ops.lean ====
section
/-! SUPPORT. One lemma for each shared operation that says once everything it can do. -/

namespace Sys2Proof.Machine

/-! ## Outcomes -/

@[simp] theorem andThen_next {α β : Type} (a : α) (f : α → Host.Outcome β Fault Refusal) :
    andThen (.next a) f = f a := rfl

@[simp] theorem andThen_fault {α β : Type} (e : Fault) (f : α → Host.Outcome β Fault Refusal) :
    andThen (.fault e) f = .fault e := rfl

@[simp] theorem andThen_refused {α β : Type} (r : Refusal) (f : α → Host.Outcome β Fault Refusal) :
    andThen (.refused r) f = .refused r := rfl

/-- Two operations in a row end in a next state exactly when both do. -/
theorem andThen_eq_next {α β : Type} {o : Host.Outcome α Fault Refusal} {f : α → Host.Outcome β Fault Refusal} {b : β} :
    andThen o f = .next b ↔ ∃ a, o = .next a ∧ f a = .next b := by
  cases o <;> simp

/-- Two operations in a row fault exactly when the first does, or the second after it. -/
theorem andThen_eq_fault {α β : Type} {o : Host.Outcome α Fault Refusal} {f : α → Host.Outcome β Fault Refusal}
    {e : Fault} : andThen o f = .fault e ↔ o = .fault e ∨ ∃ a, o = .next a ∧ f a = .fault e := by
  cases o <;> simp

/-! ## Acceptance -/

/-- Everything an encoder's acceptance can do to the registers. -/
theorem acceptEncode_cases (op : OpCode) (maxIn : Nat) (outLength : Nat → Nat) (len : LenWord) (r : Regs) :
    (maxIn < len.toNat ∧ acceptEncode op maxIn outLength len r = raise .outOfRange (load op len r)) ∨
    (len.toNat ≤ maxIn ∧ len = 0 ∧ acceptEncode op maxIn outLength len r = endAtOnce false (load op len r)) ∨
    (len.toNat ≤ maxIn ∧ len ≠ 0 ∧
      acceptEncode op maxIn outLength len r = start (outLength len.toNat) (load op len r)) := by
  unfold acceptEncode
  split
  · exact .inl ⟨‹_›, rfl⟩
  · split
    · exact .inr (.inl ⟨by omega, ‹_›, rfl⟩)
    · exact .inr (.inr ⟨by omega, ‹_›, rfl⟩)

/-- Everything a decoder's acceptance can do to the registers. -/
theorem acceptDecode_cases (op : OpCode) (lengthOk : Nat → Bool) (outLength : Nat → Nat) (len : LenWord) (r : Regs) :
    (lengthOk len.toNat = false ∧ op.getLsbD 0 = true ∧
      acceptDecode op lengthOk outLength len r = endAtOnce false (load op len r)) ∨
    (lengthOk len.toNat = false ∧ op.getLsbD 0 = false ∧
      acceptDecode op lengthOk outLength len r = raise .invalidLength (load op len r)) ∨
    (lengthOk len.toNat = true ∧ len = 0 ∧
      acceptDecode op lengthOk outLength len r = endAtOnce (op.getLsbD 0) (load op len r)) ∨
    (lengthOk len.toNat = true ∧ len ≠ 0 ∧
      acceptDecode op lengthOk outLength len r =
        start (if op.getLsbD 0 = true then 0 else outLength len.toNat) (load op len r)) := by
  unfold acceptDecode Regs.Validates
  simp only [load_op]
  by_cases hl : lengthOk len.toNat = false
  · by_cases hv : op.getLsbD 0 = true
    · exact .inl ⟨hl, hv, by simp only [hl, hv, ↓reduceIte]⟩
    · exact .inr (.inl ⟨hl, by simpa using hv, by simp only [hl, hv, ↓reduceIte, Bool.false_eq_true]⟩)
  · have hl' : lengthOk len.toNat = true := by simpa using hl
    by_cases h0 : len = 0
    · exact .inr (.inr (.inl ⟨hl', h0, by rw [if_neg hl, if_pos h0]⟩))
    · exact .inr (.inr (.inr ⟨hl', h0, by rw [if_neg hl, if_neg h0]; rfl⟩))

/-! ## Running a unit -/

variable {α : Type} {o : UnitOps α}

/-- A unit admits a command by going on with it unchanged, or refuses it for its source. -/
theorem requireSource_eq_next {u v : α} : o.requireSource u = .next v ↔ v = u ∧ ¬((o.regs u).Busy ∧ o.sourceReady u = false) := by
  unfold UnitOps.requireSource
  by_cases h : (o.regs u).Busy ∧ o.sourceReady u = false
  · rw [if_pos h]
    exact ⟨fun hn => (nomatch hn), fun hn => absurd h hn.2⟩
  · rw [if_neg h]
    exact ⟨fun hn => by { cases hn; exact ⟨rfl, h⟩ }, fun hn => by rw [hn.1]⟩

/-- What a turn can do: the unit's step while BUSY, nothing otherwise. -/
theorem takeTurn_eq_next {s t : State} (h : o.takeTurn s = .next t) :
    ((o.regs (o.get s)).Busy ∧ ∃ u, o.turn (o.get s) = .next u ∧ t = o.put u s) ∨
      (¬(o.regs (o.get s)).Busy ∧ t = s) := by
  unfold UnitOps.takeTurn at h
  split at h
  · obtain ⟨u, hu, ht⟩ := andThen_eq_next.mp h
    cases ht
    exact .inl ⟨‹_›, u, hu, rfl⟩
  · cases h
    exact .inr ⟨‹_›, rfl⟩

/-- What issuing a command can do: a turn of a BUSY unit, or the acceptance. -/
theorem issue_eq_next {accept : α → α} {s t : State} (h : o.issue accept s = .next t) :
    ((o.regs (o.get s)).Busy ∧ o.takeTurn s = .next t) ∨
      (¬(o.regs (o.get s)).Busy ∧ ∃ u, o.requireSource (accept (o.get s)) = .next u ∧ t = o.put u s) := by
  unfold UnitOps.issue at h
  split at h
  · exact .inl ⟨‹_›, h⟩
  · obtain ⟨u, hu, ht⟩ := andThen_eq_next.mp h
    cases ht
    exact .inr ⟨‹_›, u, hu, rfl⟩

/-- What a whole command can do: a turn of a BUSY unit, or the acceptance and then the unit's steps. -/
theorem call_eq_next {fuel : Nat} {accept : α → α} {s t : State} (h : o.call fuel accept s = .next t) :
    ((o.regs (o.get s)).Busy ∧ o.takeTurn s = .next t) ∨
      (¬(o.regs (o.get s)).Busy ∧
        ∃ u, o.requireSource (accept (o.get s)) = .next u ∧ ∃ v, runToDone o fuel u = .next v ∧ t = o.put v s) := by
  unfold UnitOps.call at h
  split at h
  · exact .inl ⟨‹_›, h⟩
  · obtain ⟨v, hv, ht⟩ := andThen_eq_next.mp h
    obtain ⟨u, hu, hr⟩ := andThen_eq_next.mp hv
    cases ht
    exact .inr ⟨‹_›, u, hu, v, hr, rfl⟩

/-- A command offered to a unit that is not BUSY and whose acceptance it admits is the run from that acceptance. -/
theorem call_of_requireSource {fuel : Nat} {accept : α → α} {s : State} {u : α} (hb : ¬(o.regs (o.get s)).Busy)
    (ha : o.requireSource (accept (o.get s)) = .next u) :
    o.call fuel accept s = andThen (runToDone o fuel u) fun v => .next (o.put v s) := by
  unfold UnitOps.call
  rw [if_neg hb, ha, andThen_next]

/-- A unit that is not BUSY runs no further. -/
theorem runToDone_of_not_busy {n : Nat} {u : α} (h : ¬(o.regs u).Busy) : runToDone o n u = .next u := by
  cases n <;> simp [runToDone, h]

/-- What every step of a unit keeps, its run keeps. -/
theorem runToDone_induction {P : α → Prop} (hstep : ∀ u v, P u → (o.regs u).Busy → o.turn u = .next v → P v) {n : Nat}
    {u v : α} (hu : P u) (h : runToDone o n u = .next v) : P v := by
  induction n generalizing u with
  | zero => simp only [runToDone] at h; cases h; exact hu
  | succ n ih =>
    simp only [runToDone] at h
    split at h
    · obtain ⟨w, hw, hr⟩ := andThen_eq_next.mp h
      exact ih (hstep u w hu ‹_› hw) hr
    · cases h; exact hu

/-- If a measure falls at every step of a BUSY unit and every step goes on, enough fuel runs the unit to its end, and
any two amounts that are enough give the same. -/
theorem runToDone_terminates {P : α → Prop} (m : α → Nat)
    (hstep : ∀ u, P u → (o.regs u).Busy → ∃ v, o.turn u = .next v ∧ P v ∧ m v < m u) {n : Nat} {u : α} (hu : P u)
    (hn : m u ≤ n) : ∃ v, runToDone o n u = .next v ∧ P v ∧ ¬(o.regs v).Busy := by
  induction n generalizing u with
  | zero =>
    refine ⟨u, rfl, hu, fun hb => ?_⟩
    obtain ⟨v, -, -, hlt⟩ := hstep u hu hb
    omega
  | succ n ih =>
    by_cases hb : (o.regs u).Busy
    · obtain ⟨v, hv, hpv, hlt⟩ := hstep u hu hb
      obtain ⟨x, hx, hpx, hbx⟩ := ih hpv (by omega)
      exact ⟨x, by simp [runToDone, hb, hv, hx], hpx, hbx⟩
    · exact ⟨u, runToDone_of_not_busy hb, hu, hb⟩

end Sys2Proof.Machine
end

