-- ==== Sys2Proof/Laws/PerInstr.lean ====
section
/-! SUPPORT. A statement for all commands, made command by command: the two fields of a command's word are the fields
the opcode table gives it (30_encoding.md R110, R111). -/

namespace Sys2Proof.Laws

/-- The operation field of the word a code and a length make. -/
theorem opField_append (op : OpCode) (len : LenWord) : opField (op ++ len) = op := by
  unfold opField
  ext i hi
  simp only [BitVec.getElem_extractLsb', BitVec.getLsbD_append]
  have h : ¬(32 + i < 32) := by omega
  simp [h, BitVec.getElem_eq_testBit_toNat, BitVec.getLsbD]

/-- The length field of the word a code and a length make. -/
theorem lenField_append (op : OpCode) (len : LenWord) : lenField (op ++ len) = len := by
  unfold lenField
  ext i hi
  simp only [BitVec.getElem_extractLsb', BitVec.getLsbD_append]
  simp [hi, BitVec.getLsbD_eq_getElem]

namespace CommandFields

/-- The word of `i` is well formed, its `op` is the code of `i` and its `len` the length of `i`. -/
def Statement (i : Instr) : Prop :=
  commandWordWellFormed (encode i) = true ∧ opField (encode i) = opcode i ∧ lenField (encode i) = i.len

/-- A word made of an assigned code and a length has those fields. -/
theorem of_assigned {i : Instr} (h : opAssigned (opcode i) = true) : Statement i := by
  have ho := opField_append (opcode i) i.len
  refine ⟨?_, ho, lenField_append (opcode i) i.len⟩
  have : commandWordWellFormed (encode i) = opAssigned (opField (encode i)) := rfl
  rw [this]
  exact ho ▸ h

theorem toHex (len : LenWord) : Statement (.toHex len) := of_assigned rfl
theorem fromHex (len : LenWord) : Statement (.fromHex len) := of_assigned rfl
theorem isHex (len : LenWord) : Statement (.isHex len) := of_assigned rfl
theorem toBase32 (len : LenWord) : Statement (.toBase32 len) := of_assigned rfl
theorem fromBase32 (len : LenWord) : Statement (.fromBase32 len) := of_assigned rfl
theorem isBase32 (len : LenWord) : Statement (.isBase32 len) := of_assigned rfl

end CommandFields

end Sys2Proof.Laws
end

