-- ==== Sys2Proof/Laws/Units.lean ====
section
/-! SUPPORT. What a step of each unit can do, said once: the cases of 44_command_protocol.md R206. -/

namespace Sys2Proof.Machine

/-! ## The units for the shared operations -/

@[simp] theorem hexEncoderOps_get (s : State) : hexEncoderOps.get s = s.hexEncoder := rfl
@[simp] theorem hexEncoderOps_put (u : HexEncoder) (s : State) : hexEncoderOps.put u s = { s with hexEncoder := u } := rfl
@[simp] theorem hexEncoderOps_regs (u : HexEncoder) : hexEncoderOps.regs u = u.regs := rfl
@[simp] theorem hexEncoderOps_turn (u : HexEncoder) : hexEncoderOps.turn u = hexEncoderTurn u := rfl
@[simp] theorem hexEncoderOps_id : hexEncoderOps.id = .hexEncoder := rfl
@[simp] theorem hexEncoderOps_sourceReady (u : HexEncoder) :
    hexEncoderOps.sourceReady u = u.src.allWritten u.regs.len.toNat := rfl

@[simp] theorem hexDecoderOps_get (s : State) : hexDecoderOps.get s = s.hexDecoder := rfl
@[simp] theorem hexDecoderOps_put (u : HexDecoder) (s : State) : hexDecoderOps.put u s = { s with hexDecoder := u } := rfl
@[simp] theorem hexDecoderOps_regs (u : HexDecoder) : hexDecoderOps.regs u = u.regs := rfl
@[simp] theorem hexDecoderOps_turn (u : HexDecoder) : hexDecoderOps.turn u = hexDecoderTurn u := rfl
@[simp] theorem hexDecoderOps_id : hexDecoderOps.id = .hexDecoder := rfl
@[simp] theorem hexDecoderOps_sourceReady (u : HexDecoder) :
    hexDecoderOps.sourceReady u = u.src.allWritten u.regs.len.toNat := rfl

@[simp] theorem base32EncoderOps_get (s : State) : base32EncoderOps.get s = s.base32Encoder := rfl
@[simp] theorem base32EncoderOps_put (u : Base32Encoder) (s : State) :
    base32EncoderOps.put u s = { s with base32Encoder := u } := rfl
@[simp] theorem base32EncoderOps_regs (u : Base32Encoder) : base32EncoderOps.regs u = u.regs := rfl
@[simp] theorem base32EncoderOps_turn (u : Base32Encoder) : base32EncoderOps.turn u = base32EncoderTurn u := rfl
@[simp] theorem base32EncoderOps_id : base32EncoderOps.id = .base32Encoder := rfl
@[simp] theorem base32EncoderOps_sourceReady (u : Base32Encoder) :
    base32EncoderOps.sourceReady u = u.src.allWritten u.regs.len.toNat := rfl

@[simp] theorem base32DecoderOps_get (s : State) : base32DecoderOps.get s = s.base32Decoder := rfl
@[simp] theorem base32DecoderOps_put (u : Base32Decoder) (s : State) :
    base32DecoderOps.put u s = { s with base32Decoder := u } := rfl
@[simp] theorem base32DecoderOps_regs (u : Base32Decoder) : base32DecoderOps.regs u = u.regs := rfl
@[simp] theorem base32DecoderOps_turn (u : Base32Decoder) : base32DecoderOps.turn u = base32DecoderTurn u := rfl
@[simp] theorem base32DecoderOps_id : base32DecoderOps.id = .base32Decoder := rfl
@[simp] theorem base32DecoderOps_sourceReady (u : Base32Decoder) :
    base32DecoderOps.sourceReady u = u.src.allWritten u.regs.len.toNat := rfl

/-! ## hex_encoder -/

/-- A step of hex_encoder that goes on encodes one byte or completes (R133, R134). -/
theorem hexEncoderTurn_cases {u v : HexEncoder} (h : hexEncoderTurn u = .next v) :
    (∃ b, u.regs.idx < u.regs.len ∧ u.src.read u.regs.idx.toNat = some b ∧ v = hexEncodeByte b u) ∨
    (u.regs.idx = u.regs.len ∧ v = { u with regs := complete u.regs }) := by
  unfold hexEncoderTurn at h
  split at h
  · split at h
    · cases h; exact .inl ⟨_, ‹_›, ‹_›, rfl⟩
    · cases h
  · split at h
    · cases h; exact .inr ⟨‹_›, rfl⟩
    · cases h

/-! ## hex_decoder -/

/-- A step of hex_decoder that goes on checks a character, ends the scan, decodes a pair or completes (R146 to
R149). -/
theorem hexDecoderTurn_cases {u v : HexDecoder} (h : hexDecoderTurn u = .next v) :
    (∃ c, u.phase = .scan ∧ u.regs.idx < u.regs.len ∧ u.src.read u.regs.idx.toNat = some c ∧
      v = { u with regs := scanOne (hexval c).isSome u.regs }) ∨
    (u.phase = .scan ∧ u.regs.idx = u.regs.len ∧
      v = { u with regs := (scanEnd u.regs).1, phase := (scanEnd u.regs).2 }) ∨
    (∃ c₁ c₂ hi lo, u.phase = .emit ∧ u.regs.idx < u.regs.len ∧ u.src.read u.regs.idx.toNat = some c₁ ∧
      u.src.read (u.regs.idx + 1).toNat = some c₂ ∧ hexval c₁ = some hi ∧ hexval c₂ = some lo ∧
      v = hexDecodePair hi lo u) ∨
    (u.phase = .emit ∧ u.regs.idx = u.regs.len ∧ v = { u with regs := complete u.regs }) := by
  unfold hexDecoderTurn at h
  split at h
  · unfold hexDecoderScan at h
    split at h
    · split at h
      · cases h; exact .inl ⟨_, ‹_›, ‹_›, ‹_›, rfl⟩
      · cases h
    · split at h
      · cases h; exact .inr (.inl ⟨‹_›, ‹_›, rfl⟩)
      · cases h
  · unfold hexDecoderEmit at h
    split at h
    · split at h
      · split at h
        · cases h; exact .inr (.inr (.inl ⟨_, _, _, _, ‹_›, ‹_›, ‹_›, ‹_›, ‹_›, ‹_›, rfl⟩))
        · cases h
      · cases h
    · split at h
      · cases h; exact .inr (.inr (.inr ⟨‹_›, ‹_›, rfl⟩))
      · cases h

/-! ## base32_encoder -/

/-- A step of base32_encoder that goes on completes, or gives out one character after taking a byte in, after filling
with zero bits, or from the bits held (R164, R165). -/
theorem base32EncoderTurn_cases {u v : Base32Encoder} (h : base32EncoderTurn u = .next v) :
    (u.bits = 0 ∧ u.regs.idx = u.regs.len ∧ v = { u with regs := complete u.regs }) ∨
    (∃ b, u.bits.toNat < 5 ∧ u.regs.idx < u.regs.len ∧ u.src.read u.regs.idx.toNat = some b ∧
      v = base32EmitSymbol ((u.buf.toNat <<< 8) ||| b.toNat) (u.bits.toNat + 8) (u.regs.idx + 1) u) ∨
    (¬(u.bits = 0 ∧ u.regs.idx = u.regs.len) ∧ u.bits.toNat < 5 ∧ ¬u.regs.idx < u.regs.len ∧
      v = base32EmitSymbol (u.buf.toNat <<< (5 - u.bits.toNat)) 5 u.regs.idx u) ∨
    (5 ≤ u.bits.toNat ∧ v = base32EmitSymbol u.buf.toNat u.bits.toNat u.regs.idx u) := by
  unfold base32EncoderTurn base32EncodeStep at h
  split at h
  · cases h; exact .inl ⟨(‹_ ∧ _›).1, (‹_ ∧ _›).2, rfl⟩
  · split at h
    · split at h
      · split at h
        · cases h; exact .inr (.inl ⟨_, ‹_›, ‹_›, ‹_›, rfl⟩)
        · cases h
      · cases h; exact .inr (.inr (.inl ⟨‹_›, ‹_›, ‹_›, rfl⟩))
    · cases h; exact .inr (.inr (.inr ⟨by omega, rfl⟩))

/-! ## base32_decoder -/

/-- A step of base32_decoder that goes on checks a character, ends the scan, takes a character in or completes (R186 to
R190). -/
theorem base32DecoderTurn_cases {u v : Base32Decoder} (h : base32DecoderTurn u = .next v) :
    (∃ c, u.phase = .scan ∧ u.regs.idx < u.regs.len ∧ u.src.read u.regs.idx.toNat = some c ∧
      v = { u with regs := scanOne (b32val c).isSome u.regs }) ∨
    (u.phase = .scan ∧ u.regs.idx = u.regs.len ∧
      v = { u with regs := (scanEnd u.regs).1, phase := (scanEnd u.regs).2 }) ∨
    (∃ c x, u.phase = .emit ∧ u.regs.idx < u.regs.len ∧ u.src.read u.regs.idx.toNat = some c ∧
      b32val c = some x ∧ v = base32TakeSymbol x u) ∨
    (u.phase = .emit ∧ u.regs.idx = u.regs.len ∧ v = { u with regs := complete u.regs }) := by
  unfold base32DecoderTurn at h
  split at h
  · unfold base32DecoderScan at h
    split at h
    · split at h
      · cases h; exact .inl ⟨_, ‹_›, ‹_›, ‹_›, rfl⟩
      · cases h
    · split at h
      · cases h; exact .inr (.inl ⟨‹_›, ‹_›, rfl⟩)
      · cases h
  · unfold base32DecoderEmit at h
    split at h
    · split at h
      · split at h
        · cases h; exact .inr (.inr (.inl ⟨_, _, ‹_›, ‹_›, ‹_›, ‹_›, rfl⟩))
        · cases h
      · cases h
    · split at h
      · cases h; exact .inr (.inr (.inr ⟨‹_›, ‹_›, rfl⟩))
      · cases h

/-! ## What the SCAN pass does to the registers -/

/-- One character checked: the index moves on, a validation answers false, or a decode ends with InvalidCharacter. -/
theorem scanOne_cases (valid : Bool) (r : Regs) :
    (valid = true ∧ scanOne valid r = { r with idx := r.idx + 1 }) ∨
    (valid = false ∧ r.Validates ∧ scanOne valid r = complete (setResult false r)) ∨
    (valid = false ∧ ¬r.Validates ∧ scanOne valid r = raise .invalidCharacter r) := by
  unfold scanOne
  cases valid
  · by_cases h : r.Validates
    · exact .inr (.inl ⟨rfl, h, if_pos h⟩)
    · exact .inr (.inr ⟨rfl, h, if_neg h⟩)
  · exact .inl ⟨rfl, rfl⟩

/-- The scan ended: a validation answers true, a decode starts to write. -/
theorem scanEnd_cases (r : Regs) :
    (r.Validates ∧ scanEnd r = (complete (setResult true r), .scan)) ∨
    (¬r.Validates ∧ scanEnd r = ({ r with idx := 0 }, .emit)) := by
  unfold scanEnd
  by_cases h : r.Validates
  · exact .inl ⟨h, if_pos h⟩
  · exact .inr ⟨h, if_neg h⟩

end Sys2Proof.Machine
end

