-- ==== Sys2Proof/Laws/Step.lean ====
section
/-! SUPPORT. What a step of the machine can do, by its next input. -/

namespace Sys2Proof.Machine

/-- A step with an input waiting runs that input. -/
theorem step_of_inputs {s : State} {x : Input} {rest : List Input} (h : s.inputs = x :: rest) :
    step s = runInput x rest s := by
  simp only [step, h]

/-- A step with no input waiting is a step of a BUSY unit, or nothing. -/
theorem step_of_no_inputs {s : State} (h : s.inputs = []) : step s = quietStep s := by simp only [step, h]

/-- The unit that goes on in a quiet step is BUSY. -/
theorem firstBusy_busy {s : State} {u : UnitId} (h : firstBusy s = some u) : (s.regsOf u).Busy := by
  simpa using List.find?_some h

/-- A quiet step leaves a block with no BUSY unit as it is. -/
theorem quietStep_of_none_busy {s : State} (h : ∀ u, ¬(s.regsOf u).Busy) : quietStep s = .next s := by
  have : firstBusy s = none := List.find?_eq_none.mpr fun u _ => by simpa using h u
  simp only [quietStep, this]

/-- A turn of a unit that is not BUSY changes nothing (44_command_protocol.md R206). -/
theorem takeTurnOf_of_not_busy {s : State} {u : UnitId} (h : ¬(s.regsOf u).Busy) : takeTurnOf u s = .next s := by
  cases u <;> exact if_neg h

/-- An offered word either is refused for its reserved code or is run as its command. -/
theorem offer_cases (w : CommandWord) (run : Instr → State → Host.Outcome State Fault Refusal) (rest : List Input)
    (s : State) :
    (∃ op, decode w = .error (.reservedCode op) ∧ offer w run rest s = .refused (.reservedCode op)) ∨
    (∃ i, decode w = .ok i ∧
      offer w run rest s = run i (if (s.regsOf (unitOf i)).Busy then s else { s with inputs := rest })) := by
  unfold offer
  cases h : decode w with
  | error e => cases e with | reservedCode op => exact .inl ⟨op, rfl, rfl⟩
  | ok i => exact .inr ⟨i, rfl, rfl⟩

/-- Everything a step that goes on can be. -/
theorem step_next_cases {s t : State} (h : step s = .next t) :
    (s.inputs = [] ∧ quietStep s = .next t) ∨
    (∃ w rest i, s.inputs = .call w :: rest ∧ decode w = .ok i ∧
      exec i (if (s.regsOf (unitOf i)).Busy then s else { s with inputs := rest }) = .next t) ∨
    (∃ w rest i, s.inputs = .issue w :: rest ∧ decode w = .ok i ∧
      issueInstr i (if (s.regsOf (unitOf i)).Busy then s else { s with inputs := rest }) = .next t) ∨
    (∃ u rest, s.inputs = .turn u :: rest ∧ takeTurnOf u { s with inputs := rest } = .next t) ∨
    (∃ u i v rest, s.inputs = .writeSrc u i v :: rest ∧ hostWriteSrc u i v { s with inputs := rest } = .next t) ∨
    (∃ u i rest, s.inputs = .readDst u i :: rest ∧ hostReadDst u i { s with inputs := rest } = .next t) ∨
    (∃ x rest a, s.inputs = x :: rest ∧ t = handOut a { s with inputs := rest }) ∨
    (∃ rest, s.inputs = .reset :: rest ∧ t = resetBlock { s with inputs := rest }) := by
  cases hi : s.inputs with
  | nil => exact .inl ⟨rfl, by simpa only [step_of_no_inputs hi] using h⟩
  | cons x rest =>
    rw [step_of_inputs hi] at h
    cases x with
    | call w =>
      rcases offer_cases w exec rest s with ⟨op, -, ho⟩ | ⟨i, hd, ho⟩
      · simp only [runInput, ho] at h; cases h
      · simp only [runInput, ho] at h; exact .inr (.inl ⟨w, rest, i, rfl, hd, h⟩)
    | issue w =>
      rcases offer_cases w issueInstr rest s with ⟨op, -, ho⟩ | ⟨i, hd, ho⟩
      · simp only [runInput, ho] at h; cases h
      · simp only [runInput, ho] at h; exact .inr (.inr (.inl ⟨w, rest, i, rfl, hd, h⟩))
    | turn u => exact .inr (.inr (.inr (.inl ⟨u, rest, rfl, h⟩)))
    | writeSrc u i v => exact .inr (.inr (.inr (.inr (.inl ⟨u, i, v, rest, rfl, h⟩))))
    | readDst u i => exact .inr (.inr (.inr (.inr (.inr (.inl ⟨u, i, rest, rfl, h⟩)))))
    | readOp u => cases h; exact .inr (.inr (.inr (.inr (.inr (.inr (.inl ⟨_, rest, _, rfl, rfl⟩))))))
    | readLen u => cases h; exact .inr (.inr (.inr (.inr (.inr (.inr (.inl ⟨_, rest, _, rfl, rfl⟩))))))
    | readOutlen u => cases h; exact .inr (.inr (.inr (.inr (.inr (.inr (.inl ⟨_, rest, _, rfl, rfl⟩))))))
    | readStatus u => cases h; exact .inr (.inr (.inr (.inr (.inr (.inr (.inl ⟨_, rest, _, rfl, rfl⟩))))))
    | reset => cases h; exact .inr (.inr (.inr (.inr (.inr (.inr (.inr ⟨rest, rfl, rfl⟩))))))

end Sys2Proof.Machine
end

