-- ==== Sys2Proof/Tests/Slice0.lean ====
section
/-! SUPPORT. The model's own tests, with expected results from 95_test_vectors.md and the rules, and for every statement
with hypotheses a named witness that meets them. -/

namespace Sys2Proof.Tests

open Sys2Proof Sys2Proof.Machine

/-! ## Ill-formed words are refused by the check (30_encoding.md R112; T256, T257) -/

theorem test_wellFormed_refuses_code_001 : commandWordWellFormed 0x100000010#35 = false := by decide
theorem test_wellFormed_refuses_code_101 : commandWordWellFormed 0x500000010#35 = false := by decide
theorem test_opAssigned_refuses : opAssigned 0b001#3 = false ∧ opAssigned 0b101#3 = false := by decide
theorem test_wellFormed_takes_toHex : commandWordWellFormed 0x000000010#35 = true := by decide

/-! ## Decoding: words written out from the encoding of R110, `op` in bits 34 to 32, `len` in bits 31 to 0 -/

theorem test_decode_toHex :
    decode (0b000#3 ++ 0b00000000000000000000000000010000#32) = .ok (.toHex 16) := by decide
theorem test_decode_fromHex :
    decode (0b010#3 ++ 0b00000000000000000000000000100000#32) = .ok (.fromHex 32) := by decide
theorem test_decode_isHex :
    decode (0b011#3 ++ 0b00000000000000000000000000100000#32) = .ok (.isHex 32) := by decide
theorem test_decode_toBase32 :
    decode (0b100#3 ++ 0b00000000000000000000000000010000#32) = .ok (.toBase32 16) := by decide
theorem test_decode_fromBase32 :
    decode (0b110#3 ++ 0b00000000000000000000000000011010#32) = .ok (.fromBase32 26) := by decide
theorem test_decode_isBase32 :
    decode (0b111#3 ++ 0b11111111111111111111111111111111#32) = .ok (.isBase32 4294967295) := by decide

/-- T256: a reserved code is rejected by name; and a number wider than the command port is no word. -/
theorem test_decodeTableWord_rejects :
    decodeTableWord 40 0x100000010 = none ∧ decodeTableWord 40 0x8000000000 = none ∧
    decodeTableWord 40 0x60000001A = some (.fromBase32 26) := by decide

/-! ## A small state -/

/-- The elements of a list at the indices 0, 1, .. -/
def atZero {α : Type} (xs : List α) : Buffer α := (List.range xs.length).zip xs

/-- After reset, with a source in every unit: the bytes `0x66 0x6F` ("fo") for the encoders, the given characters for
the decoders, and one marker byte or character in every DST at index 9. -/
def loaded (hexText b32Text : List Chr) : State :=
  { State.reset with
    hexEncoder := { State.reset.hexEncoder with src := atZero [0x66, 0x6F], dst := [(9, 0x2A)] }
    hexDecoder := { State.reset.hexDecoder with src := atZero hexText, dst := [(9, 0xEE)] }
    base32Encoder := { State.reset.base32Encoder with src := atZero [0x66, 0x6F], dst := [(9, 0x2A)] }
    base32Decoder := { State.reset.base32Decoder with src := atZero b32Text, dst := [(9, 0xEE)] } }

/-- The decoders hold `"dE"` and `"zz"`. -/
def good : State := loaded [0x64, 0x45] [0x7A, 0x7A]

/-- The decoders hold `"0g"` (T35) and `"1l"` (T133). -/
def bad : State := loaded [0x30, 0x67] [0x31, 0x6C]

/-- A block with other parameters: characters of 16 bits, at most 3 bytes to TOHEX and 2 to TOBASE32; the decoders hold
the codes 0x0130 and 0x0161, which are `0` and `a` in their low eight bits only. -/
def wide : State :=
  { loaded [0x0130, 0x0161] [0x0130, 0x0161] with params := { charW := 16, hexMaxIn := 3, b32MaxIn := 2 } }

/-- The result of an outcome that goes on. -/
def resultOf (o : Host.Outcome State Fault Refusal) : Option State :=
  match o with
  | .next t => some t
  | .fault _ | .refused _ => none

/-- An outcome that has a result goes on with it. -/
theorem goes_on {o : Host.Outcome State Fault Refusal} (h : (resultOf o).isSome = true) : ∃ t, o = .next t := by
  cases o with
  | next t => exact ⟨t, rfl⟩
  | fault e => cases h
  | refused r => cases h

/-! ## One command each, run as the host offers it (`withFetchWord` and one step) -/

/-- `"fo"` is `"666f"` (P2's bytes; the characters by R94), OUTLEN 4, and the marker beyond it stays. -/
theorem test_toHex :
    (resultOf (step (good.withFetchWord 40 0x000000002))).map
      (fun t => (t.hexEncoder.dst, t.hexEncoder.regs.outlen, t.hexEncoder.regs.status.word)) =
    some ([(0, 0x36), (1, 0x36), (2, 0x36), (3, 0x66), (9, 0x2A)], 4, 0b00010#5) := by decide

/-- R204, R231: one byte too many is OutOfRange at acceptance. -/
theorem test_toHex_outOfRange :
    (resultOf (exec (.toHex 1073741824) good)).map (fun t => (t.hexEncoder.dst, t.hexEncoder.regs.status.err)) =
    some ([(9, 0x2A)], .outOfRange) := by decide

/-- Case is ignored (R151): `"dE"` is 0xDE. -/
theorem test_fromHex :
    (resultOf (step (good.withFetchWord 40 0x200000002))).map
      (fun t => (t.hexDecoder.dst, t.hexDecoder.regs.outlen, t.hexDecoder.regs.status.word)) =
    some ([(0, 0xDE), (9, 0xEE)], 1, 0b00010#5) := by decide

/-- T35: `"0g"` is InvalidCharacter, DST untouched. -/
theorem test_fromHex_invalidCharacter :
    (resultOf (exec (.fromHex 2) bad)).map
      (fun t => (t.hexDecoder.dst, t.hexDecoder.regs.outlen, t.hexDecoder.regs.status.word)) =
    some ([(9, 0xEE)], 0, 0b01110#5) := by decide

/-- ISHEX of `"dE"` answers 1: STATUS `1 00 10`. -/
theorem test_isHex_true :
    (resultOf (exec (.isHex 2) good)).map (fun t => (t.hexDecoder.dst, t.hexDecoder.regs.status.word)) =
    some ([(9, 0xEE)], 0b10010#5) := by decide

/-- ISHEX of `"0g"` answers 0 with no error (T35). -/
theorem test_isHex_false :
    (resultOf (exec (.isHex 2) bad)).map (fun t => (t.hexDecoder.regs.op, t.hexDecoder.regs.status.word)) =
    some (0b011#3, 0b00010#5) := by decide

/-- P2: `"fo"` is `"csqg"`. -/
theorem test_toBase32 :
    (resultOf (step (good.withFetchWord 40 0x400000002))).map
      (fun t => (t.base32Encoder.dst, t.base32Encoder.regs.outlen, t.base32Encoder.regs.status.word)) =
    some ([(0, 0x63), (1, 0x73), (2, 0x71), (3, 0x67), (9, 0x2A)], 4, 0b00010#5) := by decide

/-- Acceptance clears the accumulator; the third character of `"fo"` takes nothing in (P2, step 3). -/
theorem test_toBase32_step :
    (resultOf (takeTurnOf .base32Encoder
      { good with base32Encoder := { good.base32Encoder with
          regs := ⟨0b100#3, 2, 4, ⟨.busy, .none, false⟩, 2, 2⟩, buf := 0b101111, bits := 6 } })).map
      (fun t => (t.base32Encoder.dst, t.base32Encoder.buf, t.base32Encoder.bits, t.base32Encoder.regs.odx)) =
    some ([(2, 0x71), (9, 0x2A)], 1, 1, 3) := by decide

/-- The left-over bits of `"zz"` are dropped (R191): 0xFF. -/
theorem test_fromBase32 :
    (resultOf (step (good.withFetchWord 40 0x600000002))).map
      (fun t => (t.base32Decoder.dst, t.base32Decoder.regs.outlen, t.base32Decoder.regs.status.word)) =
    some ([(0, 0xFF), (9, 0xEE)], 1, 0b00010#5) := by decide

/-- T133: the letter l is not folded to 1. -/
theorem test_fromBase32_invalidCharacter :
    (resultOf (exec (.fromBase32 2) bad)).map
      (fun t => (t.base32Decoder.dst, t.base32Decoder.regs.outlen, t.base32Decoder.regs.status.word)) =
    some ([(9, 0xEE)], 0, 0b01110#5) := by decide

/-- ISBASE32 of `"zz"` answers 1. -/
theorem test_isBase32_true :
    (resultOf (exec (.isBase32 2) good)).map (fun t => (t.base32Decoder.dst, t.base32Decoder.regs.status.word)) =
    some ([(9, 0xEE)], 0b10010#5) := by decide

/-- ISBASE32 of a text of length 1 answers 0 with no error (R239, T127). -/
theorem test_isBase32_badLength :
    (resultOf (exec (.isBase32 1) good)).map (fun t => t.base32Decoder.regs.status.word) = some 0b00010#5 := by decide

/-- The block with other parameters is sound too. -/
theorem wide_inv : wide.Inv := by
  constructor <;> first | decide | (constructor <;> first | decide | (constructor <;> decide))

/-! ## Other parameters (00_scope.md R9, R10, R12) -/

/-- Bounds of 3 and 2 bytes: the lengths one above are OutOfRange, the lengths at the bounds are not. -/
theorem test_bounds_are_parameters :
    (resultOf (exec (.toHex 4) wide)).map (fun t => t.hexEncoder.regs.status.err) = some .outOfRange ∧
    (acceptToHex wide.params 3 wide.hexEncoder).regs.status.state = .busy ∧
    (resultOf (exec (.toBase32 3) wide)).map (fun t => t.base32Encoder.regs.status.err) = some .outOfRange ∧
    (resultOf (exec (.toBase32 2) wide)).map (fun t => t.base32Encoder.regs.status.err) = some .none := by decide

/-- A code of 128 or more is invalid at every width (R12): 0x0130 is not `0`. -/
theorem test_wide_characters :
    (resultOf (exec (.fromHex 2) wide)).map (fun t => t.hexDecoder.regs.status.err) = some .invalidCharacter ∧
    (resultOf (exec (.isBase32 2) wide)).map (fun t => t.base32Decoder.regs.status.result) = some false ∧
    (resultOf (hostWriteSrc .base32Decoder 0 0xFFFF wide)).map (fun t => t.base32Decoder.src.read 0) =
      some (some 0xFFFF) ∧
    (resultOf (hostWriteSrc .base32Decoder 0 0x10000 wide)).isNone := by decide

/-- The codes of R26, R27 and R29 for BUSY, OutOfRange and InvalidLength. -/
theorem test_status_codes :
    Status.word ⟨.busy, .none, false⟩ = 0b00001#5 ∧ Status.word ⟨.done, .outOfRange, false⟩ = 0b00110#5 ∧
    Status.word ⟨.done, .invalidLength, false⟩ = 0b01010#5 ∧ Status.word ⟨.idle, .none, false⟩ = 0b00000#5 := by decide

/-! ## The host -/

/-- A value that fits lands in SRC, one that does not is refused (R263). -/
theorem test_hostWriteSrc :
    (resultOf (hostWriteSrc .hexDecoder 1 0xFF good)).map (fun t => t.hexDecoder.src) = some [(0, 0x64), (1, 0xFF)] ∧
    (resultOf (hostWriteSrc .hexDecoder 1 0x100 good)).isNone := by decide

/-- Reset drops what a command that was cut off may have written, and no other DST element (R261, U7). -/
theorem test_reset_cuts_off :
    (resetBlock { good with hexDecoder := { good.hexDecoder with
        regs := ⟨0b010#3, 4, 2, ⟨.busy, .none, false⟩, 2, 1⟩, phase := .emit,
        dst := [(0, 0xDE), (1, 0x11), (2, 0x22)] } }).hexDecoder.dst = [(2, 0x22)] ∧
    (resetBlock good).base32Decoder.dst = [(9, 0xEE)] := by decide

/-! ## Witnesses: for every statement with hypotheses, a state and operands that meet them

A decoded word, an offered word and a running unit, used below. -/

/-- hex_encoder two bytes long, one byte done (P1's shape). -/
def hexEncoderRunning : HexEncoder :=
  { regs := ⟨0b000#3, 2, 4, ⟨.busy, .none, false⟩, 1, 2⟩, src := atZero [0x66, 0x6F], dst := atZero [0x36, 0x36] }

/-- hex_decoder checking `"dE"`, one character done. -/
def hexDecoderScanning : HexDecoder :=
  { regs := ⟨0b010#3, 2, 1, ⟨.busy, .none, false⟩, 1, 0⟩, phase := .scan, src := atZero [0x64, 0x45], dst := [] }

/-- hex_decoder writing, all of it ahead. -/
def hexDecoderEmitting : HexDecoder :=
  { regs := ⟨0b010#3, 2, 1, ⟨.busy, .none, false⟩, 0, 0⟩, phase := .emit, src := atZero [0x64, 0x45], dst := [] }

/-- base32_encoder after step 2 of P2: six bits held, all input taken in. -/
def base32EncoderRunning : Base32Encoder :=
  { regs := ⟨0b100#3, 2, 4, ⟨.busy, .none, false⟩, 2, 2⟩, buf := 0b101111, bits := 6,
    src := atZero [0x66, 0x6F], dst := atZero [0x63, 0x73] }

/-- base32_decoder after step 8 of P2: seven bits held. -/
def base32DecoderEmitting : Base32Decoder :=
  { regs := ⟨0b110#3, 4, 2, ⟨.busy, .none, false⟩, 3, 1⟩, phase := .emit, buf := 0b0110111, bits := 7,
    src := atZero [0x63, 0x73, 0x71, 0x67], dst := atZero [0x66] }

/-- base32_decoder checking the same text, two characters done. -/
def base32DecoderScanning : Base32Decoder :=
  { regs := ⟨0b110#3, 4, 2, ⟨.busy, .none, false⟩, 2, 0⟩, phase := .scan, buf := 0, bits := 0,
    src := atZero [0x63, 0x73, 0x71, 0x67], dst := [] }

/-- All four units in the middle of a command. -/
def running : State :=
  { State.reset with
    hexEncoder := hexEncoderRunning
    hexDecoder := hexDecoderScanning
    base32Encoder := base32EncoderRunning
    base32Decoder := base32DecoderEmitting }

/-- The same, each decoder in its other pass. -/
def runningOther : State :=
  { running with hexDecoder := hexDecoderEmitting, base32Decoder := base32DecoderScanning }

theorem hexEncoderRunning_inv : hexEncoderRunning.Inv .defaults := by
  constructor <;> first | decide | (constructor <;> decide)
theorem hexDecoderScanning_inv : hexDecoderScanning.Inv .defaults := by
  constructor <;> first | decide | (constructor <;> decide)
theorem hexDecoderEmitting_inv : hexDecoderEmitting.Inv .defaults := by
  constructor <;> first | decide | (constructor <;> decide)
theorem base32EncoderRunning_inv : base32EncoderRunning.Inv .defaults := by
  constructor <;> first | decide | (constructor <;> decide)
theorem base32DecoderEmitting_inv : base32DecoderEmitting.Inv .defaults := by
  constructor <;> first | decide | (constructor <;> decide)
theorem base32DecoderScanning_inv : base32DecoderScanning.Inv .defaults := by
  constructor <;> first | decide | (constructor <;> decide)

theorem running_inv : running.Inv :=
  ⟨by decide, hexEncoderRunning_inv, hexDecoderScanning_inv, base32EncoderRunning_inv, base32DecoderEmitting_inv⟩
theorem runningOther_inv : runningOther.Inv :=
  ⟨by decide, hexEncoderRunning_inv, hexDecoderEmitting_inv, base32EncoderRunning_inv, base32DecoderScanning_inv⟩

theorem witness_EncodeOfDecodeIsTheWord : decode 0x60000001A#35 = .ok (.fromBase32 26) := by decide

/-- Both codes, each offered both ways. -/
theorem witness_ReservedCodesAreRefused :
    opField 0x100000010#35 = 0b001#3 ∧ opField 0x5FFFFFFFF#35 = 0b101#3 ∧
    { running with inputs := [.call 0x100000010#35] }.inputs = .call 0x100000010#35 :: [] ∧
    { running with inputs := [.issue 0x5FFFFFFFF#35] }.inputs = .issue 0x5FFFFFFFF#35 :: [] := by decide

/-- One word for each unit number, the longest length in one. -/
theorem witness_CommandGoesToTheUnitOfItsNumber :
    (decode 0x000000000#35 = .ok (.toHex 0) ∧ (0x000000000#35).extractLsb' 33 2 = 0b00#2) ∧
    (decode 0x3FFFFFFFF#35 = .ok (.isHex 4294967295) ∧ (0x3FFFFFFFF#35).extractLsb' 33 2 = 0b01#2) ∧
    (decode 0x400000001#35 = .ok (.toBase32 1) ∧ (0x400000001#35).extractLsb' 33 2 = 0b10#2) ∧
    (decode 0x600000000#35 = .ok (.fromBase32 0) ∧ (0x600000000#35).extractLsb' 33 2 = 0b11#2) := by decide

theorem witness_HexRoundTrip :
    hexDecode [0x64, 0x45] = some [0xDE] ∧
    hexValid [0x64, 0x65] = true ∧ ([0x64, 0x65] : List Chr).map lowerChr = [0x64, 0x65] ∧
    hexDecode [0x64, 0x65] = hexDecode [0x64, 0x65] := by decide

/-- `"zy"`: a character that is not the last, and the last, whose left-over bits are `10` (T94). -/
theorem witness_Base32ReencodingClearsTheLeftoverBits :
    b32Decode [0x7A, 0x79] = some [0xFF] ∧ ([0x7A, 0x79] : List Chr)[0]? = some 0x7A ∧ b32val 0x7A = some 31 ∧
    ([0x7A, 0x79] : List Chr)[1]? = some 0x79 ∧ b32val 0x79 = some 30 := by decide

/-- `"zw"` and `"zz"` differ in the two left-over bits only. -/
theorem witness_LeftoverBitsAreNotVerified :
    let cs : List Chr := [0x7A, 0x77]
    let ds : List Chr := [0x7A, 0x7A]
    cs.length = ds.length ∧
    (cs[0]?.bind b32val) = (ds[0]?.bind b32val) ∧
    (cs[1]?.bind b32val) = some 28#5 ∧ (ds[1]?.bind b32val) = some 31#5 ∧
    5 * cs.length % 8 = 2 ∧ 28#5 >>> 2 = 31#5 >>> 2 := by decide

/-- For the bounds on a code and on a length in the statements about valid characters and about the length table. -/
theorem witness_code_and_length_bounds : hexval 128 = none ∧ b32val 255 = none ∧ 128 ≤ 128 ∧ 0 < 1 := by decide

/-- Each row of the table of R204 at the ends of its range: the encoders at bound, bound + 1, 0, 1 and the largest
length; the decoders at 0, 1, 2 and at the two largest lengths of either kind. -/
theorem witness_AcceptanceDecidesFromTheLength :
    Params.defaults.Legal ∧ Params.Legal ⟨16, 3, 2⟩ ∧
    (Params.defaults.hexMaxIn < (1073741824#32).toNat ∧ Params.defaults.hexMaxIn < (4294967295#32).toNat) ∧
    (0#32).toNat = 0 ∧
    (1 ≤ (1#32).toNat ∧ (1073741823#32).toNat ≤ Params.defaults.hexMaxIn) ∧
    ((1#32).toNat % 2 = 1 ∧ (4294967295#32).toNat % 2 = 1) ∧
    ((2#32).toNat % 2 = 0 ∧ 2 ≤ (2#32).toNat ∧ (4294967294#32).toNat % 2 = 0) ∧
    (Params.defaults.b32MaxIn < (1342177280#32).toNat ∧ Params.defaults.b32MaxIn < (4294967295#32).toNat) ∧
    (1342177279#32).toNat ≤ Params.defaults.b32MaxIn ∧
    ((1#32).toNat % 8 = 1 ∧ (3#32).toNat % 8 = 3 ∧ (4294967294#32).toNat % 8 = 6) ∧
    ((8#32).toNat % 8 = 0 ∧ (2#32).toNat % 8 = 2 ∧ (4#32).toNat % 8 = 4 ∧ (5#32).toNat % 8 = 5 ∧
      (4294967295#32).toNat % 8 = 7) := by decide

/-- What the model answers at those ends, by R204: the longest TOHEX runs with 2147483646 characters to come, the
longest TOBASE32 with 2147483647, the longest FROMHEX with 2147483647 bytes, the longest FROMBASE32 with 2684354559. -/
theorem test_acceptance_bounds :
    (acceptToHex .defaults 1073741823 State.reset.hexEncoder).regs.outlen = 2147483646 ∧
    (acceptToBase32 .defaults 1342177279 State.reset.base32Encoder).regs.outlen = 2147483647 ∧
    (acceptHexDecoder 0b010#3 4294967294 State.reset.hexDecoder).regs.outlen = 2147483647 ∧
    (acceptBase32Decoder 0b110#3 4294967295 State.reset.base32Decoder).regs.outlen = 2684354559 := by decide

/-- A command that runs, with its source there, and one that ends at acceptance. -/
theorem witness_AcceptanceLoadsTheCommand :
    (decode 0x200000002#35 = .ok (.fromHex 2) ∧ ¬(good.regsOf .hexDecoder).Busy ∧ unitOf (.fromHex 2) = .hexDecoder ∧
      endsAtAcceptance good.params (.fromHex 2) = false ∧ ∀ k, k < 2 → (good.srcRead .hexDecoder k).isSome) ∧
    (decode 0x200000003#35 = .ok (.fromHex 3) ∧ endsAtAcceptance good.params (.fromHex 3) = true) := by decide

theorem witness_OfferToABusyUnitWaits :
    decode 0x200000002#35 = .ok (.fromHex 2) ∧ (running.regsOf (unitOf (.fromHex 2))).Busy ∧
    { running with inputs := [.call 0x200000002#35] }.inputs = .call 0x200000002#35 :: [] ∧
    (resultOf (step { running with inputs := [.call 0x200000002#35] })).isSome = true := by decide

/-- The third element of the source was never written. -/
theorem witness_CommandWithoutItsSourceIsRefused :
    ¬(good.regsOf (unitOf (.toBase32 3))).Busy ∧ endsAtAcceptance good.params (.toBase32 3) = false ∧
    2 < (Instr.toBase32 3).len.toNat ∧ good.srcRead (unitOf (.toBase32 3)) 2 = none := by decide

theorem witness_StepRunsTheOfferedCommand :
    { good with inputs := [.call 0x700000002#35] }.inputs = .call 0x700000002#35 :: [] ∧
    decode 0x700000002#35 = .ok (.isBase32 2) ∧ decode (BitVec.ofNat 35 0x700000002) = .ok (.isBase32 2) ∧
    ¬(good.regsOf (unitOf (.isBase32 2))).Busy := by decide

theorem witness_ToHexWritesTheTextOfTheSource :
    good.params.Legal ∧ ¬good.hexEncoder.regs.Busy ∧ (2#32).toNat ≤ good.params.hexMaxIn ∧
    ([0x66, 0x6F] : List Byte).length = (2#32).toNat ∧
    good.hexEncoder.src.Holds [0x66, 0x6F] := by decide

theorem witness_FromHexWritesTheBytesOfTheSource :
    ¬good.hexDecoder.regs.Busy ∧ ([0x64, 0x45] : List Chr).length = (2#32).toNat ∧
    good.hexDecoder.src.Holds [0x64, 0x45] ∧ hexDecode [0x64, 0x45] = some [0xDE] := by decide

theorem witness_ToBase32WritesTheTextOfTheSource :
    good.params.Legal ∧ ¬good.base32Encoder.regs.Busy ∧ (2#32).toNat ≤ good.params.b32MaxIn ∧
    ([0x66, 0x6F] : List Byte).length = (2#32).toNat ∧ good.base32Encoder.src.Holds [0x66, 0x6F] := by decide

theorem witness_FromBase32WritesTheBytesOfTheSource :
    ¬good.base32Decoder.regs.Busy ∧ ([0x7A, 0x7A] : List Chr).length = (2#32).toNat ∧
    good.base32Decoder.src.Holds [0x7A, 0x7A] ∧ b32Decode [0x7A, 0x7A] = some [0xFF] := by decide

/-- A valid source and one that is not. -/
theorem witness_IsHexAnswersForTheSource :
    ¬bad.hexDecoder.regs.Busy ∧ ([0x30, 0x67] : List Chr).length = (2#32).toNat ∧
    bad.hexDecoder.src.Holds [0x30, 0x67] ∧ hexValid [0x30, 0x67] = false ∧
    good.hexDecoder.src.Holds [0x64, 0x45] ∧ hexValid [0x64, 0x45] = true := by decide

/-- A valid source and one that is not. -/
theorem witness_IsBase32AnswersForTheSource :
    ¬bad.base32Decoder.regs.Busy ∧ ([0x31, 0x6C] : List Chr).length = (2#32).toNat ∧
    bad.base32Decoder.src.Holds [0x31, 0x6C] ∧ b32Valid [0x31, 0x6C] = false ∧
    good.base32Decoder.src.Holds [0x7A, 0x7A] ∧ b32Valid [0x7A, 0x7A] = true := by decide

theorem witness_TooLongAnInputIsOutOfRange :
    ¬good.hexEncoder.regs.Busy ∧ good.params.hexMaxIn < (1073741824#32).toNat ∧
    ¬good.base32Encoder.regs.Busy ∧ good.params.b32MaxIn < (1342177280#32).toNat := by decide

/-- Each length class that is refused, for both statements about bad lengths. -/
theorem witness_BadLengths :
    ¬good.hexDecoder.regs.Busy ∧ (1#32).toNat % 2 = 1 ∧ (4294967295#32).toNat % 2 = 1 ∧
    ¬good.base32Decoder.regs.Busy ∧ (1#32).toNat % 8 = 1 ∧ (3#32).toNat % 8 = 3 ∧ (6#32).toNat % 8 = 6 := by decide

/-- The last character is the invalid one. -/
theorem witness_BadCharacterIsInvalidCharacter :
    ([0x30, 0x67] : List Chr).length = (2#32).toNat ∧
    (¬bad.hexDecoder.regs.Busy ∧ (2#32).toNat % 2 = 0 ∧ bad.hexDecoder.src.Holds [0x30, 0x67] ∧
      (0x67 : Chr) ∈ ([0x30, 0x67] : List Chr) ∧ hexval (0x67 : Chr) = none) ∧
    ([0x31, 0x6C] : List Chr).length = (2#32).toNat ∧
    (¬bad.base32Decoder.regs.Busy ∧ b32LengthOk (2#32).toNat = true ∧ bad.base32Decoder.src.Holds [0x31, 0x6C] ∧
      (0x6C : Chr) ∈ ([0x31, 0x6C] : List Chr) ∧ b32val (0x6C : Chr) = none) := by decide

/-- A command that ends with each kind of ending: no error and the three errors; for EachErrorHasItsCause,
RejectionIsAtomic and CommandLeavesTheRestAlone. -/
theorem witness_commands_end :
    good.params.Legal ∧ ¬(good.regsOf (unitOf (.toHex 2))).Busy ∧ (∃ t, exec (.toHex 2) good = .next t) ∧
    (∃ t, exec (.toBase32 1342177280) good = .next t) ∧ (∃ t, exec (.fromBase32 3) good = .next t) ∧
    (∃ t, exec (.fromHex 2) bad = .next t) :=
  ⟨by decide, by decide, goes_on (by decide), goes_on (by decide), goes_on (by decide), goes_on (by decide)⟩

/-- A turn of every unit, running and at rest; for TurnLeavesTheRestAlone. -/
theorem witness_TurnLeavesTheRestAlone :
    (∃ t, takeTurnOf .hexEncoder running = .next t) ∧ (∃ t, takeTurnOf .hexDecoder running = .next t) ∧
    (∃ t, takeTurnOf .base32Encoder running = .next t) ∧ (∃ t, takeTurnOf .base32Decoder running = .next t) ∧
    (∃ t, takeTurnOf .base32Decoder good = .next t) :=
  ⟨goes_on (by decide), goes_on (by decide), goes_on (by decide), goes_on (by decide), goes_on (by decide)⟩

/-- Two states that agree in the source of hex_decoder below 1 element pair and differ elsewhere. -/
theorem witness_OutcomeDependsOnTheInputAlone :
    good.params = running.params ∧ ¬(good.regsOf (unitOf (.fromHex 2))).Busy ∧
    (∀ k, k < 2 → good.srcRead .hexDecoder k =
      { running with hexDecoder := { good.hexDecoder with dst := [] } }.srcRead .hexDecoder k) ∧
    (∃ t, exec (.fromHex 2) good = .next t) ∧
    ∃ t, exec (.fromHex 2) { running with hexDecoder := { good.hexDecoder with dst := [] } } = .next t :=
  ⟨by decide, by decide, by decide, goes_on (by decide), goes_on (by decide)⟩

theorem witness_CommandsOnDifferentUnitsCommute :
    unitOf (.toHex 2) ≠ unitOf (.isBase32 2) ∧
    ∃ a t, exec (.toHex 2) good = .next a ∧ exec (.isBase32 2) a = .next t := by
  refine ⟨by decide, ?_⟩
  have h : (resultOf (andThen (exec (.toHex 2) good) (exec (.isBase32 2)))).isSome = true := by decide
  obtain ⟨t, ht⟩ := goes_on h
  cases ha : exec (.toHex 2) good with
  | next a => rw [ha] at ht; exact ⟨a, t, rfl, ht⟩
  | fault e => rw [ha] at ht; cases ht
  | refused r => rw [ha] at ht; cases ht

theorem witness_TurnsOfDifferentUnitsCommute :
    UnitId.hexEncoder ≠ .base32Decoder ∧
    ∃ a t, takeTurnOf .hexEncoder running = .next a ∧ takeTurnOf .base32Decoder a = .next t := by
  refine ⟨by decide, ?_⟩
  have h : (resultOf (andThen (takeTurnOf .hexEncoder running) (takeTurnOf .base32Decoder))).isSome = true := by decide
  obtain ⟨t, ht⟩ := goes_on h
  cases ha : takeTurnOf .hexEncoder running with
  | next a => rw [ha] at ht; exact ⟨a, t, rfl, ht⟩
  | fault e => rw [ha] at ht; cases ht
  | refused r => rw [ha] at ht; cases ht

theorem witness_HexEncoderStepWritesTwoCharacters :
    running.hexEncoder.regs.Busy ∧ running.hexEncoder.regs.idx < running.hexEncoder.regs.len ∧
    running.hexEncoder.src.read running.hexEncoder.regs.idx.toNat = some 0x6F := by decide

/-- Per decoder: a valid character; an invalid one under a decode; an invalid one under a validation. -/
theorem witness_ScanStepChecksOneCharacter :
    (hexDecoderScanning.regs.Busy ∧ hexDecoderScanning.phase = .scan ∧
      hexDecoderScanning.regs.idx < hexDecoderScanning.regs.len ∧
      hexDecoderScanning.src.read 1 = some 0x45 ∧ hexval 0x45 ≠ none ∧ hexDecoderScanning.regs.op.getLsbD 0 = false) ∧
    ({ hexDecoderScanning with src := atZero [0x64, 0x67] }.src.read 1 = some (0x67 : Chr) ∧ hexval 0x67 = none) ∧
    (0b011#3).getLsbD 0 = true ∧
    (base32DecoderScanning.regs.Busy ∧ base32DecoderScanning.phase = .scan ∧
      base32DecoderScanning.regs.idx < base32DecoderScanning.regs.len ∧
      base32DecoderScanning.src.read 2 = some 0x71 ∧ b32val 0x71 ≠ none ∧
      base32DecoderScanning.regs.op.getLsbD 0 = false) ∧
    ({ base32DecoderScanning with src := atZero [0x63, 0x73, 0x75, 0x67] }.src.read 2 = some (0x75 : Chr) ∧
      b32val 0x75 = none) ∧
    (0b111#3).getLsbD 0 = true := by decide

/-- Per decoder: the end of the pass under a decode and under a validation. -/
theorem witness_ScanPassEnds :
    (let r : Regs := ⟨0b010#3, 2, 1, ⟨.busy, .none, false⟩, 2, 0⟩
     r.Busy ∧ r.idx = r.len ∧ r.op.getLsbD 0 = false ∧ { r with op := 0b011#3 }.op.getLsbD 0 = true) ∧
    (let r : Regs := ⟨0b110#3, 4, 2, ⟨.busy, .none, false⟩, 4, 0⟩
     r.Busy ∧ r.idx = r.len ∧ r.op.getLsbD 0 = false ∧ { r with op := 0b111#3 }.op.getLsbD 0 = true) ∧
    hexDecoderScanning.phase = .scan ∧ base32DecoderScanning.phase = .scan := by decide

theorem witness_HexDecoderEmitWritesOneByte :
    runningOther.hexDecoder.regs.Busy ∧ runningOther.hexDecoder.phase = .emit ∧
    runningOther.hexDecoder.regs.idx < runningOther.hexDecoder.regs.len ∧
    runningOther.hexDecoder.src.read runningOther.hexDecoder.regs.idx.toNat = some 0x64 ∧
    runningOther.hexDecoder.src.read (runningOther.hexDecoder.regs.idx + 1).toNat = some 0x45 ∧
    hexval 0x64 = some 13 ∧ hexval 0x45 = some 14 := by decide

/-- base32_encoder in each of the three cases of R164: a byte is taken in (no bits held), zeros are filled in (one bit
held, no input left), nothing is taken in (six bits held). -/
theorem witness_Base32EncoderStepWritesOneCharacter :
    (let u : Base32Encoder := { base32EncoderRunning with
        regs := ⟨0b100#3, 2, 4, ⟨.busy, .none, false⟩, 0, 0⟩, buf := 0, bits := 0 }
     u.regs.Busy ∧ ¬(u.bits = 0 ∧ u.regs.idx = u.regs.len) ∧ u.bits.toNat < 5 ∧ u.regs.idx < u.regs.len ∧
       u.src.read u.regs.idx.toNat = some 0x66) ∧
    (let u : Base32Encoder := { base32EncoderRunning with
        regs := ⟨0b100#3, 2, 4, ⟨.busy, .none, false⟩, 2, 3⟩, buf := 1, bits := 1 }
     u.regs.Busy ∧ ¬(u.bits = 0 ∧ u.regs.idx = u.regs.len) ∧ u.bits.toNat < 5 ∧ u.regs.idx = u.regs.len) ∧
    (let u := running.base32Encoder
     u.regs.Busy ∧ ¬(u.bits = 0 ∧ u.regs.idx = u.regs.len) ∧ 5 ≤ u.bits.toNat) := by decide

/-- The first two of those three states are sound too (the third is `running`). -/
theorem witness_Base32EncoderStep_sound :
    Base32Encoder.Inv .defaults { base32EncoderRunning with
      regs := ⟨0b100#3, 2, 4, ⟨.busy, .none, false⟩, 0, 0⟩, buf := 0, bits := 0 } ∧
    Base32Encoder.Inv .defaults { base32EncoderRunning with
      regs := ⟨0b100#3, 2, 4, ⟨.busy, .none, false⟩, 2, 3⟩, buf := 1, bits := 1, dst := atZero [0x63, 0x73, 0x71] } := by
  constructor <;> (constructor <;> first | decide | (constructor <;> decide))

/-- base32_decoder with seven bits held (a byte is written) and with none (none is); both states are sound. -/
theorem witness_Base32DecoderEmitTakesOneCharacter :
    (let u := running.base32Decoder
     u.regs.Busy ∧ u.phase = .emit ∧ u.regs.idx < u.regs.len ∧ u.src.read u.regs.idx.toNat = some 0x67 ∧
       b32val 0x67 = some 16 ∧ 8 ≤ u.bits.toNat + 5) ∧
    (let u : Base32Decoder := { base32DecoderScanning with
        regs := ⟨0b110#3, 4, 2, ⟨.busy, .none, false⟩, 0, 0⟩, phase := .emit }
     u.regs.Busy ∧ u.phase = .emit ∧ u.regs.idx < u.regs.len ∧ u.src.read u.regs.idx.toNat = some 0x63 ∧
       b32val 0x63 = some 12 ∧ u.bits.toNat + 5 < 8) := by decide

theorem witness_Base32DecoderEmit_sound :
    Base32Decoder.Inv .defaults { base32DecoderScanning with
      regs := ⟨0b110#3, 4, 2, ⟨.busy, .none, false⟩, 0, 0⟩, phase := .emit } := by
  constructor <;> first | decide | (constructor <;> decide)

/-- Every unit with nothing more to read, the whole output written. -/
def finishing : State :=
  { State.reset with
    hexEncoder := { hexEncoderRunning with
      regs := ⟨0b000#3, 2, 4, ⟨.busy, .none, false⟩, 2, 4⟩, dst := atZero [0x36, 0x36, 0x36, 0x66] }
    hexDecoder := { hexDecoderEmitting with
      regs := ⟨0b010#3, 2, 1, ⟨.busy, .none, false⟩, 2, 1⟩, dst := atZero [0xDE] }
    base32Encoder := { base32EncoderRunning with
      regs := ⟨0b100#3, 2, 4, ⟨.busy, .none, false⟩, 2, 4⟩, buf := 0, bits := 0,
      dst := atZero [0x63, 0x73, 0x71, 0x67] }
    base32Decoder := { base32DecoderEmitting with
      regs := ⟨0b110#3, 4, 2, ⟨.busy, .none, false⟩, 4, 2⟩, buf := 0, bits := 4, dst := atZero [0x66, 0x6F] } }

theorem finishing_inv : finishing.Inv := by
  constructor <;> (constructor <;> first | decide | (constructor <;> decide))

theorem witness_CompletionComesWithTheWholeOutput :
    (finishing.hexEncoder.regs.Busy ∧ finishing.hexEncoder.regs.idx = finishing.hexEncoder.regs.len) ∧
    (finishing.hexDecoder.regs.Busy ∧ finishing.hexDecoder.phase = .emit ∧
      finishing.hexDecoder.regs.idx = finishing.hexDecoder.regs.len) ∧
    (finishing.base32Encoder.regs.Busy ∧ finishing.base32Encoder.bits = 0 ∧
      finishing.base32Encoder.regs.idx = finishing.base32Encoder.regs.len) ∧
    (finishing.base32Decoder.regs.Busy ∧ finishing.base32Decoder.phase = .emit ∧
      finishing.base32Decoder.regs.idx = finishing.base32Decoder.regs.len) := by decide

/-- A sound state with a step; for EveryStepKeepsTheStateSound, EveryStepKeepsTheParameters,
NoStepFromASoundStateFaults, ABusyUnitIsNeverStuck. -/
theorem witness_EveryStepKeepsTheStateSound :
    running.Inv ∧ (running.regsOf .hexEncoder).Busy ∧ ∃ t, step running = .next t :=
  ⟨running_inv, by decide, goes_on (by decide)⟩

/-- An encoder's command that runs, a decoder's, and one that ends at acceptance. -/
theorem witness_WholeCommandIsItsSteps :
    ¬(good.regsOf (unitOf (.toBase32 2))).Busy ∧ (∃ a, issueInstr (.toBase32 2) good = .next a) ∧
    (∃ a, issueInstr (.fromHex 2) good = .next a) ∧ (∃ a, issueInstr (.isHex 1) good = .next a) ∧
    endsAtAcceptance good.params (.toBase32 2) = false ∧ endsAtAcceptance good.params (.isHex 1) = true :=
  ⟨by decide, goes_on (by decide), goes_on (by decide), goes_on (by decide), by decide, by decide⟩

/-- A step by reset makes units idle, and a step by a command takes a unit out of DONE. -/
theorem witness_OnlyResetMakesAUnitIdle :
    (∃ t, step { running with inputs := [.reset] } = .next t) ∧
    (resetBlock running).hexEncoder.regs.status.state = .idle ∧
    (∃ t, step { good with
      hexDecoder := { good.hexDecoder with regs := ⟨0b010#3, 0, 0, ⟨.done, .none, false⟩, 0, 0⟩ },
      inputs := [.issue 0x200000002#35] } = .next t) :=
  ⟨goes_on (by decide), by decide, goes_on (by decide)⟩

/-- A reset with a unit in the middle of a command, OUTLEN 4, and with a unit at rest. -/
theorem witness_ResetRestoresEveryUnit :
    { running with inputs := [.reset] }.inputs = .reset :: [] ∧ (running.regsOf .hexEncoder).Busy ∧
    (running.regsOf .hexEncoder).outlen.toNat = 4 ∧ ¬(good.regsOf .hexEncoder).Busy := by decide

/-- The largest index, the largest value that fits and the least that does not, for a byte and for a character of 16
bits. -/
theorem witness_HostWriteLandsInTheSource :
    { good with inputs := [.writeSrc .hexEncoder 4294967295 255] }.inputs =
      .writeSrc .hexEncoder 4294967295 255 :: [] ∧
    ¬(good.regsOf .hexEncoder).Busy ∧ 255 < 256 ∧ 256 ≤ 256 ∧
    ¬(wide.regsOf .hexDecoder).Busy ∧ 0xFFFF < 2 ^ wide.params.charW ∧ 2 ^ wide.params.charW ≤ 0x10000 := by decide

theorem witness_BuffersOfABusyUnitAreTheUnits :
    (running.regsOf .base32Encoder).Busy ∧
    { running with inputs := [.readDst .base32Encoder 0] }.inputs = .readDst .base32Encoder 0 :: [] ∧
    { running with inputs := [.writeSrc .base32Encoder 0 0] }.inputs = .writeSrc .base32Encoder 0 0 :: [] := by decide

/-- Reads of a register of a BUSY unit, of a DST element that was written and of one that was not. -/
theorem witness_ReadsHaveNoSideEffect :
    { running with inputs := [.readOp .hexEncoder] }.inputs = .readOp .hexEncoder :: [] ∧
    { running with inputs := [.readLen .hexEncoder] }.inputs = .readLen .hexEncoder :: [] ∧
    { running with inputs := [.readOutlen .hexEncoder] }.inputs = .readOutlen .hexEncoder :: [] ∧
    { running with inputs := [.readStatus .hexEncoder] }.inputs = .readStatus .hexEncoder :: [] ∧
    (¬(good.regsOf .hexDecoder).Busy ∧ good.dstRead .hexDecoder 9 = some 0xEE ∧ good.dstRead .hexDecoder 0 = none) := by
  decide

/-- The bounds of either block, at least 16 and below. -/
theorem witness_UuidTextIsTheTextOfItsCanonicalBytes :
    ¬good.hexEncoder.regs.Busy ∧ ¬good.base32Encoder.regs.Busy ∧
    16 ≤ good.params.hexMaxIn ∧ 16 ≤ good.params.b32MaxIn ∧
    ¬wide.hexEncoder.regs.Busy ∧ ¬wide.base32Encoder.regs.Busy ∧
    wide.params.hexMaxIn < 16 ∧ wide.params.b32MaxIn < 16 := by decide

/-- Texts of the right length, valid and not, and of a wrong length, for both adapters. -/
theorem witness_UuidOfATextIsItsDecoding :
    ¬good.hexDecoder.regs.Busy ∧ ¬good.base32Decoder.regs.Busy ∧
    (∀ c ∈ [0x30, 0x66, 0x75, 0x7A], c < 2 ^ good.params.charW) ∧
    ((List.replicate 31 (0x30 : Chr)).length ≠ 32 ∧ (List.replicate 27 (0x30 : Chr)).length ≠ 26) ∧
    ((List.replicate 32 (0x7A : Chr)).length = 32 ∧ hexValid (List.replicate 32 (0x7A : Chr)) = false) ∧
    ((List.replicate 26 (0x75 : Chr)).length = 26 ∧ b32Valid (List.replicate 26 (0x75 : Chr)) = false) ∧
    hexDecode (List.replicate 32 (0x66 : Chr)) = some (List.replicate 16 0xFF) ∧
    b32Decode (List.replicate 26 (0x30 : Chr)) = some (List.replicate 16 0x00) := by decide

/-! ## The UUID adapters -/

/-- `canon` by R221, on the native bytes 0 to 15. -/
theorem test_uuidCanon :
    (uuidCanon .littleEndianFields #v[0, 1, 2, 3, 4, 5, 6, 7, 8, 9, 10, 11, 12, 13, 14, 15]).toList =
      [3, 2, 1, 0, 5, 4, 7, 6, 8, 9, 10, 11, 12, 13, 14, 15] := by decide

end Sys2Proof.Tests
end

/-! PROOFS. A stream of bits read as numbers, and the Base32 round trip (30_encoding.md R116, 43_base32_decoder.md
R193). -/

namespace Sys2Proof.Machine

/-! ## A number and its list of bits -/

/-- One more bit at the end is the new least significant bit. -/
theorem bitsValue_concat (bits : List Bool) (b : Bool) : bitsValue (bits ++ [b]) = Nat.bit b (bitsValue bits) := by
  simp [bitsValue, Nat.bit_val]

/-- Bit `i` of the number is the `i`-th bit of the list, counted from its end. -/
theorem testBit_bitsValue (bits : List Bool) (i : Nat) : (bitsValue bits).testBit i = bits.reverse.getD i false := by
  induction bits using List.reverseRecOn generalizing i with
  | nil => simp [bitsValue]
  | append_singleton bits b ih =>
    rw [bitsValue_concat]
    cases i with
    | zero => simp
    | succ i => simp [Nat.testBit_bit_succ, ih]

/-- The word made of the bits `f 0, f 1, ..`, the first the most significant, has them as its bits. -/
theorem getLsbD_ofNat_bitsValue {w i : Nat} (f : Nat → Bool) (hi : i < w) :
    (BitVec.ofNat w (bitsValue ((List.range w).map f))).getLsbD i = f (w - 1 - i) := by
  rw [BitVec.getLsbD_ofNat, testBit_bitsValue, List.getD_eq_getElem?_getD, List.getElem?_reverse (by simpa using hi)]
  simp [hi, show w - 1 - i < w by omega]

/-- Bit `i` of the symbol value `v_j` is a bit of the byte stream (42_base32_encoder.md R160). -/
theorem getLsbD_b32Symbol (bs : List Byte) (j : Nat) {i : Nat} (hi : i < 5) :
    (b32Symbol bs j).getLsbD i = byteStreamBit bs (5 * j + (4 - i)) :=
  getLsbD_ofNat_bitsValue (fun t => byteStreamBit bs (5 * j + t)) hi

/-- Bit `i` of the byte `B[j]` is a bit of the symbol stream (43_base32_decoder.md R180). -/
theorem getLsbD_b32Byte (vs : List (BitVec 5)) (j : Nat) {i : Nat} (hi : i < 8) :
    (b32Byte vs j).getLsbD i = symbolStreamBit vs (8 * j + (7 - i)) :=
  getLsbD_ofNat_bitsValue (fun t => symbolStreamBit vs (8 * j + t)) hi

/-! ## The two streams are one string of bits -/

/-- The first `m` symbol values of a byte sequence, in order. -/
def b32Symbols (bs : List Byte) (m : Nat) : List (BitVec 5) := (List.range m).map (b32Symbol bs)

/-- The stream of the symbols a byte sequence is cut into is the stream of its bytes. -/
theorem symbolStreamBit_b32Symbols (bs : List Byte) {m k : Nat} (hk : k < 5 * m) :
    symbolStreamBit (b32Symbols bs m) k = byteStreamBit bs k := by
  have hj : k / 5 < m := by omega
  have hbit : 5 * (k / 5) + (4 - (4 - k % 5)) = k := by omega
  have hget : (b32Symbols bs m)[k / 5]? = some (b32Symbol bs (k / 5)) := by simp [b32Symbols, hj]
  simp only [symbolStreamBit, hget]
  rw [getLsbD_b32Symbol bs (k / 5) (by omega), hbit]

/-- Bit `i` of byte `j` stands at place `8 j + 7 - i` of the stream. -/
theorem byteStreamBit_of_getElem? {bs : List Byte} {j i : Nat} {b : Byte} (hb : bs[j]? = some b) (hi : i < 8) :
    byteStreamBit bs (8 * j + (7 - i)) = b.getLsbD i := by
  have hj : (8 * j + (7 - i)) / 8 = j := by omega
  have hbit : 7 - (8 * j + (7 - i)) % 8 = i := by omega
  simp only [byteStreamBit, hj, hb, hbit]

/-- Symbols that reach beyond byte `j` give that byte back. -/
theorem b32Byte_b32Symbols {bs : List Byte} {m j : Nat} {b : Byte} (hb : bs[j]? = some b) (hm : 8 * (j + 1) ≤ 5 * m) :
    b32Byte (b32Symbols bs m) j = b := by
  refine BitVec.eq_of_getLsbD_eq fun i hi => ?_
  calc (b32Byte (b32Symbols bs m) j).getLsbD i
      = symbolStreamBit (b32Symbols bs m) (8 * j + (7 - i)) := getLsbD_b32Byte _ j hi
    _ = byteStreamBit bs (8 * j + (7 - i)) := symbolStreamBit_b32Symbols bs (by omega)
    _ = b.getLsbD i := byteStreamBit_of_getElem? hb hi

/-! ## Lengths (30_encoding.md R117, R168, R196) -/

/-- The decoder accepts the length of every Base32 text. -/
theorem b32LengthOk_toBase32Length (n : Nat) : b32LengthOk (toBase32Length n) = true := by
  simp only [b32LengthOk, toBase32Length, Bool.and_eq_true, bne_iff_ne]
  omega

/-- A text has room for the bytes it encodes and no more. -/
theorem fromBase32Length_toBase32Length (n : Nat) : fromBase32Length (toBase32Length n) = n := by
  unfold fromBase32Length toBase32Length
  omega

/-- A text has at least the bits of the bytes it encodes. -/
theorem le_toBase32Length (n : Nat) : 8 * n ≤ 5 * toBase32Length n := by
  unfold toBase32Length
  omega

/-! ## Encoding, then decoding -/

/-- The decode table inverts the alphabet (30_encoding.md R105). -/
@[simp] theorem b32val_b32Alpha (v : BitVec 5) : b32val (b32Alpha v) = some v := by
  revert v
  decide

@[simp] theorem length_b32Encode (bs : List Byte) : (b32Encode bs).length = toBase32Length bs.length := by
  simp [b32Encode]

/-- A Base32 text is the alphabet's character of each symbol value. -/
theorem b32Encode_eq_map (bs : List Byte) : b32Encode bs = (b32Symbols bs (toBase32Length bs.length)).map b32Alpha := by
  simp [b32Encode, b32Symbols]

/-- The values of the characters of alphabet characters are the values they were made from. -/
theorem filterMap_b32val_map_b32Alpha (vs : List (BitVec 5)) : (vs.map b32Alpha).filterMap b32val = vs := by
  simp [List.filterMap_map]

/-- Every Base32 text is valid (R180). -/
theorem b32Valid_b32Encode (bs : List Byte) : b32Valid (b32Encode bs) = true := by
  have hlen : b32LengthOk (b32Encode bs).length = true := by simpa using b32LengthOk_toBase32Length bs.length
  have hchars : ((b32Encode bs).all fun c => (b32val c).isSome) = true := by simp [b32Encode_eq_map]
  rw [b32Valid, hlen, hchars]
  rfl

/-- The bytes that a text's symbol values hold are the bytes encoded. -/
theorem map_b32Byte_b32Symbols (bs : List Byte) :
    (List.range bs.length).map (b32Byte (b32Symbols bs (toBase32Length bs.length))) = bs := by
  refine List.ext_getElem (by simp) fun j hj hj' => ?_
  have hroom := le_toBase32Length bs.length
  simpa using b32Byte_b32Symbols (List.getElem?_eq_getElem hj') (by omega)

/-- Every byte sequence comes back from its Base32 text (R193). -/
theorem b32Decode_b32Encode (bs : List Byte) : b32Decode (b32Encode bs) = some bs := by
  have hvals : (b32Encode bs).filterMap b32val = b32Symbols bs (toBase32Length bs.length) := by
    rw [b32Encode_eq_map, filterMap_b32val_map_b32Alpha]
  simp only [b32Decode, b32Valid_b32Encode, ↓reduceIte, hvals, length_b32Encode, fromBase32Length_toBase32Length,
    map_b32Byte_b32Symbols]

/-- Settles O11: the symbols and the bytes are cut from one string of bits, and a text has room for exactly the bytes
it encodes. -/
theorem base32RoundTrip : Obligations.Base32RoundTrip :=
  fun bs => ⟨b32Valid_b32Encode bs, b32Decode_b32Encode bs⟩

end Sys2Proof.Machine

/-! PROOFS. The frame of every command and of every step: what lies outside the unit, the parameters, SRC, and DST
beyond the output (00_scope.md R3, R9, R10, R12; 10_state.md R20; 20_memory.md R65). -/

namespace Sys2Proof.Machine

/-! ## Outside the unit -/

theorem SameUnit.refl (u : UnitId) (s : State) : SameUnit u s s := by cases u <;> rfl

theorem SameOutside.refl (u : UnitId) (s : State) : SameOutside u s s :=
  ⟨fun v _ => SameUnit.refl v s, rfl, rfl, rfl, rfl⟩

theorem SameOutside.params_eq {u : UnitId} {s t : State} (h : SameOutside u s t) : t.params = s.params := by
  obtain ⟨-, -, -, -, hp⟩ := h
  exact hp

/-- Storing a unit back changes nothing outside the unit. -/
def UnitOps.Local {α : Type} (o : UnitOps α) : Prop := ∀ (u : α) (s : State), SameOutside o.id s (o.put u s)

theorem hexEncoderOps_local : hexEncoderOps.Local := by
  refine fun u s => ⟨fun v hv => ?_, rfl, rfl, rfl, rfl⟩
  cases v with
  | hexEncoder => exact absurd rfl hv
  | _ => rfl

theorem hexDecoderOps_local : hexDecoderOps.Local := by
  refine fun u s => ⟨fun v hv => ?_, rfl, rfl, rfl, rfl⟩
  cases v with
  | hexDecoder => exact absurd rfl hv
  | _ => rfl

theorem base32EncoderOps_local : base32EncoderOps.Local := by
  refine fun u s => ⟨fun v hv => ?_, rfl, rfl, rfl, rfl⟩
  cases v with
  | base32Encoder => exact absurd rfl hv
  | _ => rfl

theorem base32DecoderOps_local : base32DecoderOps.Local := by
  refine fun u s => ⟨fun v hv => ?_, rfl, rfl, rfl, rfl⟩
  cases v with
  | base32Decoder => exact absurd rfl hv
  | _ => rfl

section OfLocal
variable {α : Type} {o : UnitOps α} {accept : α → α} {fuel : Nat} {s t : State}

/-- A turn changes nothing outside its unit. -/
theorem UnitOps.Local.takeTurn (ho : o.Local) (h : o.takeTurn s = .next t) : SameOutside o.id s t := by
  rcases takeTurn_eq_next h with ⟨-, u, -, rfl⟩ | ⟨-, rfl⟩
  · exact ho u s
  · exact SameOutside.refl _ _

/-- An offered command that is accepted, or waits, changes nothing outside its unit. -/
theorem UnitOps.Local.issue (ho : o.Local) (h : o.issue accept s = .next t) : SameOutside o.id s t := by
  rcases issue_eq_next h with ⟨-, ht⟩ | ⟨-, u, -, rfl⟩
  · exact ho.takeTurn ht
  · exact ho u s

/-- An offered command that is run whole, or waits, changes nothing outside its unit. -/
theorem UnitOps.Local.call (ho : o.Local) (h : o.call fuel accept s = .next t) : SameOutside o.id s t := by
  rcases call_eq_next h with ⟨-, ht⟩ | ⟨-, -, -, v, -, rfl⟩
  · exact ho.takeTurn ht
  · exact ho v s

end OfLocal

/-- A turn of a unit changes nothing outside it (44_command_protocol.md R206). -/
theorem takeTurnOf_sameOutside {u : UnitId} {s t : State} (h : takeTurnOf u s = .next t) : SameOutside u s t := by
  cases u with
  | hexEncoder => exact hexEncoderOps_local.takeTurn h
  | hexDecoder => exact hexDecoderOps_local.takeTurn h
  | base32Encoder => exact base32EncoderOps_local.takeTurn h
  | base32Decoder => exact base32DecoderOps_local.takeTurn h

/-- A command changes nothing outside its unit (10_state.md R20). -/
theorem exec_sameOutside {i : Instr} {s t : State} (h : exec i s = .next t) : SameOutside (unitOf i) s t := by
  cases i with
  | toHex len => simpa using hexEncoderOps_local.call h
  | fromHex len => simpa using hexDecoderOps_local.call h
  | isHex len => simpa using hexDecoderOps_local.call h
  | toBase32 len => simpa using base32EncoderOps_local.call h
  | fromBase32 len => simpa using base32DecoderOps_local.call h
  | isBase32 len => simpa using base32DecoderOps_local.call h

/-- The acceptance of a command changes nothing outside its unit (44_command_protocol.md R201). -/
theorem issueInstr_sameOutside {i : Instr} {s t : State} (h : issueInstr i s = .next t) :
    SameOutside (unitOf i) s t := by
  cases i with
  | toHex len => simpa using hexEncoderOps_local.issue h
  | fromHex len => simpa using hexDecoderOps_local.issue h
  | isHex len => simpa using hexDecoderOps_local.issue h
  | toBase32 len => simpa using base32EncoderOps_local.issue h
  | fromBase32 len => simpa using base32DecoderOps_local.issue h
  | isBase32 len => simpa using base32DecoderOps_local.issue h

/-! ## The parameters -/

/-- A quiet step keeps the parameters. -/
theorem quietStep_params {s t : State} (h : quietStep s = .next t) : t.params = s.params := by
  unfold quietStep at h
  split at h
  · exact (takeTurnOf_sameOutside h).params_eq
  · cases h; rfl

/-- A host's write of SRC keeps the parameters. -/
theorem hostWriteSrc_params {u : UnitId} {i : LenWord} {v : Nat} {s t : State} (h : hostWriteSrc u i v s = .next t) :
    t.params = s.params := by
  cases u <;>
  · obtain ⟨b, -, ht⟩ := andThen_eq_next.mp h
    cases ht
    rfl

@[simp] theorem handOutElement_params {α : Type} (mk : α → Answer) (free : Nat → α) (e : Option α) (s : State) :
    (handOutElement mk free e s).params = s.params := by
  cases e <;> rfl

/-- A host's read of DST keeps the parameters. -/
theorem hostReadDst_params {u : UnitId} {i : LenWord} {s t : State} (h : hostReadDst u i s = .next t) :
    t.params = s.params := by
  unfold hostReadDst at h
  split at h
  · cases h
  · cases u <;>
    · cases h
      exact handOutElement_params _ _ _ _

/-- The state in which an offered command runs, with its word taken from the inputs or not, has the same parameters. -/
theorem offered_params (c : Prop) [Decidable c] (s : State) (rest : List Input) :
    (if c then s else { s with inputs := rest }).params = s.params := by
  split <;> rfl

/-- Settles O54: every step is a turn or a command, which change nothing outside their unit, an access of the host,
or a reset, which keeps the parameters. -/
theorem everyStepKeepsTheParameters : Obligations.EveryStepKeepsTheParameters := by
  intro s t h
  rcases step_next_cases h with ⟨-, hq⟩ | ⟨w, rest, i, -, -, he⟩ | ⟨w, rest, i, -, -, he⟩ | ⟨u, rest, -, ht⟩ |
    ⟨u, i, v, rest, -, hw⟩ | ⟨u, i, rest, -, hr⟩ | ⟨x, rest, a, -, rfl⟩ | ⟨rest, -, rfl⟩
  · exact quietStep_params hq
  · exact (exec_sameOutside he).params_eq.trans (offered_params _ s rest)
  · exact (issueInstr_sameOutside he).params_eq.trans (offered_params _ s rest)
  · exact (takeTurnOf_sameOutside ht).params_eq
  · have hp := hostWriteSrc_params hw
    exact hp
  · have hp := hostReadDst_params hr
    exact hp
  · rfl
  · rfl

end Sys2Proof.Machine

/-! PROOFS. What a whole command keeps of its own unit: OP, LEN, SRC, and DST beyond its output (00_scope.md R3,
20_memory.md R65). -/

namespace Sys2Proof.Machine

/-! ## The ends of a command -/

theorem not_busy_raise (e : Err) (r : Regs) : ¬(raise e r).Busy := nofun

theorem not_busy_complete (r : Regs) : ¬(complete r).Busy := nofun

theorem not_busy_endAtOnce (b : Bool) (r : Regs) : ¬(endAtOnce b r).Busy := nofun

/-! ## Acceptance -/

section Acceptance
variable {op : OpCode} {maxIn : Nat} {lengthOk : Nat → Bool} {outLength : Nat → Nat} {len : LenWord} {r : Regs}

@[simp] theorem acceptEncode_op : (acceptEncode op maxIn outLength len r).op = op := by
  rcases acceptEncode_cases op maxIn outLength len r with ⟨-, h⟩ | ⟨-, -, h⟩ | ⟨-, -, h⟩ <;> simp [h]

@[simp] theorem acceptEncode_len : (acceptEncode op maxIn outLength len r).len = len := by
  rcases acceptEncode_cases op maxIn outLength len r with ⟨-, h⟩ | ⟨-, -, h⟩ | ⟨-, -, h⟩ <;> simp [h]

@[simp] theorem acceptDecode_op : (acceptDecode op lengthOk outLength len r).op = op := by
  rcases acceptDecode_cases op lengthOk outLength len r with ⟨-, -, h⟩ | ⟨-, -, h⟩ | ⟨-, -, h⟩ | ⟨-, -, h⟩ <;> simp [h]

@[simp] theorem acceptDecode_len : (acceptDecode op lengthOk outLength len r).len = len := by
  rcases acceptDecode_cases op lengthOk outLength len r with ⟨-, -, h⟩ | ⟨-, -, h⟩ | ⟨-, -, h⟩ | ⟨-, -, h⟩ <;> simp [h]

/-- An encoder that runs after an acceptance was given a length within the bound, and starts. -/
theorem acceptEncode_of_busy (hb : (acceptEncode op maxIn outLength len r).Busy) :
    len.toNat ≤ maxIn ∧ acceptEncode op maxIn outLength len r = start (outLength len.toNat) (load op len r) := by
  rcases acceptEncode_cases op maxIn outLength len r with ⟨-, h⟩ | ⟨-, -, h⟩ | ⟨hle, -, h⟩
  · exact absurd (h ▸ hb) (not_busy_raise _ _)
  · exact absurd (h ▸ hb) (not_busy_endAtOnce _ _)
  · exact ⟨hle, h⟩

/-- A decoder that runs after an acceptance was given a length it accepts, and starts. -/
theorem acceptDecode_of_busy (hb : (acceptDecode op lengthOk outLength len r).Busy) :
    lengthOk len.toNat = true ∧ acceptDecode op lengthOk outLength len r =
      start (if op.getLsbD 0 = true then 0 else outLength len.toNat) (load op len r) := by
  rcases acceptDecode_cases op lengthOk outLength len r with ⟨-, -, h⟩ | ⟨-, -, h⟩ | ⟨-, -, h⟩ | ⟨hok, -, h⟩
  · exact absurd (h ▸ hb) (not_busy_endAtOnce _ _)
  · exact absurd (h ▸ hb) (not_busy_raise _ _)
  · exact absurd (h ▸ hb) (not_busy_endAtOnce _ _)
  · exact ⟨hok, h⟩

end Acceptance

/-! ## What a check of a character keeps of the registers -/

@[simp] theorem scanOne_op (valid : Bool) (r : Regs) : (scanOne valid r).op = r.op := by
  rcases scanOne_cases valid r with ⟨-, h⟩ | ⟨-, -, h⟩ | ⟨-, -, h⟩ <;> simp [h]

@[simp] theorem scanOne_len (valid : Bool) (r : Regs) : (scanOne valid r).len = r.len := by
  rcases scanOne_cases valid r with ⟨-, h⟩ | ⟨-, -, h⟩ | ⟨-, -, h⟩ <;> simp [h]

@[simp] theorem scanOne_odx (valid : Bool) (r : Regs) : (scanOne valid r).odx = r.odx := by
  rcases scanOne_cases valid r with ⟨-, h⟩ | ⟨-, -, h⟩ | ⟨-, -, h⟩ <;> simp [h]

@[simp] theorem scanEnd_op (r : Regs) : (scanEnd r).1.op = r.op := by
  rcases scanEnd_cases r with ⟨-, h⟩ | ⟨-, h⟩ <;> simp [h]

@[simp] theorem scanEnd_len (r : Regs) : (scanEnd r).1.len = r.len := by
  rcases scanEnd_cases r with ⟨-, h⟩ | ⟨-, h⟩ <;> simp [h]

/-- The scan of a unit that goes on ends with a decode, at the start of the source. -/
theorem scanEnd_of_busy {r : Regs} (hb : (scanEnd r).1.Busy) :
    ¬r.Validates ∧ scanEnd r = ({ r with idx := 0 }, .emit) := by
  rcases scanEnd_cases r with ⟨-, h⟩ | h
  · rw [h] at hb
    exact absurd hb (not_busy_complete _)
  · exact h

/-! ## A whole command, as an induction over its steps -/

/-- What the acceptance of a command establishes and every step of the unit keeps holds of the unit in the end. -/
theorem call_induction {α : Type} {o : UnitOps α} {accept : α → α} {fuel : Nat} {s t : State} {P : α → Prop}
    (hb : ¬(o.regs (o.get s)).Busy) (h : o.call fuel accept s = .next t) (haccept : P (accept (o.get s)))
    (hstep : ∀ u v, P u → (o.regs u).Busy → o.turn u = .next v → P v) : ∃ v, P v ∧ t = o.put v s := by
  rcases call_eq_next h with ⟨hb', -⟩ | ⟨-, u, hu, v, hv, ht⟩
  · exact absurd hb' hb
  · obtain ⟨rfl, -⟩ := requireSource_eq_next.mp hu
    exact ⟨v, runToDone_induction hstep haccept hv, ht⟩

/-! ## What is kept -/

/-- The two buffers read alike at every index from `n` on. -/
def Buffer.SameFrom {α : Type} (n : Nat) (b c : Buffer α) : Prop := ∀ k, n ≤ k → c.read k = b.read k

theorem Buffer.SameFrom.refl {α : Type} (n : Nat) (b : Buffer α) : b.SameFrom n b := fun _ _ => rfl

/-- A write below `n` is not seen from `n` on. -/
theorem Buffer.SameFrom.write {α : Type} {n i : Nat} {b c : Buffer α} (h : b.SameFrom n c) (hi : i < n) (v : α) :
    b.SameFrom n (c.write i v) := fun k hk => (Buffer.read_write_other c v (by omega)).trans (h k hk)

/-- What a command of operation `op` and length `len` with `n` elements of output keeps of its unit, which had the
buffers `src₀` and `dst₀`: OP and LEN are the command's, SRC is the same, and so is DST from `n` on. -/
structure KeptByCommand {α β : Type} (op : OpCode) (len : LenWord) (n : Nat) (src₀ : Buffer α) (dst₀ : Buffer β)
    (r : Regs) (src : Buffer α) (dst : Buffer β) : Prop where
  op_eq : r.op = op
  len_eq : r.len = len
  src_eq : src = src₀
  dst_same : dst₀.SameFrom n dst

/-! ## hex_encoder -/

/-- hex_encoder in the middle of TOHEX of `len` bytes, begun with the buffers of `u₀`: while BUSY, the two characters of
each byte taken in have been written (40_hex_encoder.md R133). -/
structure HexEncoder.Runs (len : LenWord) (u₀ u : HexEncoder) : Prop extends
    KeptByCommand 0b000#3 len (toHexLength len.toNat) u₀.src u₀.dst u.regs u.src u.dst where
  progress : u.regs.Busy → 2 * len.toNat < 2 ^ 32 ∧ u.regs.odx.toNat = 2 * u.regs.idx.toNat

/-- TOHEX starts so: a bound that is legal leaves room for two characters per byte (R132). -/
theorem HexEncoder.runs_accept {p : Params} (hp : p.Legal) (len : LenWord) (u : HexEncoder) :
    HexEncoder.Runs len u (acceptToHex p len u) where
  op_eq := by simp
  len_eq := by simp
  src_eq := rfl
  dst_same := .refl _ _
  progress hb := by
    obtain ⟨hle, hstart⟩ := acceptEncode_of_busy hb
    obtain ⟨-, hmax, -⟩ := hp
    simp only [Config.maxSigned32] at hmax
    refine ⟨by omega, ?_⟩
    simp [hstart]

/-- Every step of TOHEX keeps this: IDX moves by one where ODX moves by two. -/
theorem HexEncoder.runs_turn {len : LenWord} {u₀ u v : HexEncoder} (h : HexEncoder.Runs len u₀ u)
    (hb : u.regs.Busy) (ht : hexEncoderTurn u = .next v) : HexEncoder.Runs len u₀ v := by
  obtain ⟨⟨hop, hlen, hsrc, hdst⟩, hprogress⟩ := h
  obtain ⟨hmax, hodx⟩ := hprogress hb
  rcases hexEncoderTurn_cases ht with ⟨b, hlt, -, rfl⟩ | ⟨-, rfl⟩
  · rw [hlen, BitVec.lt_def] at hlt
    have hodx₁ : (u.regs.odx + 1).toNat = u.regs.odx.toNat + 1 := by bv_omega
    refine ⟨⟨hop, hlen, hsrc, (hdst.write ?_ _).write ?_ _⟩, fun _ => ⟨hmax, ?_⟩⟩
    · unfold toHexLength; omega
    · unfold toHexLength; omega
    · simp only [hexEncodeByte_idx, hexEncodeByte_odx]; bv_omega
  · exact ⟨⟨hop, hlen, hsrc, hdst⟩, fun hb' => absurd hb' (not_busy_complete _)⟩

/-- TOHEX on a unit that is not BUSY ends with hex_encoder as the command keeps it. -/
theorem execToHex_runs {len : LenWord} {s t : State} (hp : s.params.Legal) (hb : ¬s.hexEncoder.regs.Busy)
    (h : execToHex len s = .next t) : HexEncoder.Runs len s.hexEncoder t.hexEncoder := by
  obtain ⟨v, hv, rfl⟩ := call_induction hb h (HexEncoder.runs_accept hp len s.hexEncoder)
    fun _ _ => HexEncoder.runs_turn
  exact hv

/-! ## hex_decoder -/

/-- hex_decoder in the middle of an operation `op` on `len` characters with `n` bytes of output, begun with the buffers
of `u₀`: while BUSY, nothing has been written in the SCAN pass, and in the EMIT pass one byte for each pair taken in
(41_hex_decoder.md R146 to R148). -/
structure HexDecoder.Runs (op : OpCode) (len : LenWord) (n : Nat) (u₀ u : HexDecoder) : Prop extends
    KeptByCommand op len n u₀.src u₀.dst u.regs u.src u.dst where
  even : u.regs.Busy → len.toNat % 2 = 0
  scan : u.regs.Busy → u.phase = .scan → u.regs.odx = 0
  emit : u.regs.Busy → u.phase = .emit → op.getLsbD 0 = false ∧ u.regs.idx.toNat = 2 * u.regs.odx.toNat

/-- FROMHEX and ISHEX start so, in the SCAN pass (R145). -/
theorem HexDecoder.runs_accept (op : OpCode) (len : LenWord) (n : Nat) (u : HexDecoder) :
    HexDecoder.Runs op len n u (acceptHexDecoder op len u) where
  op_eq := by simp
  len_eq := by simp
  src_eq := rfl
  dst_same := .refl _ _
  even hb := by
    obtain ⟨hok, -⟩ := acceptDecode_of_busy hb
    simpa [hexLengthOk] using hok
  scan hb _ := by
    obtain ⟨-, hstart⟩ := acceptDecode_of_busy hb
    simp [hstart]
  emit hb he := by
    have hscan : (acceptHexDecoder op len u).phase = .scan := if_pos hb
    exact absurd (hscan.symm.trans he) nofun

/-- Every step of FROMHEX and ISHEX keeps this: a validation never leaves the SCAN pass, and IDX moves by two where ODX
moves by one. -/
theorem HexDecoder.runs_turn {op : OpCode} {len : LenWord} {n : Nat} {u₀ u v : HexDecoder}
    (hn : op.getLsbD 0 = false → n = fromHexLength len.toNat) (h : HexDecoder.Runs op len n u₀ u)
    (hb : u.regs.Busy) (ht : hexDecoderTurn u = .next v) : HexDecoder.Runs op len n u₀ v := by
  obtain ⟨⟨hop, hlen, hsrc, hdst⟩, heven, hscan, hemit⟩ := h
  rcases hexDecoderTurn_cases ht with ⟨c, hphase, -, -, rfl⟩ | ⟨hphase, -, rfl⟩ |
    ⟨c₁, c₂, hi, lo, hphase, hlt, -, -, -, -, rfl⟩ | ⟨-, -, rfl⟩
  · exact ⟨⟨by simpa using hop, by simpa using hlen, hsrc, hdst⟩, fun _ => heven hb,
      fun _ _ => by simpa using hscan hb hphase, fun _ he => absurd (hphase.symm.trans he) nofun⟩
  · refine ⟨⟨by simpa using hop, by simpa using hlen, hsrc, hdst⟩, fun _ => heven hb, fun hb' hs => ?_,
      fun hb' _ => ?_⟩
    · obtain ⟨-, hend⟩ := scanEnd_of_busy hb'
      simp [hend] at hs
    · obtain ⟨hdecode, hend⟩ := scanEnd_of_busy hb'
      simpa [hend, hscan hb hphase, hop, Regs.Validates] using hdecode
  · obtain ⟨hdecode, hidx⟩ := hemit hb hphase
    have heven := heven hb
    rw [hlen, BitVec.lt_def] at hlt
    refine ⟨⟨hop, hlen, hsrc, hdst.write ?_ _⟩, fun _ => heven, fun _ hs => absurd (hphase.symm.trans hs) nofun,
      fun _ _ => ⟨hdecode, ?_⟩⟩
    · rw [hn hdecode, fromHexLength]; omega
    · simp only [hexDecodePair_idx, hexDecodePair_odx]; bv_omega
  · exact ⟨⟨hop, hlen, hsrc, hdst⟩, fun _ => heven hb, fun hb' => absurd hb' (not_busy_complete _),
      fun hb' => absurd hb' (not_busy_complete _)⟩

/-- FROMHEX or ISHEX on a unit that is not BUSY ends with hex_decoder as the command keeps it. -/
theorem hexDecoderCall_runs {op : OpCode} {len : LenWord} {n fuel : Nat} {s t : State}
    (hn : op.getLsbD 0 = false → n = fromHexLength len.toNat) (hb : ¬s.hexDecoder.regs.Busy)
    (h : hexDecoderOps.call fuel (acceptHexDecoder op len) s = .next t) :
    HexDecoder.Runs op len n s.hexDecoder t.hexDecoder := by
  obtain ⟨v, hv, rfl⟩ := call_induction hb h (HexDecoder.runs_accept op len n s.hexDecoder)
    fun _ _ => HexDecoder.runs_turn hn
  exact hv

/-! ## base32_encoder -/

/-- base32_encoder in the middle of TOBASE32 of `len` bytes, begun with the buffers of `u₀`: while BUSY, the bits taken
in are those written and those held, until the last character is filled with zero bits (42_base32_encoder.md R164 to
R166). -/
structure Base32Encoder.Runs (len : LenWord) (u₀ u : Base32Encoder) : Prop extends
    KeptByCommand 0b100#3 len (toBase32Length len.toNat) u₀.src u₀.dst u.regs u.src u.dst where
  fits : u.regs.Busy → toBase32Length len.toNat < 2 ^ 32
  bounds : u.regs.Busy → u.regs.idx.toNat ≤ len.toNat ∧ u.bits.toNat ≤ 7
  balance : u.regs.Busy → 5 * u.regs.odx.toNat + u.bits.toNat = 8 * u.regs.idx.toNat ∨
    (u.bits.toNat = 0 ∧ u.regs.idx.toNat = len.toNat)

/-- TOBASE32 starts so, the accumulator empty (R162). -/
theorem Base32Encoder.runs_accept {p : Params} (hp : p.Legal) (len : LenWord) (u : Base32Encoder) :
    Base32Encoder.Runs len u (acceptToBase32 p len u) where
  op_eq := by simp
  len_eq := by simp
  src_eq := rfl
  dst_same := .refl _ _
  fits hb := by
    obtain ⟨hle, -⟩ := acceptEncode_of_busy hb
    obtain ⟨-, -, hmax⟩ := hp
    simp only [Config.maxSigned32] at hmax
    unfold toBase32Length
    omega
  bounds hb := by
    have hbits : (acceptToBase32 p len u).bits = 0 := if_pos hb
    obtain ⟨-, hstart⟩ := acceptEncode_of_busy hb
    simp [hstart, hbits]
  balance hb := by
    have hbits : (acceptToBase32 p len u).bits = 0 := if_pos hb
    obtain ⟨-, hstart⟩ := acceptEncode_of_busy hb
    simp [hstart, hbits]

/-- A character written within the output leaves all that the command keeps. -/
theorem Base32Encoder.kept_emitSymbol {op : OpCode} {len : LenWord} {n : Nat} {src₀ : Buffer Byte} {dst₀ : Buffer Chr}
    {u : Base32Encoder} (h : KeptByCommand op len n src₀ dst₀ u.regs u.src u.dst) (hodx : u.regs.odx.toNat < n)
    (buf bits : Nat) (idx : LenWord) :
    KeptByCommand op len n src₀ dst₀ (base32EmitSymbol buf bits idx u).regs (base32EmitSymbol buf bits idx u).src
      (base32EmitSymbol buf bits idx u).dst :=
  ⟨h.op_eq, h.len_eq, h.src_eq, h.dst_same.write hodx _⟩

/-- Every step of TOBASE32 keeps this: five bits leave with each character, eight come with each byte, and only the last
character is filled. -/
theorem Base32Encoder.runs_turn {len : LenWord} {u₀ u v : Base32Encoder} (h : Base32Encoder.Runs len u₀ u)
    (hb : u.regs.Busy) (ht : base32EncoderTurn u = .next v) : Base32Encoder.Runs len u₀ v := by
  obtain ⟨hkept, hfits, hbounds, hbalance⟩ := h
  have hfits := hfits hb
  obtain ⟨hidx, hbits⟩ := hbounds hb
  have hbalance := hbalance hb
  have hlen := hkept.len_eq
  have hodx₁ : u.regs.odx.toNat < toBase32Length len.toNat → (u.regs.odx + 1).toNat = u.regs.odx.toNat + 1 := by
    bv_omega
  rcases base32EncoderTurn_cases ht with ⟨-, -, rfl⟩ | ⟨b, hlt5, hlt, -, rfl⟩ | ⟨hmore, hlt5, hge, rfl⟩ | ⟨h5, rfl⟩
  · exact ⟨⟨hkept.op_eq, hkept.len_eq, hkept.src_eq, hkept.dst_same⟩, fun _ => hfits,
      fun hb' => absurd hb' (not_busy_complete _), fun hb' => absurd hb' (not_busy_complete _)⟩
  · rw [hlen, BitVec.lt_def] at hlt
    have hidx₁ : (u.regs.idx + 1).toNat = u.regs.idx.toNat + 1 := by bv_omega
    have hodx : u.regs.odx.toNat < toBase32Length len.toNat := by unfold toBase32Length; omega
    refine ⟨kept_emitSymbol hkept hodx _ _ _, fun _ => hfits, fun _ => ?_, fun _ => ?_⟩
    · simp only [base32EmitSymbol_idx, base32EmitSymbol_bits, hidx₁, BitVec.toNat_ofNat]; omega
    · simp only [base32EmitSymbol_idx, base32EmitSymbol_bits, base32EmitSymbol_odx, hidx₁, hodx₁ hodx,
        BitVec.toNat_ofNat]
      omega
  · have hend : u.regs.idx.toNat = len.toNat := by rw [hlen, BitVec.lt_def] at hge; omega
    have hheld : u.bits.toNat ≠ 0 := fun h0 =>
      hmore ⟨BitVec.eq_of_toNat_eq h0, BitVec.eq_of_toNat_eq (hend.trans (by rw [hlen]))⟩
    have hodx : u.regs.odx.toNat < toBase32Length len.toNat := by unfold toBase32Length; omega
    exact ⟨kept_emitSymbol hkept hodx _ _ _, fun _ => hfits, fun _ => ⟨hidx, Nat.zero_le 7⟩, fun _ => .inr ⟨rfl, hend⟩⟩
  · have hodx : u.regs.odx.toNat < toBase32Length len.toNat := by unfold toBase32Length; omega
    refine ⟨kept_emitSymbol hkept hodx _ _ _, fun _ => hfits, fun _ => ?_, fun _ => ?_⟩
    · simp only [base32EmitSymbol_idx, base32EmitSymbol_bits, BitVec.toNat_ofNat]; omega
    · simp only [base32EmitSymbol_idx, base32EmitSymbol_bits, base32EmitSymbol_odx, hodx₁ hodx, BitVec.toNat_ofNat]
      omega

/-- TOBASE32 on a unit that is not BUSY ends with base32_encoder as the command keeps it. -/
theorem execToBase32_runs {len : LenWord} {s t : State} (hp : s.params.Legal) (hb : ¬s.base32Encoder.regs.Busy)
    (h : execToBase32 len s = .next t) : Base32Encoder.Runs len s.base32Encoder t.base32Encoder := by
  obtain ⟨v, hv, rfl⟩ := call_induction hb h (Base32Encoder.runs_accept hp len s.base32Encoder)
    fun _ _ => Base32Encoder.runs_turn
  exact hv

/-! ## base32_decoder -/

section TakeSymbol
variable (x : BitVec 5) (u : Base32Decoder)

@[simp] theorem base32TakeSymbol_src : (base32TakeSymbol x u).src = u.src := by
  simp only [base32TakeSymbol]; split <;> rfl

@[simp] theorem base32TakeSymbol_phase : (base32TakeSymbol x u).phase = u.phase := by
  simp only [base32TakeSymbol]; split <;> rfl

@[simp] theorem base32TakeSymbol_op : (base32TakeSymbol x u).regs.op = u.regs.op := by
  simp only [base32TakeSymbol]; split <;> rfl

@[simp] theorem base32TakeSymbol_len : (base32TakeSymbol x u).regs.len = u.regs.len := by
  simp only [base32TakeSymbol]; split <;> rfl

@[simp] theorem base32TakeSymbol_idx : (base32TakeSymbol x u).regs.idx = u.regs.idx + 1 := by
  simp only [base32TakeSymbol]; split <;> rfl

/-- A character taken in gives out one byte when eight bits or more are then held, and none otherwise (R189). -/
theorem base32TakeSymbol_cases :
    (3 ≤ u.bits.toNat ∧ (∃ b, (base32TakeSymbol x u).dst = u.dst.write u.regs.odx.toNat b) ∧
      (base32TakeSymbol x u).regs.odx = u.regs.odx + 1 ∧
      (base32TakeSymbol x u).bits = BitVec.ofNat 4 (u.bits.toNat + 5 - 8)) ∨
    (u.bits.toNat < 3 ∧ (base32TakeSymbol x u).dst = u.dst ∧ (base32TakeSymbol x u).regs.odx = u.regs.odx ∧
      (base32TakeSymbol x u).bits = BitVec.ofNat 4 (u.bits.toNat + 5)) := by
  by_cases h : 8 ≤ u.bits.toNat + 5
  · exact .inl ⟨by omega, by simp [base32TakeSymbol, h]⟩
  · exact .inr ⟨by omega, by simp [base32TakeSymbol, h]⟩

end TakeSymbol

/-- base32_decoder in the middle of an operation `op` on `len` characters with `n` bytes of output, begun with the
buffers of `u₀`: while BUSY, nothing has been written or is held in the SCAN pass, and in the EMIT pass the bits taken
in are those written and those held (43_base32_decoder.md R186 to R189). -/
structure Base32Decoder.Runs (op : OpCode) (len : LenWord) (n : Nat) (u₀ u : Base32Decoder) : Prop extends
    KeptByCommand op len n u₀.src u₀.dst u.regs u.src u.dst where
  scan : u.regs.Busy → u.phase = .scan → u.regs.odx = 0 ∧ u.bits = 0
  emit : u.regs.Busy → u.phase = .emit → op.getLsbD 0 = false ∧ u.bits.toNat ≤ 7 ∧
    8 * u.regs.odx.toNat + u.bits.toNat = 5 * u.regs.idx.toNat

/-- FROMBASE32 and ISBASE32 start so, in the SCAN pass, the accumulator empty (R185). -/
theorem Base32Decoder.runs_accept (op : OpCode) (len : LenWord) (n : Nat) (u : Base32Decoder) :
    Base32Decoder.Runs op len n u (acceptBase32Decoder op len u) where
  op_eq := by simp
  len_eq := by simp
  src_eq := rfl
  dst_same := .refl _ _
  scan hb _ := by
    obtain ⟨-, hstart⟩ := acceptDecode_of_busy hb
    exact ⟨by simp [hstart], if_pos hb⟩
  emit hb he := by
    have hscan : (acceptBase32Decoder op len u).phase = .scan := if_pos hb
    exact absurd (hscan.symm.trans he) nofun

/-- Every step of FROMBASE32 and ISBASE32 keeps this: a validation never leaves the SCAN pass; five bits come with each
character and eight leave with each byte. -/
theorem Base32Decoder.runs_turn {op : OpCode} {len : LenWord} {n : Nat} {u₀ u v : Base32Decoder}
    (hn : op.getLsbD 0 = false → n = fromBase32Length len.toNat) (h : Base32Decoder.Runs op len n u₀ u)
    (hb : u.regs.Busy) (ht : base32DecoderTurn u = .next v) : Base32Decoder.Runs op len n u₀ v := by
  obtain ⟨⟨hop, hlen, hsrc, hdst⟩, hscan, hemit⟩ := h
  rcases base32DecoderTurn_cases ht with ⟨c, hphase, -, -, rfl⟩ | ⟨hphase, -, rfl⟩ | ⟨c, x, hphase, hlt, -, -, rfl⟩ |
    ⟨-, -, rfl⟩
  · exact ⟨⟨by simpa using hop, by simpa using hlen, hsrc, hdst⟩, fun _ _ => by simpa using hscan hb hphase,
      fun _ he => absurd (hphase.symm.trans he) nofun⟩
  · refine ⟨⟨by simpa using hop, by simpa using hlen, hsrc, hdst⟩, fun hb' hs => ?_, fun hb' _ => ?_⟩
    · obtain ⟨-, hend⟩ := scanEnd_of_busy hb'
      simp [hend] at hs
    · obtain ⟨hdecode, hend⟩ := scanEnd_of_busy hb'
      obtain ⟨hodx, hbits⟩ := hscan hb hphase
      simpa [hend, hodx, hbits, hop, Regs.Validates] using hdecode
  · obtain ⟨hdecode, hbits, hidx⟩ := hemit hb hphase
    have hn := hn hdecode
    rw [hlen, BitVec.lt_def] at hlt
    unfold fromBase32Length at hn
    have hnoscan : (base32TakeSymbol x u).phase ≠ .scan := by simp [hphase]
    have hidx₁ : (u.regs.idx + 1).toNat = u.regs.idx.toNat + 1 := by bv_omega
    rcases base32TakeSymbol_cases x u with ⟨h8, ⟨b, hd⟩, ho, hbits'⟩ | ⟨h8, hd, ho, hbits'⟩
    · refine ⟨⟨by simpa using hop, by simpa using hlen, by simpa using hsrc, hd ▸ hdst.write ?_ b⟩,
        fun _ hs => absurd hs hnoscan, fun _ _ => ⟨hdecode, ?_⟩⟩
      · omega
      · have hodx₁ : (u.regs.odx + 1).toNat = u.regs.odx.toNat + 1 := by bv_omega
        rw [ho, hbits', base32TakeSymbol_idx, hidx₁, hodx₁, BitVec.toNat_ofNat, Nat.mod_eq_of_lt (by omega)]
        omega
    · refine ⟨⟨by simpa using hop, by simpa using hlen, by simpa using hsrc, hd ▸ hdst⟩,
        fun _ hs => absurd hs hnoscan, fun _ _ => ⟨hdecode, ?_⟩⟩
      rw [ho, hbits', base32TakeSymbol_idx, hidx₁, BitVec.toNat_ofNat, Nat.mod_eq_of_lt (by omega)]
      omega
  · exact ⟨⟨hop, hlen, hsrc, hdst⟩, fun hb' => absurd hb' (not_busy_complete _),
      fun hb' => absurd hb' (not_busy_complete _)⟩

/-- FROMBASE32 or ISBASE32 on a unit that is not BUSY ends with base32_decoder as the command keeps it. -/
theorem base32DecoderCall_runs {op : OpCode} {len : LenWord} {n fuel : Nat} {s t : State}
    (hn : op.getLsbD 0 = false → n = fromBase32Length len.toNat) (hb : ¬s.base32Decoder.regs.Busy)
    (h : base32DecoderOps.call fuel (acceptBase32Decoder op len) s = .next t) :
    Base32Decoder.Runs op len n s.base32Decoder t.base32Decoder := by
  obtain ⟨v, hv, rfl⟩ := call_induction hb h (Base32Decoder.runs_accept op len n s.base32Decoder)
    fun _ _ => Base32Decoder.runs_turn hn
  exact hv

/-! ## The frame of a command -/

/-- What a command keeps of its unit `u`, as seen in the state. -/
def KeptInUnit (u : UnitId) (op : OpCode) (len : LenWord) (n : Nat) (s t : State) : Prop :=
  (∀ k, t.srcRead u k = s.srcRead u k) ∧ (∀ k, n ≤ k → t.dstRead u k = s.dstRead u k) ∧
    (t.regsOf u).op = op ∧ (t.regsOf u).len = len

section KeptInUnit
variable {op : OpCode} {len : LenWord} {n : Nat} {s t : State}

theorem keptInUnit_hexEncoder (h : KeptByCommand op len n s.hexEncoder.src s.hexEncoder.dst t.hexEncoder.regs
    t.hexEncoder.src t.hexEncoder.dst) : KeptInUnit .hexEncoder op len n s t :=
  ⟨fun k => by simp [State.srcRead, h.src_eq], fun k hk => by simp [State.dstRead, h.dst_same k hk], h.op_eq, h.len_eq⟩

theorem keptInUnit_hexDecoder (h : KeptByCommand op len n s.hexDecoder.src s.hexDecoder.dst t.hexDecoder.regs
    t.hexDecoder.src t.hexDecoder.dst) : KeptInUnit .hexDecoder op len n s t :=
  ⟨fun k => by simp [State.srcRead, h.src_eq], fun k hk => by simp [State.dstRead, h.dst_same k hk], h.op_eq, h.len_eq⟩

theorem keptInUnit_base32Encoder (h : KeptByCommand op len n s.base32Encoder.src s.base32Encoder.dst
    t.base32Encoder.regs t.base32Encoder.src t.base32Encoder.dst) : KeptInUnit .base32Encoder op len n s t :=
  ⟨fun k => by simp [State.srcRead, h.src_eq], fun k hk => by simp [State.dstRead, h.dst_same k hk], h.op_eq, h.len_eq⟩

theorem keptInUnit_base32Decoder (h : KeptByCommand op len n s.base32Decoder.src s.base32Decoder.dst
    t.base32Decoder.regs t.base32Decoder.src t.base32Decoder.dst) : KeptInUnit .base32Decoder op len n s t :=
  ⟨fun k => by simp [State.srcRead, h.src_eq], fun k hk => by simp [State.dstRead, h.dst_same k hk], h.op_eq, h.len_eq⟩

end KeptInUnit

/-- A command on a unit that is not BUSY keeps SRC, DST beyond its output, and OP and LEN as its own. -/
theorem exec_keptInUnit {i : Instr} {s t : State} (hp : s.params.Legal) (hb : ¬(s.regsOf (unitOf i)).Busy)
    (h : exec i s = .next t) : KeptInUnit (unitOf i) (opcode i) i.len (outputLength i) s t := by
  cases i with
  | toHex len =>
    rw [unitOf_toHex] at hb ⊢
    exact keptInUnit_hexEncoder (execToHex_runs hp hb h).toKeptByCommand
  | fromHex len =>
    rw [unitOf_fromHex] at hb ⊢
    exact keptInUnit_hexDecoder (hexDecoderCall_runs (fun _ => rfl) hb h).toKeptByCommand
  | isHex len =>
    rw [unitOf_isHex] at hb ⊢
    exact keptInUnit_hexDecoder (hexDecoderCall_runs (fun hd => absurd hd (by decide)) hb h).toKeptByCommand
  | toBase32 len =>
    rw [unitOf_toBase32] at hb ⊢
    exact keptInUnit_base32Encoder (execToBase32_runs hp hb h).toKeptByCommand
  | fromBase32 len =>
    rw [unitOf_fromBase32] at hb ⊢
    exact keptInUnit_base32Decoder (base32DecoderCall_runs (fun _ => rfl) hb h).toKeptByCommand
  | isBase32 len =>
    rw [unitOf_isBase32] at hb ⊢
    exact keptInUnit_base32Decoder (base32DecoderCall_runs (fun hd => absurd hd (by decide)) hb h).toKeptByCommand

/-- Settles O35: a command changes its own unit only, and each step of it writes DST at ODX, which the progress of the
command holds below its output length. -/
theorem commandLeavesTheRestAlone : Obligations.CommandLeavesTheRestAlone :=
  fun _ _ _ hp hb h => ⟨exec_sameOutside h, exec_keptInUnit hp hb h⟩

end Sys2Proof.Machine

/-! PROOFS. Acceptance, the SCAN pass and the ends of a command keep a unit's registers sound (10_state.md R23 to R33,
R49). -/

namespace Sys2Proof.Machine

/-! ## Buffers -/

/-- Nothing lies below an index register that is 0. -/
theorem Buffer.writtenBelow_of_eq_zero {α : Type} (b : Buffer α) {n : LenWord} (h : n = 0) :
    b.WrittenBelow n.toNat := by
  subst h
  exact nofun

/-- Nothing lies below an index register that is 0. -/
theorem Buffer.validBelow_of_eq_zero {β : Type} (val : Chr → Option β) (b : Buffer Chr) {n : LenWord} (h : n = 0) :
    b.ValidBelow val n.toNat := by
  subst h
  exact nofun

/-- The element next to those written below `n` joins them. -/
theorem Buffer.WrittenBelow.write {α : Type} {b : Buffer α} {n : Nat} (h : b.WrittenBelow n) (v : α) :
    (b.write n v).WrittenBelow (n + 1) := by
  intro i hi
  rw [Buffer.read_write]
  split
  · rfl
  · exact h i (by omega)

/-- The valid character next to those below `n` joins them. -/
theorem Buffer.ValidBelow.succ {β : Type} {val : Chr → Option β} {b : Buffer Chr} {n : Nat} {c : Chr}
    (h : b.ValidBelow val n) (hc : b.read n = some c) (hv : (val c).isSome) : b.ValidBelow val (n + 1) := by
  intro i hi
  rcases Nat.lt_succ_iff_lt_or_eq.mp hi with hlt | rfl
  · exact h i hlt
  · simpa [hc] using hv

/-- A reset keeps every character of DST within its width. -/
theorem codesFit_dstAfterReset {charW : Nat} {r : Regs} {b : Buffer Chr} (h : b.codesFit charW = true) :
    (dstAfterReset r b).codesFit charW = true := by
  unfold dstAfterReset
  split
  · exact Buffer.codesFit_forgetBelow _ h
  · exact h

/-! ## Lengths -/

/-- A legal bound keeps the output length of TOHEX within 32 bits (92_eei_decisions.md). -/
theorem toHexLength_lt {p : Params} (hp : p.Legal) {n : Nat} (hn : n ≤ p.hexMaxIn) : toHexLength n < 2 ^ 32 := by
  obtain ⟨-, hmax, -⟩ := hp
  simp only [Config.maxSigned32] at hmax
  unfold toHexLength
  omega

/-- A legal bound keeps the output length of TOBASE32 within 32 bits (92_eei_decisions.md). -/
theorem toBase32Length_lt {p : Params} (hp : p.Legal) {n : Nat} (hn : n ≤ p.b32MaxIn) : toBase32Length n < 2 ^ 32 := by
  obtain ⟨-, -, hmax⟩ := hp
  simp only [Config.maxSigned32] at hmax
  unfold toBase32Length
  omega

theorem fromHexLength_le (n : Nat) : fromHexLength n ≤ n := by unfold fromHexLength; omega

theorem fromBase32Length_le (n : Nat) : fromBase32Length n ≤ n := by unfold fromBase32Length; omega

/-! ## The registers of an encoder -/

section EncoderRegs
variable {op : OpCode} {maxIn : Nat} {outLength : Nat → Nat} {r : Regs}

/-- A command that ends at its acceptance has no output. -/
theorem acceptEncode_outlen_of_done {len : LenWord} (h : (acceptEncode op maxIn outLength len r).status.state = .done) :
    (acceptEncode op maxIn outLength len r).outlen = 0 := by
  rcases acceptEncode_cases op maxIn outLength len r with ⟨-, e⟩ | ⟨-, -, e⟩ | ⟨-, -, e⟩
  · simp [e]
  · simp [e]
  · simp [e] at h

/-- Acceptance makes the registers sound, whatever they held (R201). -/
theorem EncoderRegsInv.accept (len : LenWord) (h0 : outLength 0 = 0) (hfit : ∀ n ≤ maxIn, outLength n < 2 ^ 32) :
    EncoderRegsInv op maxIn outLength (acceptEncode op maxIn outLength len r) := by
  rcases acceptEncode_cases op maxIn outLength len r with ⟨-, e⟩ | ⟨-, hlen, e⟩ | ⟨hle, hne, e⟩ <;> rw [e]
  · constructor <;> simp
  · constructor <;> simp [hlen, h0]
  · have hpos : 0 < len.toNat := by bv_omega
    have hlt : outLength len.toNat < 4294967296 := hfit _ hle
    constructor <;> simp [hpos, hle, hlt]

/-- While BUSY there is no error and RESULT is 0. -/
theorem EncoderRegsInv.status_of_busy (h : EncoderRegsInv op maxIn outLength r) (hb : r.Busy) :
    r.status = ⟨.busy, .none, false⟩ := by
  have hr := h.result_false
  have he : r.status.err = .none := by
    by_contra hne
    exact absurd (hb.symm.trans (h.err_done hne).1) nofun
  rw [← hb, ← he, ← hr]

/-- While BUSY, OUTLEN is the output length of the command (R25). -/
theorem EncoderRegsInv.outlen_of_busy (h : EncoderRegsInv op maxIn outLength r) (hb : r.Busy) :
    r.outlen.toNat = outLength r.len.toNat := by
  have hs := h.status_of_busy hb
  exact h.outlen_eq (by simp [hs]) (by simp [hs])

/-- The end of a command keeps the registers sound. -/
theorem EncoderRegsInv.complete (h : EncoderRegsInv op maxIn outLength r) (hb : r.Busy) :
    EncoderRegsInv op maxIn outLength (complete r) where
  op_eq := h.op_eq
  result_false := h.result_false
  err_legal := .inl rfl
  err_done hne := absurd rfl hne
  idle_zero := nofun
  busy_len := nofun
  outlen_eq _ _ := h.outlen_of_busy hb
  idx_le := nofun
  odx_le := nofun

/-- Moving IDX and ODX on within LEN and OUTLEN keeps the registers sound. -/
theorem EncoderRegsInv.advance (h : EncoderRegsInv op maxIn outLength r) {i o : LenWord} (hi : i.toNat ≤ r.len.toNat)
    (ho : o.toNat ≤ r.outlen.toNat) : EncoderRegsInv op maxIn outLength { r with idx := i, odx := o } :=
  { h with idx_le := fun _ => hi, odx_le := fun _ => ho }

/-- The reset values are sound (R49). -/
theorem EncoderRegsInv.afterReset (op : OpCode) (maxIn : Nat) (outLength : Nat → Nat) :
    EncoderRegsInv op maxIn outLength (.afterReset op) := by
  constructor <;> simp [Regs.afterReset]

end EncoderRegs

/-! ## The registers of a decoder -/

section DecoderRegs
variable {decodeOp checkOp : OpCode} {lengthOk : Nat → Bool} {outLength : Nat → Nat} {r : Regs}

/-- A command that ends at its acceptance has no output. -/
theorem acceptDecode_outlen_of_done {op : OpCode} {len : LenWord}
    (h : (acceptDecode op lengthOk outLength len r).status.state = .done) :
    (acceptDecode op lengthOk outLength len r).outlen = 0 := by
  rcases acceptDecode_cases op lengthOk outLength len r with ⟨-, -, e⟩ | ⟨-, -, e⟩ | ⟨-, -, e⟩ | ⟨-, -, e⟩
  · simp [e]
  · simp [e]
  · simp [e]
  · simp [e] at h

/-- The end of a decode with an error keeps the registers sound (R236). -/
theorem DecoderRegsInv.raise {e : Err} (hop : r.op = decodeOp) (hr : e ≠ .outOfRange) (hn : e ≠ .none) :
    DecoderRegsInv decodeOp checkOp lengthOk outLength (raise e r) where
  op_legal := .inl hop
  result_check := nofun
  err_legal := hr
  err_done _ := ⟨rfl, rfl, hop⟩
  idle_zero := nofun
  busy_len := nofun
  outlen_check _ := rfl
  outlen_decode _ he := absurd he hn
  idx_le := nofun
  odx_le := nofun

/-- Acceptance of either operation makes the registers sound, whatever they held (R201). -/
theorem DecoderRegsInv.accept {op : OpCode} (len : LenWord) (hop : op = decodeOp ∨ op = checkOp)
    (hdecode : decodeOp.getLsbD 0 = false) (hcheck : checkOp.getLsbD 0 = true) (hle : ∀ n, outLength n ≤ n) :
    DecoderRegsInv decodeOp checkOp lengthOk outLength (acceptDecode op lengthOk outLength len r) := by
  have hne : decodeOp ≠ checkOp := fun h => absurd (hdecode.symm.trans (h ▸ hcheck)) Bool.false_ne_true
  have h0 : outLength 0 = 0 := Nat.le_zero.mp (hle 0)
  have hfit : outLength len.toNat < 4294967296 := (hle _).trans_lt len.isLt
  rcases acceptDecode_cases op lengthOk outLength len r with ⟨-, hv, e⟩ | ⟨-, hv, e⟩ | ⟨-, hlen, e⟩ | ⟨hok, hlen, e⟩
  · have hop : op = checkOp := hop.resolve_left fun h => absurd (hdecode.symm.trans (h ▸ hv)) Bool.false_ne_true
    rw [e]
    constructor <;> simp [hop, hne.symm]
  · have hop : op = decodeOp := hop.resolve_right fun h => absurd (hv.symm.trans (h ▸ hcheck)) Bool.false_ne_true
    exact e ▸ DecoderRegsInv.raise hop nofun nofun
  · rcases hop with rfl | rfl
    · rw [e, hdecode]
      constructor <;> simp [hlen, h0]
    · rw [e, hcheck]
      constructor <;> simp [hlen, h0]
  · have hpos : 0 < len.toNat := by bv_omega
    rcases hop with rfl | rfl
    · rw [e, hdecode, if_neg Bool.false_ne_true]
      constructor <;> simp [hok, hpos, hne, hfit]
    · rw [e, hcheck, if_pos rfl]
      constructor <;> simp [hok, hpos, hne.symm]

/-- While BUSY there is no error and RESULT is 0. -/
theorem DecoderRegsInv.status_of_busy (h : DecoderRegsInv decodeOp checkOp lengthOk outLength r) (hb : r.Busy) :
    r.status = ⟨.busy, .none, false⟩ := by
  have hr : r.status.result = false := by
    by_contra ht
    exact absurd (hb.symm.trans (h.result_check (by simpa using ht)).2) nofun
  have he : r.status.err = .none := by
    by_contra hne
    exact absurd (hb.symm.trans (h.err_done hne).1) nofun
  rw [← hb, ← he, ← hr]

/-- While BUSY, OUTLEN of a decode is its output length (R25). -/
theorem DecoderRegsInv.outlen_of_busy (h : DecoderRegsInv decodeOp checkOp lengthOk outLength r) (hb : r.Busy)
    (hop : r.op = decodeOp) : r.outlen.toNat = outLength r.len.toNat := by
  have hs := h.status_of_busy hb
  exact h.outlen_decode hop (by simp [hs]) (by simp [hs])

/-- The end of a command without error keeps the registers sound, where only a validation answers true (R30). -/
theorem DecoderRegsInv.complete (h : DecoderRegsInv decodeOp checkOp lengthOk outLength r) (hb : r.Busy) {b : Bool}
    (hres : b = true → r.op = checkOp) :
    DecoderRegsInv decodeOp checkOp lengthOk outLength (complete (setResult b r)) where
  op_legal := h.op_legal
  result_check ht := ⟨hres ht, rfl⟩
  err_legal := nofun
  err_done hne := absurd rfl hne
  idle_zero := nofun
  busy_len := nofun
  outlen_check := h.outlen_check
  outlen_decode hop _ _ := h.outlen_of_busy hb hop
  idx_le := nofun
  odx_le := nofun

/-- Moving IDX and ODX on within LEN and OUTLEN keeps the registers sound. -/
theorem DecoderRegsInv.advance (h : DecoderRegsInv decodeOp checkOp lengthOk outLength r) {i o : LenWord}
    (hi : i.toNat ≤ r.len.toNat) (ho : o.toNat ≤ r.outlen.toNat) :
    DecoderRegsInv decodeOp checkOp lengthOk outLength { r with idx := i, odx := o } :=
  { h with idx_le := fun _ => hi, odx_le := fun _ => ho }

/-- A unit that goes on after a check of a character found it valid. -/
theorem scanOne_of_busy {valid : Bool} (hb : (Machine.scanOne valid r).Busy) :
    valid = true ∧ Machine.scanOne valid r = { r with idx := r.idx + 1 } := by
  rcases scanOne_cases valid r with h | ⟨-, -, e⟩ | ⟨-, -, e⟩
  · exact h
  · exact absurd (e ▸ hb) (not_busy_complete _)
  · exact absurd (e ▸ hb) (not_busy_raise _ _)

/-- A command that is no validation is a decode (R23). -/
theorem DecoderRegsInv.op_of_not_validates (h : DecoderRegsInv decodeOp checkOp lengthOk outLength r)
    (hcheck : checkOp.getLsbD 0 = true) (hv : ¬r.Validates) : r.op = decodeOp :=
  h.op_legal.resolve_right fun hop => hv (by rwa [Regs.Validates, hop])

/-- A validation is the checking operation (R23). -/
theorem DecoderRegsInv.op_of_validates (h : DecoderRegsInv decodeOp checkOp lengthOk outLength r)
    (hdecode : decodeOp.getLsbD 0 = false) (hv : r.Validates) : r.op = checkOp :=
  h.op_legal.resolve_left fun hop => absurd (hdecode.symm.trans (hop ▸ hv)) Bool.false_ne_true

/-- A character checked keeps the registers sound. -/
theorem DecoderRegsInv.scanOne (h : DecoderRegsInv decodeOp checkOp lengthOk outLength r) (hb : r.Busy)
    (hcheck : checkOp.getLsbD 0 = true) (hlt : r.idx < r.len) (valid : Bool) :
    DecoderRegsInv decodeOp checkOp lengthOk outLength (scanOne valid r) := by
  rcases scanOne_cases valid r with ⟨-, e⟩ | ⟨-, -, e⟩ | ⟨-, hv, e⟩
  · rw [e]
    exact h.advance (by bv_omega) (h.odx_le hb)
  · rw [e]
    exact h.complete hb nofun
  · rw [e]
    exact .raise (h.op_of_not_validates hcheck hv) nofun nofun

/-- The end of the scan keeps the registers sound. -/
theorem DecoderRegsInv.scanEnd (h : DecoderRegsInv decodeOp checkOp lengthOk outLength r) (hb : r.Busy)
    (hdecode : decodeOp.getLsbD 0 = false) : DecoderRegsInv decodeOp checkOp lengthOk outLength (scanEnd r).1 := by
  rcases scanEnd_cases r with ⟨hv, e⟩ | ⟨-, e⟩
  · rw [e]
    exact h.complete hb fun _ => h.op_of_validates hdecode hv
  · rw [e]
    exact h.advance (Nat.zero_le _) (h.odx_le hb)

/-- A scan that ends the command at a character has no output. -/
theorem DecoderRegsInv.scanOne_outlen_of_done (h : DecoderRegsInv decodeOp checkOp lengthOk outLength r) (hb : r.Busy)
    (hdecode : decodeOp.getLsbD 0 = false) {valid : Bool}
    (hd : (Machine.scanOne valid r).status.state = .done) : (Machine.scanOne valid r).outlen = 0 := by
  rcases scanOne_cases valid r with ⟨-, e⟩ | ⟨-, hv, e⟩ | ⟨-, -, e⟩ <;> rw [e] at hd ⊢
  · exact absurd (hb.symm.trans hd) nofun
  · exact h.outlen_check (h.op_of_validates hdecode hv)
  · rfl

/-- A scan that ends the command at the end of the source has no output. -/
theorem DecoderRegsInv.scanEnd_outlen_of_done (h : DecoderRegsInv decodeOp checkOp lengthOk outLength r) (hb : r.Busy)
    (hdecode : decodeOp.getLsbD 0 = false) (hd : (Machine.scanEnd r).1.status.state = .done) :
    (Machine.scanEnd r).1.outlen = 0 := by
  rcases scanEnd_cases r with ⟨hv, e⟩ | ⟨-, e⟩ <;> rw [e] at hd ⊢
  · exact h.outlen_check (h.op_of_validates hdecode hv)
  · exact absurd (hb.symm.trans hd) nofun

/-- The reset values are sound (R49). -/
theorem DecoderRegsInv.afterReset (hne : decodeOp ≠ checkOp) :
    DecoderRegsInv decodeOp checkOp lengthOk outLength (.afterReset decodeOp) := by
  constructor <;> simp [Regs.afterReset, hne]

end DecoderRegs

end Sys2Proof.Machine

/-! PROOFS. Acceptance, every step and a reset keep each unit sound (40_hex_encoder.md R132 to R134, 41_hex_decoder.md
R145 to R149, 42_base32_encoder.md R162 to R166, 43_base32_decoder.md R185 to R190). -/

namespace Sys2Proof.Machine

/-! ## hex_encoder -/

/-- Acceptance keeps hex_encoder sound (R132). -/
theorem HexEncoder.inv_accept {p : Params} (hp : p.Legal) {u : HexEncoder} (h : u.Inv p) (len : LenWord)
    (hready : (acceptToHex p len u).regs.Busy → hexEncoderOps.sourceReady (acceptToHex p len u) = true) :
    (acceptToHex p len u).Inv p where
  regs := .accept len rfl fun _ => toHexLength_lt hp
  src_wf := h.src_wf
  dst_wf := h.dst_wf
  dst_codes := h.dst_codes
  src_written hb := (Buffer.allWritten_iff _ _).mp (hready hb)
  odx_eq hb := by
    obtain ⟨-, hstart⟩ := acceptEncode_of_busy hb
    simp [hstart]
  dst_progress hb := by
    obtain ⟨-, hstart⟩ := acceptEncode_of_busy hb
    exact Buffer.writtenBelow_of_eq_zero _ (by simp [hstart])
  dst_done hd := Buffer.writtenBelow_of_eq_zero _ (acceptEncode_outlen_of_done hd)

/-- Every step keeps hex_encoder sound (R133, R134). -/
theorem HexEncoder.inv_turn {p : Params} (hp : p.Legal) {u v : HexEncoder} (h : u.Inv p) (hb : u.regs.Busy)
    (ht : hexEncoderTurn u = .next v) : v.Inv p := by
  have hodx := h.odx_eq hb
  have hout := h.regs.outlen_of_busy hb
  have hwritten := h.dst_progress hb
  unfold toHexLength at hout
  rcases hexEncoderTurn_cases ht with ⟨b, hlt, -, rfl⟩ | ⟨hend, rfl⟩
  · rw [BitVec.lt_def] at hlt
    have hidx₁ : (u.regs.idx + 1).toNat = u.regs.idx.toNat + 1 := by bv_omega
    have hodx₁ : (u.regs.odx + 1).toNat = u.regs.odx.toNat + 1 := by bv_omega
    have hodx₂ : (u.regs.odx + 2).toNat = u.regs.odx.toNat + 1 + 1 := by bv_omega
    exact {
      regs := h.regs.advance (by omega) (by omega)
      src_wf := h.src_wf
      dst_wf := Buffer.wf_write_reg _ _ (Buffer.wf_write_reg _ _ h.dst_wf)
      dst_codes := Buffer.codesFit_write (Buffer.codesFit_write h.dst_codes (code_fits hp (hexAlpha_lt _)))
        (code_fits hp (hexAlpha_lt _))
      src_written := h.src_written
      odx_eq := fun _ => by simp only [hexEncodeByte_idx, hexEncodeByte_odx]; omega
      dst_progress := fun _ => by
        rw [hexEncodeByte_odx, hodx₂]
        exact hodx₁ ▸ (hwritten.write _).write _
      dst_done := fun hd => absurd (hb.symm.trans hd) nofun }
  · have hfull : u.regs.odx.toNat = u.regs.outlen.toNat := by rw [hodx, hout, hend]
    exact {
      regs := h.regs.complete hb
      src_wf := h.src_wf
      dst_wf := h.dst_wf
      dst_codes := h.dst_codes
      src_written := nofun
      odx_eq := nofun
      dst_progress := nofun
      dst_done := fun _ => hfull ▸ hwritten }

/-- hex_encoder after a reset is sound, whatever of DST is left (R49, R261). -/
theorem HexEncoder.inv_afterReset {p : Params} {dst : Buffer Chr} (hwf : dst.wf = true)
    (hcodes : dst.codesFit p.charW = true) : HexEncoder.Inv p { State.reset.hexEncoder with dst := dst } where
  regs := .afterReset _ _ _
  src_wf := rfl
  dst_wf := hwf
  dst_codes := hcodes
  src_written := nofun
  odx_eq := nofun
  dst_progress := nofun
  dst_done := nofun

/-! ## hex_decoder -/

/-- Acceptance keeps hex_decoder sound (R145). -/
theorem HexDecoder.inv_accept {p : Params} {u : HexDecoder} (h : u.Inv p) {op : OpCode}
    (hop : op = 0b010#3 ∨ op = 0b011#3) (len : LenWord)
    (hready : (acceptHexDecoder op len u).regs.Busy → hexDecoderOps.sourceReady (acceptHexDecoder op len u) = true) :
    (acceptHexDecoder op len u).Inv p where
  regs := .accept len hop rfl rfl fromHexLength_le
  src_wf := h.src_wf
  dst_wf := h.dst_wf
  src_codes := h.src_codes
  src_written hb := (Buffer.allWritten_iff _ _).mp (hready hb)
  scan hb _ := by
    obtain ⟨-, hstart⟩ := acceptDecode_of_busy hb
    exact ⟨by simp [hstart], Buffer.validBelow_of_eq_zero _ _ (by simp [hstart])⟩
  emit hb he := by
    have hscan : (acceptHexDecoder op len u).phase = .scan := if_pos hb
    exact absurd (hscan.symm.trans he) nofun
  dst_progress hb := by
    obtain ⟨-, hstart⟩ := acceptDecode_of_busy hb
    exact Buffer.writtenBelow_of_eq_zero _ (by simp [hstart])
  dst_done hd := Buffer.writtenBelow_of_eq_zero _ (acceptDecode_outlen_of_done hd)

/-- A step of the SCAN pass keeps hex_decoder sound (R146). -/
theorem HexDecoder.inv_scanOne {p : Params} {u : HexDecoder} (h : u.Inv p) (hb : u.regs.Busy) (hphase : u.phase = .scan)
    (hlt : u.regs.idx < u.regs.len) {c : Chr} (hc : u.src.read u.regs.idx.toNat = some c) :
    HexDecoder.Inv p { u with regs := scanOne (hexval c).isSome u.regs } where
  regs := h.regs.scanOne hb rfl hlt _
  src_wf := h.src_wf
  dst_wf := h.dst_wf
  src_codes := h.src_codes
  src_written _ := by simpa using h.src_written hb
  scan hb' _ := by
    obtain ⟨hvalid, e⟩ := scanOne_of_busy hb'
    obtain ⟨hodx, hchecked⟩ := h.scan hb hphase
    have hidx₁ : (u.regs.idx + 1).toNat = u.regs.idx.toNat + 1 := by bv_omega
    rw [e]
    exact ⟨hodx, hidx₁ ▸ hchecked.succ hc hvalid⟩
  emit _ he := absurd (hphase.symm.trans he) nofun
  dst_progress _ := by simpa using h.dst_progress hb
  dst_done hd := Buffer.writtenBelow_of_eq_zero _ (h.regs.scanOne_outlen_of_done hb rfl hd)

/-- The end of the SCAN pass keeps hex_decoder sound (R147). -/
theorem HexDecoder.inv_scanEnd {p : Params} {u : HexDecoder} (h : u.Inv p) (hb : u.regs.Busy) (hphase : u.phase = .scan)
    (hend : u.regs.idx = u.regs.len) :
    HexDecoder.Inv p { u with regs := (scanEnd u.regs).1, phase := (scanEnd u.regs).2 } where
  regs := h.regs.scanEnd hb rfl
  src_wf := h.src_wf
  dst_wf := h.dst_wf
  src_codes := h.src_codes
  src_written _ := by simpa using h.src_written hb
  scan hb' hs := by
    obtain ⟨-, e⟩ := scanEnd_of_busy hb'
    simp [e] at hs
  emit hb' _ := by
    obtain ⟨hv, e⟩ := scanEnd_of_busy hb'
    obtain ⟨hodx, hchecked⟩ := h.scan hb hphase
    rw [e]
    exact ⟨h.regs.op_of_not_validates rfl hv, by simp [hodx], hend ▸ hchecked⟩
  dst_progress hb' := by
    obtain ⟨-, e⟩ := scanEnd_of_busy hb'
    rw [e]
    exact h.dst_progress hb
  dst_done hd := Buffer.writtenBelow_of_eq_zero _ (h.regs.scanEnd_outlen_of_done hb rfl hd)

/-- A step of the EMIT pass keeps hex_decoder sound: IDX moves by two where ODX moves by one (R148). -/
theorem HexDecoder.inv_decodePair {p : Params} {u : HexDecoder} (h : u.Inv p) (hb : u.regs.Busy)
    (hphase : u.phase = .emit) (hlt : u.regs.idx < u.regs.len) (hi lo : BitVec 4) : (hexDecodePair hi lo u).Inv p := by
  obtain ⟨hop, hidx, hvalid⟩ := h.emit hb hphase
  obtain ⟨-, heven⟩ := h.regs.busy_len hb
  have hout := h.regs.outlen_of_busy hb hop
  simp only [hexLengthOk, beq_iff_eq] at heven
  unfold fromHexLength at hout
  rw [BitVec.lt_def] at hlt
  have hidx₂ : (u.regs.idx + 2).toNat = u.regs.idx.toNat + 2 := by bv_omega
  have hodx₁ : (u.regs.odx + 1).toNat = u.regs.odx.toNat + 1 := by bv_omega
  exact {
    regs := h.regs.advance (by omega) (by omega)
    src_wf := h.src_wf
    dst_wf := Buffer.wf_write_reg _ _ h.dst_wf
    src_codes := h.src_codes
    src_written := h.src_written
    scan := fun _ hs => absurd (hphase.symm.trans hs) nofun
    emit := fun _ _ => ⟨hop, by simp only [hexDecodePair_idx, hexDecodePair_odx]; omega, hvalid⟩
    dst_progress := fun _ => by
      rw [hexDecodePair_odx, hodx₁]
      exact (h.dst_progress hb).write _
    dst_done := fun hd => absurd (hb.symm.trans hd) nofun }

/-- The end of the EMIT pass keeps hex_decoder sound (R149). -/
theorem HexDecoder.inv_complete {p : Params} {u : HexDecoder} (h : u.Inv p) (hb : u.regs.Busy)
    (hphase : u.phase = .emit) (hend : u.regs.idx = u.regs.len) :
    HexDecoder.Inv p { u with regs := complete u.regs } := by
  obtain ⟨hop, hidx, -⟩ := h.emit hb hphase
  have hout := h.regs.outlen_of_busy hb hop
  have hfull : u.regs.odx.toNat = u.regs.outlen.toNat := by
    rw [hout, ← hend, fromHexLength]
    omega
  exact {
    regs := h.regs.complete hb fun hr => by simp [h.regs.status_of_busy hb] at hr
    src_wf := h.src_wf
    dst_wf := h.dst_wf
    src_codes := h.src_codes
    src_written := nofun
    scan := nofun
    emit := nofun
    dst_progress := nofun
    dst_done := fun _ => hfull ▸ h.dst_progress hb }

/-- Every step keeps hex_decoder sound. -/
theorem HexDecoder.inv_turn {p : Params} {u v : HexDecoder} (h : u.Inv p) (hb : u.regs.Busy)
    (ht : hexDecoderTurn u = .next v) : v.Inv p := by
  rcases hexDecoderTurn_cases ht with ⟨c, hphase, hlt, hc, rfl⟩ | ⟨hphase, hend, rfl⟩ |
    ⟨c₁, c₂, hi, lo, hphase, hlt, -, -, -, -, rfl⟩ | ⟨hphase, hend, rfl⟩
  · exact inv_scanOne h hb hphase hlt hc
  · exact inv_scanEnd h hb hphase hend
  · exact inv_decodePair h hb hphase hlt hi lo
  · exact inv_complete h hb hphase hend

/-- hex_decoder after a reset is sound, whatever of DST is left (R49, R261). -/
theorem HexDecoder.inv_afterReset {p : Params} {dst : Buffer Byte} (hwf : dst.wf = true) :
    HexDecoder.Inv p { State.reset.hexDecoder with dst := dst } where
  regs := .afterReset (by decide)
  src_wf := rfl
  dst_wf := hwf
  src_codes := rfl
  src_written := nofun
  scan := nofun
  emit := nofun
  dst_progress := nofun
  dst_done := nofun

/-! ## The accumulator -/

/-- The low `k` bits of a number are below `2 ^ k`, as the registers BUF and BITS hold them (10_state.md R36). -/
theorem masked_lt {k : Nat} (n : Nat) (hk : k < 16) :
    (BitVec.ofNat 12 (n &&& (1 <<< k - 1))).toNat < 2 ^ (BitVec.ofNat 4 k).toNat := by
  have hbits : (BitVec.ofNat 4 k).toNat = k := by simp [Nat.mod_eq_of_lt hk]
  rw [hbits, Nat.one_shiftLeft, Nat.and_two_pow_sub_one_eq_mod, BitVec.toNat_ofNat]
  exact (Nat.mod_le _ _).trans_lt (Nat.mod_lt _ (Nat.two_pow_pos k))

/-- A character given out leaves in BUF only the bits that BITS counts (10_state.md R36). -/
theorem base32EmitSymbol_buf_lt (buf : Nat) {bits : Nat} (idx : LenWord) (u : Base32Encoder) (h : bits - 5 < 16) :
    (base32EmitSymbol buf bits idx u).buf.toNat < 2 ^ (base32EmitSymbol buf bits idx u).bits.toNat := masked_lt buf h

/-- A character taken in leaves in BUF only the bits that BITS counts (10_state.md R36). -/
theorem base32TakeSymbol_buf_lt (x : BitVec 5) {u : Base32Decoder} (h : u.bits.toNat ≤ 7) :
    (base32TakeSymbol x u).buf.toNat < 2 ^ (base32TakeSymbol x u).bits.toNat := by
  simp only [base32TakeSymbol]
  split
  · exact masked_lt _ (by omega)
  · exact masked_lt _ (by omega)

/-! ## base32_encoder -/

/-- Acceptance keeps base32_encoder sound (R162). -/
theorem Base32Encoder.inv_accept {p : Params} (hp : p.Legal) {u : Base32Encoder} (h : u.Inv p) (len : LenWord)
    (hready : (acceptToBase32 p len u).regs.Busy → base32EncoderOps.sourceReady (acceptToBase32 p len u) = true) :
    (acceptToBase32 p len u).Inv p where
  regs := .accept len rfl fun _ => toBase32Length_lt hp
  src_wf := h.src_wf
  dst_wf := h.dst_wf
  dst_codes := h.dst_codes
  src_written hb := (Buffer.allWritten_iff _ _).mp (hready hb)
  bits_le hb := by
    have hbits : (acceptToBase32 p len u).bits = 0 := if_pos hb
    simp [hbits]
  buf_lt hb := by
    have hbuf : (acceptToBase32 p len u).buf = 0 := if_pos hb
    simp [hbuf]
  bits_balance hb := by
    have hbits : (acceptToBase32 p len u).bits = 0 := if_pos hb
    obtain ⟨-, hstart⟩ := acceptEncode_of_busy hb
    simp [hstart, hbits]
  dst_progress hb := by
    obtain ⟨-, hstart⟩ := acceptEncode_of_busy hb
    exact Buffer.writtenBelow_of_eq_zero _ (by simp [hstart])
  dst_done hd := Buffer.writtenBelow_of_eq_zero _ (acceptEncode_outlen_of_done hd)

/-- A character given out within the output keeps base32_encoder sound, where the bits stay in balance (R164 to
R166). -/
theorem Base32Encoder.inv_emitSymbol {p : Params} (hp : p.Legal) {u : Base32Encoder} (h : u.Inv p) (hb : u.regs.Busy)
    (buf : Nat) {bits : Nat} {idx : LenWord} (hbits : bits ≤ 12) (hidx : idx.toNat ≤ u.regs.len.toNat)
    (hodx : u.regs.odx.toNat < u.regs.outlen.toNat)
    (hbalance : 5 * (u.regs.odx.toNat + 1) + (bits - 5) = 8 * idx.toNat ∨
      (bits = 5 ∧ idx = u.regs.len ∧ u.regs.odx.toNat + 1 = u.regs.outlen.toNat)) :
    (base32EmitSymbol buf bits idx u).Inv p := by
  have hodx₁ : (u.regs.odx + 1).toNat = u.regs.odx.toNat + 1 := by bv_omega
  have hbits' : (base32EmitSymbol buf bits idx u).bits.toNat = bits - 5 := by
    rw [base32EmitSymbol_bits, BitVec.toNat_ofNat, Nat.mod_eq_of_lt (by omega)]
  exact {
    regs := h.regs.advance hidx (by omega)
    src_wf := h.src_wf
    dst_wf := Buffer.wf_write_reg _ _ h.dst_wf
    dst_codes := Buffer.codesFit_write h.dst_codes (code_fits hp (b32Alpha_lt _))
    src_written := h.src_written
    bits_le := fun _ => by omega
    buf_lt := fun _ => base32EmitSymbol_buf_lt buf idx u (by omega)
    bits_balance := fun _ => by
      rw [hbits', base32EmitSymbol_odx, hodx₁]
      refine hbalance.imp_right fun ⟨h5, hend, hfull⟩ => ⟨?_, hend, BitVec.eq_of_toNat_eq (hodx₁.trans hfull)⟩
      rw [base32EmitSymbol_bits, h5]
      rfl
    dst_progress := fun _ => by
      rw [base32EmitSymbol_odx, hodx₁]
      exact (h.dst_progress hb).write _
    dst_done := fun hd => absurd (hb.symm.trans hd) nofun }

/-- The end of the command keeps base32_encoder sound (R165). -/
theorem Base32Encoder.inv_complete {p : Params} {u : Base32Encoder} (h : u.Inv p) (hb : u.regs.Busy)
    (hbits : u.bits = 0) (hend : u.regs.idx = u.regs.len) : Base32Encoder.Inv p { u with regs := complete u.regs } := by
  have hout := h.regs.outlen_of_busy hb
  have hfull : u.regs.odx.toNat = u.regs.outlen.toNat := by
    rcases h.bits_balance hb with hbalance | ⟨-, -, hodx⟩
    · have hheld : u.bits.toNat = 0 := by simp [hbits]
      rw [hout, ← hend, toBase32Length]
      omega
    · rw [hodx]
  exact {
    regs := h.regs.complete hb
    src_wf := h.src_wf
    dst_wf := h.dst_wf
    dst_codes := h.dst_codes
    src_written := nofun
    bits_le := nofun
    buf_lt := nofun
    bits_balance := nofun
    dst_progress := nofun
    dst_done := fun _ => hfull ▸ h.dst_progress hb }

/-- Every step keeps base32_encoder sound: five bits leave with each character, eight come with each byte, and only the
last character is filled. -/
theorem Base32Encoder.inv_turn {p : Params} (hp : p.Legal) {u v : Base32Encoder} (h : u.Inv p) (hb : u.regs.Busy)
    (ht : base32EncoderTurn u = .next v) : v.Inv p := by
  have hout := h.regs.outlen_of_busy hb
  have hbits := h.bits_le hb
  have hidx := h.regs.idx_le hb
  have hbalance : 5 * u.regs.odx.toNat + u.bits.toNat = 8 * u.regs.idx.toNat ∨
      (u.bits.toNat = 0 ∧ u.regs.idx.toNat = u.regs.len.toNat) :=
    (h.bits_balance hb).imp_right fun ⟨h0, hend, _⟩ => ⟨by simp [h0], by rw [hend]⟩
  unfold toBase32Length at hout
  rcases base32EncoderTurn_cases ht with ⟨h0, hend, rfl⟩ | ⟨b, hlt5, hlt, -, rfl⟩ | ⟨hmore, hlt5, hge, rfl⟩ | ⟨h5, rfl⟩
  · exact inv_complete h hb h0 hend
  · rw [BitVec.lt_def] at hlt
    have hidx₁ : (u.regs.idx + 1).toNat = u.regs.idx.toNat + 1 := by bv_omega
    exact inv_emitSymbol hp h hb _ (by omega) (by omega) (by omega) (.inl (by omega))
  · have hend : u.regs.idx = u.regs.len := by bv_omega
    have hheld : u.bits.toNat ≠ 0 := fun h0 => hmore ⟨BitVec.eq_of_toNat_eq h0, hend⟩
    rw [← hend] at hout
    exact inv_emitSymbol hp h hb _ (by omega) hidx (by omega) (.inr ⟨rfl, hend, by omega⟩)
  · exact inv_emitSymbol hp h hb _ (by omega) hidx (by omega) (.inl (by omega))

/-- base32_encoder after a reset is sound, whatever of DST is left (R49, R261). -/
theorem Base32Encoder.inv_afterReset {p : Params} {dst : Buffer Chr} (hwf : dst.wf = true)
    (hcodes : dst.codesFit p.charW = true) : Base32Encoder.Inv p { State.reset.base32Encoder with dst := dst } where
  regs := .afterReset _ _ _
  src_wf := rfl
  dst_wf := hwf
  dst_codes := hcodes
  src_written := nofun
  bits_le := nofun
  buf_lt := nofun
  bits_balance := nofun
  dst_progress := nofun
  dst_done := nofun

/-! ## base32_decoder -/

/-- Acceptance keeps base32_decoder sound (R185). -/
theorem Base32Decoder.inv_accept {p : Params} {u : Base32Decoder} (h : u.Inv p) {op : OpCode}
    (hop : op = 0b110#3 ∨ op = 0b111#3) (len : LenWord)
    (hready : (acceptBase32Decoder op len u).regs.Busy →
      base32DecoderOps.sourceReady (acceptBase32Decoder op len u) = true) : (acceptBase32Decoder op len u).Inv p where
  regs := .accept len hop rfl rfl fromBase32Length_le
  src_wf := h.src_wf
  dst_wf := h.dst_wf
  src_codes := h.src_codes
  src_written hb := (Buffer.allWritten_iff _ _).mp (hready hb)
  scan hb _ := by
    have hbuf : (acceptBase32Decoder op len u).buf = 0 := if_pos hb
    have hbits : (acceptBase32Decoder op len u).bits = 0 := if_pos hb
    obtain ⟨-, hstart⟩ := acceptDecode_of_busy hb
    exact ⟨by simp [hstart], hbuf, hbits, Buffer.validBelow_of_eq_zero _ _ (by simp [hstart])⟩
  emit hb he := by
    have hscan : (acceptBase32Decoder op len u).phase = .scan := if_pos hb
    exact absurd (hscan.symm.trans he) nofun
  dst_progress hb := by
    obtain ⟨-, hstart⟩ := acceptDecode_of_busy hb
    exact Buffer.writtenBelow_of_eq_zero _ (by simp [hstart])
  dst_done hd := Buffer.writtenBelow_of_eq_zero _ (acceptDecode_outlen_of_done hd)

/-- A step of the SCAN pass keeps base32_decoder sound (R186). -/
theorem Base32Decoder.inv_scanOne {p : Params} {u : Base32Decoder} (h : u.Inv p) (hb : u.regs.Busy)
    (hphase : u.phase = .scan) (hlt : u.regs.idx < u.regs.len) {c : Chr}
    (hc : u.src.read u.regs.idx.toNat = some c) :
    Base32Decoder.Inv p { u with regs := scanOne (b32val c).isSome u.regs } where
  regs := h.regs.scanOne hb rfl hlt _
  src_wf := h.src_wf
  dst_wf := h.dst_wf
  src_codes := h.src_codes
  src_written _ := by simpa using h.src_written hb
  scan hb' _ := by
    obtain ⟨hvalid, e⟩ := scanOne_of_busy hb'
    obtain ⟨hodx, hbuf, hbits, hchecked⟩ := h.scan hb hphase
    have hidx₁ : (u.regs.idx + 1).toNat = u.regs.idx.toNat + 1 := by bv_omega
    rw [e]
    exact ⟨hodx, hbuf, hbits, hidx₁ ▸ hchecked.succ hc hvalid⟩
  emit _ he := absurd (hphase.symm.trans he) nofun
  dst_progress _ := by simpa using h.dst_progress hb
  dst_done hd := Buffer.writtenBelow_of_eq_zero _ (h.regs.scanOne_outlen_of_done hb rfl hd)

/-- The end of the SCAN pass keeps base32_decoder sound (R187). -/
theorem Base32Decoder.inv_scanEnd {p : Params} {u : Base32Decoder} (h : u.Inv p) (hb : u.regs.Busy)
    (hphase : u.phase = .scan) (hend : u.regs.idx = u.regs.len) :
    Base32Decoder.Inv p { u with regs := (scanEnd u.regs).1, phase := (scanEnd u.regs).2 } where
  regs := h.regs.scanEnd hb rfl
  src_wf := h.src_wf
  dst_wf := h.dst_wf
  src_codes := h.src_codes
  src_written _ := by simpa using h.src_written hb
  scan hb' hs := by
    obtain ⟨-, e⟩ := scanEnd_of_busy hb'
    simp [e] at hs
  emit hb' _ := by
    obtain ⟨hv, e⟩ := scanEnd_of_busy hb'
    obtain ⟨hodx, hbuf, hbits, hchecked⟩ := h.scan hb hphase
    rw [e]
    exact ⟨h.regs.op_of_not_validates rfl hv, by simp [hbits], by simp [hbuf], by simp [hodx, hbits], hend ▸ hchecked⟩
  dst_progress hb' := by
    obtain ⟨-, e⟩ := scanEnd_of_busy hb'
    rw [e]
    exact h.dst_progress hb
  dst_done hd := Buffer.writtenBelow_of_eq_zero _ (h.regs.scanEnd_outlen_of_done hb rfl hd)

/-- Taking a character in moves IDX by one, and of the other registers ODX at most. -/
theorem base32TakeSymbol_regs (x : BitVec 5) (u : Base32Decoder) : (base32TakeSymbol x u).regs =
    { u.regs with idx := u.regs.idx + 1, odx := (base32TakeSymbol x u).regs.odx } := by
  simp only [base32TakeSymbol]
  split <;> rfl

/-- A step of the EMIT pass keeps base32_decoder sound: five bits come with each character and eight leave with each
byte (R189). -/
theorem Base32Decoder.inv_takeSymbol {p : Params} {u : Base32Decoder} (h : u.Inv p) (hb : u.regs.Busy)
    (hphase : u.phase = .emit) (hlt : u.regs.idx < u.regs.len) (x : BitVec 5) : (base32TakeSymbol x u).Inv p := by
  obtain ⟨hop, hbits, -, hbalance, hvalid⟩ := h.emit hb hphase
  have hout := h.regs.outlen_of_busy hb hop
  have hwritten := h.dst_progress hb
  unfold fromBase32Length at hout
  rw [BitVec.lt_def] at hlt
  have hidx₁ : (u.regs.idx + 1).toNat = u.regs.idx.toNat + 1 := by bv_omega
  have hphase' : (base32TakeSymbol x u).phase = .emit := by simpa using hphase
  have hstatus : (base32TakeSymbol x u).regs.status = u.regs.status := by rw [base32TakeSymbol_regs]
  have key : (base32TakeSymbol x u).dst.wf = true ∧
      (base32TakeSymbol x u).dst.WrittenBelow (base32TakeSymbol x u).regs.odx.toNat ∧
      (base32TakeSymbol x u).bits.toNat ≤ 7 ∧ 5 * (u.regs.idx.toNat + 1) =
        8 * (base32TakeSymbol x u).regs.odx.toNat + (base32TakeSymbol x u).bits.toNat := by
    rcases base32TakeSymbol_cases x u with ⟨h8, ⟨b, hd⟩, ho, hbits'⟩ | ⟨h8, hd, ho, hbits'⟩
    · have hodx₁ : (u.regs.odx + 1).toNat = u.regs.odx.toNat + 1 := by bv_omega
      rw [hd, ho, hbits', hodx₁, BitVec.toNat_ofNat, Nat.mod_eq_of_lt (by omega)]
      exact ⟨Buffer.wf_write_reg _ _ h.dst_wf, hwritten.write b, by omega, by omega⟩
    · rw [hd, ho, hbits', BitVec.toNat_ofNat, Nat.mod_eq_of_lt (by omega)]
      exact ⟨h.dst_wf, hwritten, by omega, by omega⟩
  obtain ⟨hwf, hwritten', hbits', hbalance'⟩ := key
  exact {
    regs := base32TakeSymbol_regs x u ▸ h.regs.advance (by omega) (by omega)
    src_wf := by simpa using h.src_wf
    dst_wf := hwf
    src_codes := by simpa using h.src_codes
    src_written := fun _ => by simpa using h.src_written hb
    scan := fun _ hs => absurd (hphase'.symm.trans hs) nofun
    emit := fun _ _ => ⟨by simpa using hop, hbits', base32TakeSymbol_buf_lt x hbits,
      by rw [base32TakeSymbol_idx, hidx₁, hbalance'], by simpa using hvalid⟩
    dst_progress := fun _ => hwritten'
    dst_done := fun hd => by
      rw [hstatus, hb] at hd
      cases hd }

/-- The end of the EMIT pass keeps base32_decoder sound: fewer than eight bits are left over (R190). -/
theorem Base32Decoder.inv_complete {p : Params} {u : Base32Decoder} (h : u.Inv p) (hb : u.regs.Busy)
    (hphase : u.phase = .emit) (hend : u.regs.idx = u.regs.len) :
    Base32Decoder.Inv p { u with regs := complete u.regs } := by
  obtain ⟨hop, hbits, -, hbalance, -⟩ := h.emit hb hphase
  have hout := h.regs.outlen_of_busy hb hop
  have hfull : u.regs.odx.toNat = u.regs.outlen.toNat := by
    rw [hout, ← hend, fromBase32Length]
    omega
  exact {
    regs := h.regs.complete hb fun hr => by simp [h.regs.status_of_busy hb] at hr
    src_wf := h.src_wf
    dst_wf := h.dst_wf
    src_codes := h.src_codes
    src_written := nofun
    scan := nofun
    emit := nofun
    dst_progress := nofun
    dst_done := fun _ => hfull ▸ h.dst_progress hb }

/-- Every step keeps base32_decoder sound. -/
theorem Base32Decoder.inv_turn {p : Params} {u v : Base32Decoder} (h : u.Inv p) (hb : u.regs.Busy)
    (ht : base32DecoderTurn u = .next v) : v.Inv p := by
  rcases base32DecoderTurn_cases ht with ⟨c, hphase, hlt, hc, rfl⟩ | ⟨hphase, hend, rfl⟩ |
    ⟨c, x, hphase, hlt, -, -, rfl⟩ | ⟨hphase, hend, rfl⟩
  · exact inv_scanOne h hb hphase hlt hc
  · exact inv_scanEnd h hb hphase hend
  · exact inv_takeSymbol h hb hphase hlt x
  · exact inv_complete h hb hphase hend

/-- base32_decoder after a reset is sound, whatever of DST is left (R49, R261). -/
theorem Base32Decoder.inv_afterReset {p : Params} {dst : Buffer Byte} (hwf : dst.wf = true) :
    Base32Decoder.Inv p { State.reset.base32Decoder with dst := dst } where
  regs := .afterReset (by decide)
  src_wf := rfl
  dst_wf := hwf
  src_codes := rfl
  src_written := nofun
  scan := nofun
  emit := nofun
  dst_progress := nofun
  dst_done := nofun

end Sys2Proof.Machine

/-! PROOFS. Every step of the block keeps its state sound, whatever the input (44_command_protocol.md R200 to R210). -/

namespace Sys2Proof.Machine

/-! ## A unit in the state -/

/-- `P` says of a unit that it is sound: it is that unit's part of `State.Inv`, and every step of the unit keeps it. -/
structure UnitOps.Keeps {α : Type} (o : UnitOps α) (P : Params → α → Prop) : Prop where
  get {s : State} : s.Inv → P s.params (o.get s)
  put {s : State} {u : α} : s.Inv → P s.params u → (o.put u s).Inv
  turn {p : Params} {u v : α} : p.Legal → P p u → (o.regs u).Busy → o.turn u = .next v → P p v

theorem hexEncoderOps_keeps : hexEncoderOps.Keeps fun p u => u.Inv p where
  get hs := hs.hexEncoder
  put hs hu := { hs with hexEncoder := hu }
  turn hp := HexEncoder.inv_turn hp

theorem hexDecoderOps_keeps : hexDecoderOps.Keeps fun p u => u.Inv p where
  get hs := hs.hexDecoder
  put hs hu := { hs with hexDecoder := hu }
  turn _ := HexDecoder.inv_turn

theorem base32EncoderOps_keeps : base32EncoderOps.Keeps fun p u => u.Inv p where
  get hs := hs.base32Encoder
  put hs hu := { hs with base32Encoder := hu }
  turn hp := Base32Encoder.inv_turn hp

theorem base32DecoderOps_keeps : base32DecoderOps.Keeps fun p u => u.Inv p where
  get hs := hs.base32Decoder
  put hs hu := { hs with base32Decoder := hu }
  turn _ := Base32Decoder.inv_turn

section OfKeeps
variable {α : Type} {o : UnitOps α} {P : Params → α → Prop} {accept : α → α} {fuel : Nat} {s t : State}

/-- A turn keeps the state sound. -/
theorem UnitOps.Keeps.takeTurn (ho : o.Keeps P) (hs : s.Inv) (h : o.takeTurn s = .next t) : t.Inv := by
  rcases takeTurn_eq_next h with ⟨hb, u, hu, rfl⟩ | ⟨-, rfl⟩
  · exact ho.put hs (ho.turn hs.params (ho.get hs) hb hu)
  · exact hs

/-- A unit that is admitted to run has all of its source. -/
theorem sourceReady_of_requireSource {u v : α} (h : o.requireSource u = .next v) (hb : (o.regs u).Busy) :
    o.sourceReady u = true := by
  obtain ⟨-, hr⟩ := requireSource_eq_next.mp h
  simpa using fun hf => hr ⟨hb, hf⟩

variable (haccept : ((o.regs (accept (o.get s))).Busy → o.sourceReady (accept (o.get s)) = true) →
  P s.params (accept (o.get s)))
include haccept

/-- An offered command that is accepted, or waits, keeps the state sound. -/
theorem UnitOps.Keeps.issue (ho : o.Keeps P) (hs : s.Inv) (h : o.issue accept s = .next t) : t.Inv := by
  rcases issue_eq_next h with ⟨-, ht⟩ | ⟨-, u, hu, rfl⟩
  · exact ho.takeTurn hs ht
  · obtain ⟨rfl, -⟩ := requireSource_eq_next.mp hu
    exact ho.put hs (haccept (sourceReady_of_requireSource hu))

/-- An offered command that is run whole, or waits, keeps the state sound. -/
theorem UnitOps.Keeps.call (ho : o.Keeps P) (hs : s.Inv) (h : o.call fuel accept s = .next t) : t.Inv := by
  rcases call_eq_next h with ⟨-, ht⟩ | ⟨-, u, hu, v, hv, rfl⟩
  · exact ho.takeTurn hs ht
  · obtain ⟨rfl, -⟩ := requireSource_eq_next.mp hu
    have hstart : P s.params (accept (o.get s)) := haccept (sourceReady_of_requireSource hu)
    exact ho.put hs (runToDone_induction (fun _ _ => ho.turn hs.params) hstart hv)

end OfKeeps

/-! ## Turns and commands -/

/-- A turn of any unit keeps the state sound. -/
theorem takeTurnOf_inv {u : UnitId} {s t : State} (hs : s.Inv) (h : takeTurnOf u s = .next t) : t.Inv := by
  cases u with
  | hexEncoder => exact hexEncoderOps_keeps.takeTurn hs h
  | hexDecoder => exact hexDecoderOps_keeps.takeTurn hs h
  | base32Encoder => exact base32EncoderOps_keeps.takeTurn hs h
  | base32Decoder => exact base32DecoderOps_keeps.takeTurn hs h

/-- A quiet step keeps the state sound. -/
theorem quietStep_inv {s t : State} (hs : s.Inv) (h : quietStep s = .next t) : t.Inv := by
  unfold quietStep at h
  split at h
  · exact takeTurnOf_inv hs h
  · cases h
    exact hs

/-- Every command run whole keeps the state sound. -/
theorem exec_inv {i : Instr} {s t : State} (hs : s.Inv) (h : exec i s = .next t) : t.Inv := by
  cases i with
  | toHex len => exact hexEncoderOps_keeps.call (HexEncoder.inv_accept hs.params hs.hexEncoder len) hs h
  | fromHex len => exact hexDecoderOps_keeps.call (HexDecoder.inv_accept hs.hexDecoder (.inl rfl) len) hs h
  | isHex len => exact hexDecoderOps_keeps.call (HexDecoder.inv_accept hs.hexDecoder (.inr rfl) len) hs h
  | toBase32 len => exact base32EncoderOps_keeps.call (Base32Encoder.inv_accept hs.params hs.base32Encoder len) hs h
  | fromBase32 len => exact base32DecoderOps_keeps.call (Base32Decoder.inv_accept hs.base32Decoder (.inl rfl) len) hs h
  | isBase32 len => exact base32DecoderOps_keeps.call (Base32Decoder.inv_accept hs.base32Decoder (.inr rfl) len) hs h

/-- Every command accepted keeps the state sound. -/
theorem issueInstr_inv {i : Instr} {s t : State} (hs : s.Inv) (h : issueInstr i s = .next t) : t.Inv := by
  cases i with
  | toHex len => exact hexEncoderOps_keeps.issue (HexEncoder.inv_accept hs.params hs.hexEncoder len) hs h
  | fromHex len => exact hexDecoderOps_keeps.issue (HexDecoder.inv_accept hs.hexDecoder (.inl rfl) len) hs h
  | isHex len => exact hexDecoderOps_keeps.issue (HexDecoder.inv_accept hs.hexDecoder (.inr rfl) len) hs h
  | toBase32 len => exact base32EncoderOps_keeps.issue (Base32Encoder.inv_accept hs.params hs.base32Encoder len) hs h
  | fromBase32 len => exact base32DecoderOps_keeps.issue (Base32Decoder.inv_accept hs.base32Decoder (.inl rfl) len) hs h
  | isBase32 len => exact base32DecoderOps_keeps.issue (Base32Decoder.inv_accept hs.base32Decoder (.inr rfl) len) hs h

/-! ## The model's own fields, the host's accesses, reset -/

/-- Nothing that is sound or not depends on the inputs, the answer or the counter of free values. -/
theorem State.Inv.withOwnFields {s : State} (hs : s.Inv) (inputs : List Input) (answer : Option Answer) (fresh : Nat) :
    State.Inv { s with inputs := inputs, answer := answer, fresh := fresh } :=
  ⟨hs.params, hs.hexEncoder, hs.hexDecoder, hs.base32Encoder, hs.base32Decoder⟩

/-- A host's write of SRC keeps the state sound: it comes to a unit that is not BUSY and fits the element. -/
theorem hostWriteSrc_inv {u : UnitId} {i : LenWord} {v : Nat} {s t : State} (hs : s.Inv)
    (h : hostWriteSrc u i v s = .next t) : t.Inv := by
  cases u with
  | hexEncoder =>
    obtain ⟨b, hw, ht⟩ := andThen_eq_next.mp h
    obtain ⟨hb, -, -⟩ := writeElement_eq_next.mp hw
    cases ht
    exact { hs with hexEncoder := { hs.hexEncoder with
      src_wf := wf_writeElement hw hs.hexEncoder.src_wf
      src_written := fun hb' => absurd hb' hb } }
  | hexDecoder =>
    obtain ⟨b, hw, ht⟩ := andThen_eq_next.mp h
    obtain ⟨hb, -, -⟩ := writeElement_eq_next.mp hw
    cases ht
    exact { hs with hexDecoder := { hs.hexDecoder with
      src_wf := wf_writeElement hw hs.hexDecoder.src_wf
      src_codes := codesFit_writeChar hw hs.hexDecoder.src_codes
      src_written := fun hb' => absurd hb' hb
      scan := fun hb' => absurd hb' hb
      emit := fun hb' => absurd hb' hb } }
  | base32Encoder =>
    obtain ⟨b, hw, ht⟩ := andThen_eq_next.mp h
    obtain ⟨hb, -, -⟩ := writeElement_eq_next.mp hw
    cases ht
    exact { hs with base32Encoder := { hs.base32Encoder with
      src_wf := wf_writeElement hw hs.base32Encoder.src_wf
      src_written := fun hb' => absurd hb' hb } }
  | base32Decoder =>
    obtain ⟨b, hw, ht⟩ := andThen_eq_next.mp h
    obtain ⟨hb, -, -⟩ := writeElement_eq_next.mp hw
    cases ht
    exact { hs with base32Decoder := { hs.base32Decoder with
      src_wf := wf_writeElement hw hs.base32Decoder.src_wf
      src_codes := codesFit_writeChar hw hs.base32Decoder.src_codes
      src_written := fun hb' => absurd hb' hb
      scan := fun hb' => absurd hb' hb
      emit := fun hb' => absurd hb' hb } }

/-- An element handed out changes the answer, and the counter of free values at most. -/
theorem handOutElement_eq {α : Type} (mk : α → Answer) (free : Nat → α) (e : Option α) (s : State) :
    ∃ a n, handOutElement mk free e s = { s with answer := a, fresh := n } := by
  cases e with
  | none => exact ⟨_, _, rfl⟩
  | some v => exact ⟨_, _, rfl⟩

/-- What the host's read of DST can do: the answer changes, and the counter of free values at most. -/
theorem hostReadDst_eq_next {u : UnitId} {i : LenWord} {s t : State} (h : hostReadDst u i s = .next t) :
    ∃ a n, t = { s with answer := a, fresh := n } := by
  unfold hostReadDst at h
  split at h
  · cases h
  · cases u <;>
    · cases h
      exact handOutElement_eq _ _ _ s

/-- A reset of a sound state leads to a sound state (R260, R261). -/
theorem resetBlock_inv {s : State} (hs : s.Inv) : (resetBlock s).Inv where
  params := hs.params
  hexEncoder := HexEncoder.inv_afterReset (wf_dstAfterReset hs.hexEncoder.dst_wf)
    (codesFit_dstAfterReset hs.hexEncoder.dst_codes)
  hexDecoder := HexDecoder.inv_afterReset (wf_dstAfterReset hs.hexDecoder.dst_wf)
  base32Encoder := Base32Encoder.inv_afterReset (wf_dstAfterReset hs.base32Encoder.dst_wf)
    (codesFit_dstAfterReset hs.base32Encoder.dst_codes)
  base32Decoder := Base32Decoder.inv_afterReset (wf_dstAfterReset hs.base32Decoder.dst_wf)

/-- The state in which an offered command runs, with its word taken from the inputs or not, is sound too. -/
theorem State.Inv.offered {s : State} (hs : s.Inv) (c : Prop) [Decidable c] (rest : List Input) :
    State.Inv (if c then s else { s with inputs := rest }) := by
  split
  · exact hs
  · exact hs.withOwnFields _ _ _

/-- Settles O48: every step is a turn or a command, whose unit's steps keep that unit sound, an access of the host, or
a reset. -/
theorem everyStepKeepsTheStateSound : Obligations.EveryStepKeepsTheStateSound := by
  intro s t hs h
  rcases step_next_cases h with ⟨-, hq⟩ | ⟨w, rest, i, -, -, he⟩ | ⟨w, rest, i, -, -, he⟩ | ⟨u, rest, -, ht⟩ |
    ⟨u, i, v, rest, -, hw⟩ | ⟨u, i, rest, -, hr⟩ | ⟨x, rest, a, -, rfl⟩ | ⟨rest, -, rfl⟩
  · exact quietStep_inv hs hq
  · exact exec_inv (hs.offered _ rest) he
  · exact issueInstr_inv (hs.offered _ rest) he
  · exact takeTurnOf_inv (hs.withOwnFields rest _ _) ht
  · exact hostWriteSrc_inv (hs.withOwnFields rest _ _) hw
  · obtain ⟨a, n, rfl⟩ := hostReadDst_eq_next hr
    exact hs.withOwnFields rest a n
  · exact hs.withOwnFields rest (some a) _
  · exact resetBlock_inv (hs.withOwnFields rest _ _)

/-- Settles O47: every unit has its reset registers and empty buffers, and the defaults are legal parameters. -/
theorem resetStateIsSound : Obligations.ResetStateIsSound where
  params := by decide
  hexEncoder := HexEncoder.inv_afterReset rfl rfl
  hexDecoder := HexDecoder.inv_afterReset rfl
  base32Encoder := Base32Encoder.inv_afterReset rfl rfl
  base32Decoder := Base32Decoder.inv_afterReset rfl

end Sys2Proof.Machine

/-! PROOFS. A step of a unit said forwards: what a BUSY unit does where the condition of a rule holds
(44_command_protocol.md R206). -/

namespace Sys2Proof.Machine

section AcceptDecode
variable {op : OpCode} {lengthOk : Nat → Bool} {outLength : Nat → Nat} {len : LenWord} {r : Regs}

theorem acceptDecode_of_bad_check (hl : lengthOk len.toNat = false) (hv : op.getLsbD 0 = true) :
    acceptDecode op lengthOk outLength len r = endAtOnce false (load op len r) := by
  simp only [acceptDecode, Regs.Validates, load_op, hl, hv, ↓reduceIte]

theorem acceptDecode_of_bad_decode (hl : lengthOk len.toNat = false) (hv : ¬op.getLsbD 0 = true) :
    acceptDecode op lengthOk outLength len r = raise .invalidLength (load op len r) := by
  simp only [acceptDecode, Regs.Validates, load_op, hl, hv, ↓reduceIte, Bool.false_eq_true]

theorem acceptDecode_of_empty (hl : lengthOk len.toNat = true) (h0 : len = 0) :
    acceptDecode op lengthOk outLength len r = endAtOnce (op.getLsbD 0) (load op len r) := by
  rw [acceptDecode, if_neg (by simp [hl]), if_pos h0]

theorem acceptDecode_of_nonempty (hl : lengthOk len.toNat = true) (h0 : len ≠ 0) :
    acceptDecode op lengthOk outLength len r =
      start (if op.getLsbD 0 = true then 0 else outLength len.toNat) (load op len r) := by
  rw [acceptDecode, if_neg (by simp [hl]), if_neg h0]
  rfl

/-- A validation that starts to run has no output to write. -/
theorem acceptDecode_outlen_of_check (hb : (acceptDecode op lengthOk outLength len r).Busy)
    (hv : op.getLsbD 0 = true) : (acceptDecode op lengthOk outLength len r).outlen = 0 := by
  obtain ⟨-, e⟩ := acceptDecode_of_busy hb
  rw [e, if_pos hv]
  rfl

/-- A command that starts to run has at most the output its length gives. -/
theorem acceptDecode_outlen_le (hb : (acceptDecode op lengthOk outLength len r).Busy) :
    (acceptDecode op lengthOk outLength len r).outlen.toNat ≤ outLength len.toNat := by
  obtain ⟨-, e⟩ := acceptDecode_of_busy hb
  rw [e, start_outlen, BitVec.toNat_ofNat]
  split
  · exact Nat.zero_le _
  · exact Nat.mod_le _ _

end AcceptDecode

section HexEncoder
variable {u : HexEncoder}

theorem hexEncoderTurn_of_lt {b : Byte} (hlt : u.regs.idx < u.regs.len) (hb : u.src.read u.regs.idx.toNat = some b) :
    hexEncoderTurn u = .next (hexEncodeByte b u) := by
  simp [hexEncoderTurn, hlt, hb]

theorem hexEncoderTurn_of_end (hend : u.regs.idx = u.regs.len) :
    hexEncoderTurn u = .next { u with regs := complete u.regs } := by
  simp [hexEncoderTurn, hend]

end HexEncoder

section HexDecoder
variable {u : HexDecoder}

theorem hexDecoderTurn_of_scan {c : Chr} (hphase : u.phase = .scan) (hlt : u.regs.idx < u.regs.len)
    (hc : u.src.read u.regs.idx.toNat = some c) :
    hexDecoderTurn u = .next { u with regs := scanOne (hexval c).isSome u.regs } := by
  simp [hexDecoderTurn, hexDecoderScan, hphase, hlt, hc]

theorem hexDecoderTurn_of_scan_end (hphase : u.phase = .scan) (hend : u.regs.idx = u.regs.len) :
    hexDecoderTurn u = .next { u with regs := (scanEnd u.regs).1, phase := (scanEnd u.regs).2 } := by
  simp [hexDecoderTurn, hexDecoderScan, hphase, hend]

theorem hexDecoderTurn_of_emit {c₁ c₂ : Chr} {hi lo : BitVec 4} (hphase : u.phase = .emit)
    (hlt : u.regs.idx < u.regs.len) (hc₁ : u.src.read u.regs.idx.toNat = some c₁)
    (hc₂ : u.src.read (u.regs.idx + 1).toNat = some c₂) (hhi : hexval c₁ = some hi) (hlo : hexval c₂ = some lo) :
    hexDecoderTurn u = .next (hexDecodePair hi lo u) := by
  simp only [hexDecoderTurn, hexDecoderEmit, hphase, hlt, ↓reduceIte, hc₁, hc₂, hhi, hlo]

theorem hexDecoderTurn_of_emit_end (hphase : u.phase = .emit) (hend : u.regs.idx = u.regs.len) :
    hexDecoderTurn u = .next { u with regs := complete u.regs } := by
  simp [hexDecoderTurn, hexDecoderEmit, hphase, hend]

end HexDecoder

section Base32Encoder
variable {u : Base32Encoder}

theorem base32EncoderTurn_of_end (hbits : u.bits = 0) (hend : u.regs.idx = u.regs.len) :
    base32EncoderTurn u = .next { u with regs := complete u.regs } := if_pos ⟨hbits, hend⟩

theorem base32EncoderTurn_of_lt {b : Byte} (hbits : u.bits.toNat < 5) (hlt : u.regs.idx < u.regs.len)
    (hb : u.src.read u.regs.idx.toNat = some b) : base32EncoderTurn u =
      .next (base32EmitSymbol ((u.buf.toNat <<< 8) ||| b.toNat) (u.bits.toNat + 8) (u.regs.idx + 1) u) := by
  have hmore : ¬(u.bits = 0 ∧ u.regs.idx = u.regs.len) := fun ⟨_, hend⟩ => absurd (hend ▸ hlt) (BitVec.lt_irrefl _)
  simp only [base32EncoderTurn, hmore, base32EncodeStep, hbits, hlt, ↓reduceIte, hb]

theorem base32EncoderTurn_of_fill (hmore : ¬(u.bits = 0 ∧ u.regs.idx = u.regs.len)) (hbits : u.bits.toNat < 5)
    (hge : ¬u.regs.idx < u.regs.len) :
    base32EncoderTurn u = .next (base32EmitSymbol (u.buf.toNat <<< (5 - u.bits.toNat)) 5 u.regs.idx u) := by
  simp only [base32EncoderTurn, hmore, base32EncodeStep, hbits, hge, ↓reduceIte]

theorem base32EncoderTurn_of_held (hbits : 5 ≤ u.bits.toNat) :
    base32EncoderTurn u = .next (base32EmitSymbol u.buf.toNat u.bits.toNat u.regs.idx u) := by
  have hmore : ¬(u.bits = 0 ∧ u.regs.idx = u.regs.len) := fun ⟨h0, _⟩ => by simp [h0] at hbits
  have hheld : ¬u.bits.toNat < 5 := by omega
  simp only [base32EncoderTurn, hmore, base32EncodeStep, hheld, ↓reduceIte]

end Base32Encoder

section Base32Decoder
variable {u : Base32Decoder}

theorem base32DecoderTurn_of_scan {c : Chr} (hphase : u.phase = .scan) (hlt : u.regs.idx < u.regs.len)
    (hc : u.src.read u.regs.idx.toNat = some c) :
    base32DecoderTurn u = .next { u with regs := scanOne (b32val c).isSome u.regs } := by
  simp [base32DecoderTurn, base32DecoderScan, hphase, hlt, hc]

theorem base32DecoderTurn_of_scan_end (hphase : u.phase = .scan) (hend : u.regs.idx = u.regs.len) :
    base32DecoderTurn u = .next { u with regs := (scanEnd u.regs).1, phase := (scanEnd u.regs).2 } := by
  simp [base32DecoderTurn, base32DecoderScan, hphase, hend]

theorem base32DecoderTurn_of_emit {c : Chr} {x : BitVec 5} (hphase : u.phase = .emit) (hlt : u.regs.idx < u.regs.len)
    (hc : u.src.read u.regs.idx.toNat = some c) (hx : b32val c = some x) :
    base32DecoderTurn u = .next (base32TakeSymbol x u) := by
  simp only [base32DecoderTurn, base32DecoderEmit, hphase, hlt, ↓reduceIte, hc, hx]

theorem base32DecoderTurn_of_emit_end (hphase : u.phase = .emit) (hend : u.regs.idx = u.regs.len) :
    base32DecoderTurn u = .next { u with regs := complete u.regs } := by
  simp [base32DecoderTurn, base32DecoderEmit, hphase, hend]

end Base32Decoder

end Sys2Proof.Machine

/-! PROOFS. Two runs of one command, on units that agree in the source, keep step with each other and end with the same
outcome (10_state.md R45). -/

namespace Sys2Proof.Machine

/-! ## Buffers that agree -/

/-- The two buffers read alike at every 32-bit index below `n`. -/
def Buffer.SameBelow {α : Type} (n : Nat) (b c : Buffer α) : Prop := ∀ k, k < n → k < 2 ^ 32 → c.read k = b.read k

theorem Buffer.sameBelow_zero {α : Type} (b c : Buffer α) : b.SameBelow 0 c := nofun

/-- The same element written to both at the index register that counts to `n`, which may have wrapped around. -/
theorem Buffer.SameBelow.write {α : Type} {n : Nat} {b c : Buffer α} (h : b.SameBelow n c) {o : LenWord}
    (ho : o = BitVec.ofNat 32 n) (v : α) : (b.write o.toNat v).SameBelow (n + 1) (c.write o.toNat v) := by
  intro k hk hk32
  rw [Buffer.read_write, Buffer.read_write]
  split
  · rfl
  · rename_i hne
    refine h k (Nat.lt_of_le_of_ne (Nat.lt_succ_iff.mp hk) fun hkn => hne ?_) hk32
    rw [ho, BitVec.toNat_ofNat, ← hkn, Nat.mod_eq_of_lt hk32]

/-! ## The outcome of a command -/

/-- Both commands have ended, with the same STATUS, the same OUTLEN and the same output (R45). -/
structure SameOutcome {β : Type} (r₁ r₂ : Regs) (d₁ d₂ : Buffer β) : Prop where
  ended : ¬r₁.Busy
  status_eq : r₁.status = r₂.status
  outlen_eq : r₁.outlen = r₂.outlen
  dst_same : d₁.SameBelow r₁.outlen.toNat d₂

section Outcome
variable {β : Type} {n : Nat} {r r₁ r₂ : Regs} {d₁ d₂ : Buffer β}

theorem SameOutcome.not_busy (h : SameOutcome r₁ r₂ d₁ d₂) : ¬r₁.Busy ∧ ¬r₂.Busy :=
  ⟨h.ended, fun hb₂ => h.ended (by rw [Regs.Busy, h.status_eq, hb₂])⟩

/-- An end with an error has no output to differ in (R236). -/
theorem sameOutcome_raise (e : Err) (r₁ r₂ : Regs) (d₁ d₂ : Buffer β) :
    SameOutcome (raise e r₁) (raise e r₂) d₁ d₂ := ⟨not_busy_raise _ _, rfl, rfl, nofun⟩

/-- A command that ends at its acceptance has no output to differ in. -/
theorem sameOutcome_endAtOnce (b : Bool) (r₁ r₂ : Regs) (d₁ d₂ : Buffer β) :
    SameOutcome (endAtOnce b r₁) (endAtOnce b r₂) d₁ d₂ := ⟨not_busy_endAtOnce _ _, rfl, rfl, nofun⟩

/-- A command that completes has the same outcome in both where the whole output is the same. -/
theorem sameOutcome_complete (h : d₁.SameBelow n d₂) (hout : r.outlen.toNat ≤ n) :
    SameOutcome (complete r) (complete r) d₁ d₂ :=
  ⟨not_busy_complete _, rfl, rfl, fun k hk => h k (hk.trans_le hout)⟩

variable {op : OpCode} {len : LenWord} {maxIn : Nat} {lengthOk : Nat → Bool} {outLength : Nat → Nat}

/-- Two acceptances of one command by an encoder leave the same registers, BUSY, or have the same outcome. -/
theorem acceptEncode_twice (r₁ r₂ : Regs) (d₁ d₂ : Buffer β) :
    (acceptEncode op maxIn outLength len r₁ = start (outLength len.toNat) (load op len r₁) ∧
      acceptEncode op maxIn outLength len r₂ = acceptEncode op maxIn outLength len r₁) ∨
    SameOutcome (acceptEncode op maxIn outLength len r₁) (acceptEncode op maxIn outLength len r₂) d₁ d₂ := by
  unfold acceptEncode
  split
  · exact .inr (sameOutcome_raise _ _ _ _ _)
  · split
    · exact .inr (sameOutcome_endAtOnce _ _ _ _ _)
    · exact .inl ⟨rfl, rfl⟩

/-- Two acceptances of one command by a decoder leave the same registers, BUSY, or have the same outcome. -/
theorem acceptDecode_twice (r₁ r₂ : Regs) (d₁ d₂ : Buffer β) :
    (lengthOk len.toNat = true ∧ acceptDecode op lengthOk outLength len r₁ =
      start (if op.getLsbD 0 = true then 0 else outLength len.toNat) (load op len r₁) ∧
      acceptDecode op lengthOk outLength len r₂ = acceptDecode op lengthOk outLength len r₁) ∨
    SameOutcome (acceptDecode op lengthOk outLength len r₁) (acceptDecode op lengthOk outLength len r₂) d₁ d₂ := by
  by_cases hl : lengthOk len.toNat = false
  · by_cases hv : op.getLsbD 0 = true
    · rw [acceptDecode_of_bad_check hl hv, acceptDecode_of_bad_check hl hv]
      exact .inr (sameOutcome_endAtOnce _ _ _ _ _)
    · rw [acceptDecode_of_bad_decode hl hv, acceptDecode_of_bad_decode hl hv]
      exact .inr (sameOutcome_raise _ _ _ _ _)
  · have hl : lengthOk len.toNat = true := by simpa using hl
    by_cases h0 : len = 0
    · rw [acceptDecode_of_empty hl h0, acceptDecode_of_empty hl h0]
      exact .inr (sameOutcome_endAtOnce _ _ _ _ _)
    · rw [acceptDecode_of_nonempty hl h0, acceptDecode_of_nonempty hl h0]
      exact .inl ⟨hl, rfl, rfl⟩

end Outcome

/-! ## Two runs in step -/

/-- `P n` says of two units that they are in step with at most `n` steps to go, and `Q` that they have ended: two steps
of units in step leave them in step, with a step less to go, or ended. -/
structure UnitOps.Lockstep {α : Type} (o : UnitOps α) (P : Nat → α → α → Prop) (Q : α → α → Prop) : Prop where
  running {n : Nat} {u₁ u₂ : α} : P n u₁ u₂ → 0 < n ∧ (o.regs u₁).Busy ∧ (o.regs u₂).Busy
  ended {u₁ u₂ : α} : Q u₁ u₂ → ¬(o.regs u₁).Busy ∧ ¬(o.regs u₂).Busy
  turn {n : Nat} {u₁ u₂ v₁ v₂ : α} :
    P (n + 1) u₁ u₂ → o.turn u₁ = .next v₁ → o.turn u₂ = .next v₂ → P n v₁ v₂ ∨ Q v₁ v₂

section OfLockstep
variable {α : Type} {o : UnitOps α} {P : Nat → α → α → Prop} {Q : α → α → Prop}

/-- Units in step run to ends that belong together. -/
theorem UnitOps.Lockstep.runToDone (ho : o.Lockstep P Q) {n : Nat} {u₁ u₂ v₁ v₂ : α} (hu : P n u₁ u₂ ∨ Q u₁ u₂)
    (h₁ : runToDone o n u₁ = .next v₁) (h₂ : runToDone o n u₂ = .next v₂) : Q v₁ v₂ := by
  induction n generalizing u₁ u₂ with
  | zero =>
    cases h₁
    cases h₂
    exact hu.resolve_left fun hp => absurd (ho.running hp).1 (Nat.lt_irrefl 0)
  | succ n ih =>
    rcases hu with hp | hq
    · obtain ⟨-, hb₁, hb₂⟩ := ho.running hp
      rw [Machine.runToDone, if_pos hb₁] at h₁
      rw [Machine.runToDone, if_pos hb₂] at h₂
      obtain ⟨w₁, hw₁, hr₁⟩ := andThen_eq_next.mp h₁
      obtain ⟨w₂, hw₂, hr₂⟩ := andThen_eq_next.mp h₂
      exact ih (ho.turn hp hw₁ hw₂) hr₁ hr₂
    · obtain ⟨hb₁, hb₂⟩ := ho.ended hq
      rw [runToDone_of_not_busy hb₁] at h₁
      rw [runToDone_of_not_busy hb₂] at h₂
      cases h₁
      cases h₂
      exact hq

/-- Two whole commands whose acceptances leave the units in step, or ended, end together. -/
theorem UnitOps.Lockstep.call (ho : o.Lockstep P Q) {n : Nat} {accept : α → α} {s₁ s₂ t₁ t₂ : State}
    (hb₁ : ¬(o.regs (o.get s₁)).Busy) (hb₂ : ¬(o.regs (o.get s₂)).Busy)
    (hstart : P n (accept (o.get s₁)) (accept (o.get s₂)) ∨ Q (accept (o.get s₁)) (accept (o.get s₂)))
    (h₁ : o.call n accept s₁ = .next t₁) (h₂ : o.call n accept s₂ = .next t₂) :
    ∃ v₁ v₂, Q v₁ v₂ ∧ t₁ = o.put v₁ s₁ ∧ t₂ = o.put v₂ s₂ := by
  rcases call_eq_next h₁ with ⟨hb, -⟩ | ⟨-, u₁, hu₁, v₁, hv₁, rfl⟩
  · exact absurd hb hb₁
  rcases call_eq_next h₂ with ⟨hb, -⟩ | ⟨-, u₂, hu₂, v₂, hv₂, rfl⟩
  · exact absurd hb hb₂
  obtain ⟨rfl, -⟩ := requireSource_eq_next.mp hu₁
  obtain ⟨rfl, -⟩ := requireSource_eq_next.mp hu₂
  exact ⟨v₁, v₂, ho.runToDone hstart hv₁ hv₂, rfl, rfl⟩

end OfLockstep

/-- Two units with the registers `r` are in step, `n` elements having been written to DST: they agree in SRC below LEN
and in DST below `n`, and ODX counts to `n`. -/
structure InStep {α β : Type} (n : Nat) (r : Regs) (src₁ src₂ : Buffer α) (dst₁ dst₂ : Buffer β) : Prop where
  busy : r.Busy
  idx_le : r.idx.toNat ≤ r.len.toNat
  odx_eq : r.odx = BitVec.ofNat 32 n
  src_same : src₁.SameBelow r.len.toNat src₂
  dst_same : dst₁.SameBelow n dst₂

section InStep
variable {α β : Type} {n : Nat} {r : Regs} {src₁ src₂ : Buffer α} {dst₁ dst₂ : Buffer β}

/-- Units that start are in step, nothing having been written. -/
theorem inStep_start (n : Nat) (r : Regs) (dst₁ dst₂ : Buffer β) (h : src₁.SameBelow r.len.toNat src₂) :
    InStep 0 (start n r) src₁ src₂ dst₁ dst₂ :=
  ⟨rfl, Nat.zero_le _, rfl, h, Buffer.sameBelow_zero _ _⟩

/-- Both units read the same element of SRC. -/
theorem InStep.read (h : InStep n r src₁ src₂ dst₁ dst₂) {i : LenWord} (hi : i.toNat < r.len.toNat) {c : α}
    (hc : src₁.read i.toNat = some c) : src₂.read i.toNat = some c := (h.src_same _ hi i.isLt).trans hc

/-- Both units move IDX. -/
theorem InStep.moveTo (h : InStep n r src₁ src₂ dst₁ dst₂) {i : LenWord} (hi : i.toNat ≤ r.len.toNat) :
    InStep n { r with idx := i } src₁ src₂ dst₁ dst₂ := { h with idx_le := hi }

/-- Both units write the same element to DST. -/
theorem InStep.write (h : InStep n r src₁ src₂ dst₁ dst₂) {i : LenWord} (hi : i.toNat ≤ r.len.toNat) (v : β) :
    InStep (n + 1) { r with idx := i, odx := r.odx + 1 } src₁ src₂ (dst₁.write r.odx.toNat v)
      (dst₂.write r.odx.toNat v) where
  busy := h.busy
  idx_le := hi
  odx_eq := by simp only [h.odx_eq, BitVec.ofNat_add, BitVec.ofNat_eq_ofNat]
  src_same := h.src_same
  dst_same := h.dst_same.write h.odx_eq v

/-- Both units check the same character: both go on, or both end. -/
theorem InStep.scanOne (h : InStep n r src₁ src₂ dst₁ dst₂) (hlt : r.idx < r.len)
    (hcheck : r.Validates → r.outlen = 0) (valid : Bool) :
    (scanOne valid r = { r with idx := r.idx + 1 } ∧ (r.idx + 1).toNat = r.idx.toNat + 1 ∧
      InStep n { r with idx := r.idx + 1 } src₁ src₂ dst₁ dst₂) ∨
    SameOutcome (scanOne valid r) (scanOne valid r) dst₁ dst₂ := by
  have hidx₁ : (r.idx + 1).toNat = r.idx.toNat + 1 := by bv_omega
  rcases scanOne_cases valid r with ⟨-, e⟩ | ⟨-, hv, e⟩ | ⟨-, -, e⟩
  · exact .inl ⟨e, hidx₁, h.moveTo (by bv_omega)⟩
  · exact .inr (e ▸ sameOutcome_complete h.dst_same (by simp [hcheck hv]))
  · exact .inr (e ▸ sameOutcome_raise _ _ _ _ _)

/-- Both units end the scan: both go on to write, or both end. -/
theorem InStep.scanEnd (h : InStep n r src₁ src₂ dst₁ dst₂) (hcheck : r.Validates → r.outlen = 0) :
    (¬r.Validates ∧ scanEnd r = ({ r with idx := 0 }, .emit) ∧
      InStep n { r with idx := 0 } src₁ src₂ dst₁ dst₂) ∨
    SameOutcome (scanEnd r).1 (scanEnd r).1 dst₁ dst₂ := by
  rcases scanEnd_cases r with ⟨hv, e⟩ | ⟨hv, e⟩
  · exact .inr (e ▸ sameOutcome_complete h.dst_same (by simp [hcheck hv]))
  · exact .inl ⟨hv, e, h.moveTo (Nat.zero_le _)⟩

end InStep

/-! ## hex_encoder -/

/-- hex_encoder `u` is in step with one that has the buffers `src` and `dst`, with at most `m` steps to go: two
characters have been written for each byte taken in. -/
structure HexEncoder.InStepWith (m : Nat) (u : HexEncoder) (src : Buffer Byte) (dst : Buffer Chr) : Prop extends
    InStep (2 * u.regs.idx.toNat) u.regs u.src src u.dst dst where
  outlen_le : u.regs.outlen.toNat ≤ 2 * u.regs.len.toNat
  left : u.regs.len.toNat + 1 ≤ m + u.regs.idx.toNat

/-- Two hex_encoders are in step, with at most `m` steps to go. -/
def HexEncoder.Twins (m : Nat) (u₁ u₂ : HexEncoder) : Prop :=
  ∃ src dst, u₂ = { u₁ with src := src, dst := dst } ∧ u₁.InStepWith m src dst

section HexEncoderTwins
variable {m : Nat} {u : HexEncoder} {src : Buffer Byte} {dst : Buffer Chr}

/-- Both units encode the same byte. -/
theorem HexEncoder.InStepWith.encodeByte (h : u.InStepWith (m + 1) src dst) (hlt : u.regs.idx < u.regs.len) (b : Byte) :
    Twins m (hexEncodeByte b u) (hexEncodeByte b { u with src := src, dst := dst }) := by
  rw [BitVec.lt_def] at hlt
  have hidx₁ : (u.regs.idx + 1).toNat = u.regs.idx.toNat + 1 := by bv_omega
  have hidx : (u.regs.idx + 1).toNat ≤ u.regs.len.toNat := by omega
  have hleft := h.left
  have hnext := (h.write hidx (hexAlpha (highNibble b))).write hidx (hexAlpha (lowNibble b))
  rw [BitVec.add_assoc] at hnext
  refine ⟨src, _, rfl, ?_, h.outlen_le, ?_⟩
  · rw [hexEncodeByte_idx, hidx₁]
    exact hnext
  · simp only [hexEncodeByte_len, hexEncodeByte_idx]
    omega

theorem hexEncoderOps_lockstep :
    hexEncoderOps.Lockstep HexEncoder.Twins fun u₁ u₂ => SameOutcome u₁.regs u₂.regs u₁.dst u₂.dst where
  running := by
    rintro m u - ⟨src, dst, rfl, h⟩
    have hidx := h.idx_le
    have hleft := h.left
    exact ⟨by omega, h.busy, h.busy⟩
  ended := SameOutcome.not_busy
  turn := by
    rintro m u - v₁ v₂ ⟨src, dst, rfl, h⟩ h₁ h₂
    rcases hexEncoderTurn_cases h₁ with ⟨b, hlt, hread, rfl⟩ | ⟨hend, rfl⟩
    · cases h₂.symm.trans (hexEncoderTurn_of_lt (u := { u with src := src, dst := dst }) hlt (h.read hlt hread))
      exact .inl (h.encodeByte hlt b)
    · cases h₂.symm.trans (hexEncoderTurn_of_end (u := { u with src := src, dst := dst }) hend)
      exact .inr (sameOutcome_complete h.dst_same (hend ▸ h.outlen_le))

/-- Two acceptances of TOHEX with the same source leave hex_encoders in step, or ended alike. -/
theorem HexEncoder.twins_accept (p : Params) (len : LenWord) {u₁ u₂ : HexEncoder}
    (hsrc : u₁.src.SameBelow len.toNat u₂.src) :
    Twins (len.toNat + 1) (acceptToHex p len u₁) (acceptToHex p len u₂) ∨
      SameOutcome (acceptToHex p len u₁).regs (acceptToHex p len u₂).regs (acceptToHex p len u₁).dst
        (acceptToHex p len u₂).dst := by
  refine (acceptEncode_twice u₁.regs u₂.regs u₁.dst u₂.dst).imp_left fun ⟨e₁, e₂⟩ => ?_
  refine ⟨u₂.src, u₂.dst, by rw [acceptToHex, e₂, acceptToHex], ?_, ?_, ?_⟩
  · rw [acceptToHex_regs, e₁]
    exact inStep_start _ _ _ _ hsrc
  · simp only [acceptToHex_regs, e₁, start_outlen, BitVec.toNat_ofNat]
    exact Nat.mod_le _ _
  · simp [e₁]

end HexEncoderTwins

/-! ## hex_decoder -/

/-- hex_decoder `u` is in step with one that has the buffers `src` and `dst`, with at most `m` steps to go: in the EMIT
pass one byte has been written for each pair taken in. -/
structure HexDecoder.InStepWith (m : Nat) (u : HexDecoder) (src : Buffer Chr) (dst : Buffer Byte) : Prop extends
    InStep u.regs.odx.toNat u.regs u.src src u.dst dst where
  even : u.regs.len.toNat % 2 = 0
  outlen_check : u.regs.Validates → u.regs.outlen = 0
  outlen_le : u.regs.outlen.toNat ≤ u.regs.len.toNat / 2
  scan : u.phase = .scan → u.regs.odx = 0 ∧ u.regs.len.toNat + 1 ≤ m + u.regs.idx.toNat ∧
    (¬u.regs.Validates → u.regs.len.toNat + 1 + (u.regs.len.toNat / 2 + 1) ≤ m + u.regs.idx.toNat)
  emit : u.phase = .emit → u.regs.idx.toNat = 2 * u.regs.odx.toNat ∧
    u.regs.len.toNat / 2 + 1 ≤ m + u.regs.odx.toNat

/-- Two hex_decoders are in step, with at most `m` steps to go. -/
def HexDecoder.Twins (m : Nat) (u₁ u₂ : HexDecoder) : Prop :=
  ∃ src dst, u₂ = { u₁ with src := src, dst := dst } ∧ u₁.InStepWith m src dst

section HexDecoderTwins
variable {m : Nat} {u : HexDecoder} {src : Buffer Chr} {dst : Buffer Byte}

/-- Units in step have a step to go. -/
theorem HexDecoder.InStepWith.pos (h : u.InStepWith m src dst) : 0 < m := by
  have hidx := h.idx_le
  cases hphase : u.phase with
  | scan =>
    obtain ⟨-, hleft, -⟩ := h.scan hphase
    omega
  | emit =>
    obtain ⟨hodx, hleft⟩ := h.emit hphase
    omega

/-- Both units check the same character. -/
theorem HexDecoder.InStepWith.scanOne (h : u.InStepWith (m + 1) src dst) (hphase : u.phase = .scan)
    (hlt : u.regs.idx < u.regs.len) (valid : Bool) :
    Twins m { u with regs := scanOne valid u.regs } { u with regs := scanOne valid u.regs, src := src, dst := dst } ∨
      SameOutcome (scanOne valid u.regs) (scanOne valid u.regs) u.dst dst := by
  refine (h.toInStep.scanOne hlt h.outlen_check valid).imp_left fun ⟨e, hidx₁, hnext⟩ => ?_
  obtain ⟨hodx, hleft, hleft'⟩ := h.scan hphase
  refine ⟨src, dst, rfl, ?_⟩
  rw [e]
  exact ⟨hnext, h.even, h.outlen_check, h.outlen_le,
    fun _ => ⟨hodx, by simp only; omega, fun hv => by have := hleft' hv; simp only; omega⟩,
    fun he => absurd (hphase.symm.trans he) nofun⟩

/-- Both units end the scan. -/
theorem HexDecoder.InStepWith.scanEnd (h : u.InStepWith (m + 1) src dst) (hphase : u.phase = .scan)
    (hend : u.regs.idx = u.regs.len) :
    Twins m { u with regs := (scanEnd u.regs).1, phase := (scanEnd u.regs).2 }
        { u with regs := (scanEnd u.regs).1, phase := (scanEnd u.regs).2, src := src, dst := dst } ∨
      SameOutcome (scanEnd u.regs).1 (scanEnd u.regs).1 u.dst dst := by
  refine (h.toInStep.scanEnd h.outlen_check).imp_left fun ⟨hv, e, hnext⟩ => ?_
  obtain ⟨hodx, -, hleft⟩ := h.scan hphase
  have hleft := hleft hv
  have hodx₀ : u.regs.odx.toNat = 0 := by simp [hodx]
  have hidx : u.regs.idx.toNat = u.regs.len.toNat := by rw [hend]
  refine ⟨src, dst, rfl, ?_⟩
  rw [e]
  exact ⟨hnext, h.even, h.outlen_check, h.outlen_le, nofun, fun _ => ⟨by simp [hodx₀], by simp only; omega⟩⟩

/-- Both units decode the same pair. -/
theorem HexDecoder.InStepWith.decodePair (h : u.InStepWith (m + 1) src dst) (hphase : u.phase = .emit)
    (hlt : u.regs.idx < u.regs.len) (hi lo : BitVec 4) :
    Twins m (hexDecodePair hi lo u) (hexDecodePair hi lo { u with src := src, dst := dst }) := by
  obtain ⟨hidx, hleft⟩ := h.emit hphase
  have heven := h.even
  rw [BitVec.lt_def] at hlt
  have hidx₂ : (u.regs.idx + 2).toNat = u.regs.idx.toNat + 2 := by bv_omega
  have hodx₁ : (u.regs.odx + 1).toNat = u.regs.odx.toNat + 1 := by bv_omega
  have hnext := h.write (i := u.regs.idx + 2) (by omega) (joinNibbles hi lo)
  refine ⟨src, _, rfl, ?_, heven, h.outlen_check, h.outlen_le, fun hs => absurd (hphase.symm.trans hs) nofun,
    fun _ => ?_⟩
  · rw [hexDecodePair_odx, hodx₁]
    exact hnext
  · simp only [hexDecodePair_idx, hexDecodePair_odx, hexDecodePair_len]
    omega

theorem hexDecoderOps_lockstep :
    hexDecoderOps.Lockstep HexDecoder.Twins fun u₁ u₂ => SameOutcome u₁.regs u₂.regs u₁.dst u₂.dst where
  running := by
    rintro m u - ⟨src, dst, rfl, h⟩
    exact ⟨h.pos, h.busy, h.busy⟩
  ended := SameOutcome.not_busy
  turn := by
    rintro m u - v₁ v₂ ⟨src, dst, rfl, h⟩ h₁ h₂
    rcases hexDecoderTurn_cases h₁ with ⟨c, hphase, hlt, hc, rfl⟩ | ⟨hphase, hend, rfl⟩ |
      ⟨c₁, c₂, hi, lo, hphase, hlt, hc₁, hc₂, hhi, hlo, rfl⟩ | ⟨hphase, hend, rfl⟩
    · cases h₂.symm.trans (hexDecoderTurn_of_scan (u := { u with src := src, dst := dst }) hphase hlt (h.read hlt hc))
      exact h.scanOne hphase hlt _
    · cases h₂.symm.trans (hexDecoderTurn_of_scan_end (u := { u with src := src, dst := dst }) hphase hend)
      exact h.scanEnd hphase hend
    · obtain ⟨hidx, -⟩ := h.emit hphase
      have heven := h.even
      have hlt₁ : (u.regs.idx + 1).toNat < u.regs.len.toNat := by bv_omega
      cases h₂.symm.trans (hexDecoderTurn_of_emit (u := { u with src := src, dst := dst }) hphase hlt
        (h.read hlt hc₁) (h.read hlt₁ hc₂) hhi hlo)
      exact .inl (h.decodePair hphase hlt hi lo)
    · cases h₂.symm.trans (hexDecoderTurn_of_emit_end (u := { u with src := src, dst := dst }) hphase hend)
      obtain ⟨hidx, -⟩ := h.emit hphase
      have hout := h.outlen_le
      rw [hend] at hidx
      exact .inr (sameOutcome_complete h.dst_same (by omega))

/-- Two acceptances of FROMHEX or ISHEX with the same source leave hex_decoders in step, or ended alike. -/
theorem HexDecoder.twins_accept {op : OpCode} {len : LenWord} {fuel : Nat} {u₁ u₂ : HexDecoder}
    (hsrc : u₁.src.SameBelow len.toNat u₂.src) (hcheck : len.toNat + 1 ≤ fuel)
    (hdecode : op.getLsbD 0 = false → len.toNat + 1 + (len.toNat / 2 + 1) ≤ fuel) :
    Twins fuel (acceptHexDecoder op len u₁) (acceptHexDecoder op len u₂) ∨
      SameOutcome (acceptHexDecoder op len u₁).regs (acceptHexDecoder op len u₂).regs (acceptHexDecoder op len u₁).dst
        (acceptHexDecoder op len u₂).dst := by
  refine (acceptDecode_twice u₁.regs u₂.regs u₁.dst u₂.dst).imp_left fun ⟨hok, e₁, e₂⟩ => ?_
  have hb₁ : (acceptDecode op hexLengthOk fromHexLength len u₁.regs).Busy := by rw [e₁]; rfl
  refine ⟨u₂.src, u₂.dst, by simp only [acceptHexDecoder, e₂, if_pos hb₁], ?_⟩
  have hphase : (acceptHexDecoder op len u₁).phase = .scan := if_pos hb₁
  refine ⟨?_, ?_, ?_, ?_, ?_, ?_⟩
  · rw [acceptHexDecoder_regs, e₁]
    exact inStep_start _ _ _ _ hsrc
  · simpa [hexLengthOk] using hok
  · intro hv
    have hv : op.getLsbD 0 = true := by simpa only [Regs.Validates, acceptHexDecoder_regs, acceptDecode_op] using hv
    exact acceptDecode_outlen_of_check hb₁ hv
  · rw [acceptHexDecoder_regs, acceptDecode_len]
    exact acceptDecode_outlen_le hb₁
  · simp only [acceptHexDecoder_regs, e₁, start_odx, start_idx, start_len, load_len, Regs.Validates, start_op, load_op]
    exact fun _ => ⟨trivial, hcheck, fun hv => hdecode (by simpa using hv)⟩
  · exact fun he => absurd (hphase.symm.trans he) nofun

end HexDecoderTwins

/-! ## base32_encoder -/

/-- base32_encoder `u` is in step with one that has the buffers `src` and `dst`, `n` characters having been written and
with at most `m` steps to go: the bits taken in are those written and those held, until the last character is filled. -/
structure Base32Encoder.InStepWith (n m : Nat) (u : Base32Encoder) (src : Buffer Byte) (dst : Buffer Chr) : Prop extends
    InStep n u.regs u.src src u.dst dst where
  outlen_le : u.regs.outlen.toNat ≤ toBase32Length u.regs.len.toNat
  bits_le : u.bits.toNat ≤ 7
  balance : 5 * n + u.bits.toNat = 8 * u.regs.idx.toNat ∨
    (u.bits.toNat = 0 ∧ u.regs.idx = u.regs.len ∧ n = toBase32Length u.regs.len.toNat)
  left : toBase32Length u.regs.len.toNat + 1 ≤ m + n

/-- Two base32_encoders are in step, with at most `m` steps to go. -/
def Base32Encoder.Twins (m : Nat) (u₁ u₂ : Base32Encoder) : Prop :=
  ∃ n src dst, u₂ = { u₁ with src := src, dst := dst } ∧ u₁.InStepWith n m src dst

section Base32EncoderTwins
variable {n m : Nat} {u : Base32Encoder} {src : Buffer Byte} {dst : Buffer Chr}

/-- No more is written than the output. -/
theorem Base32Encoder.InStepWith.written_le (h : u.InStepWith n m src dst) : n ≤ toBase32Length u.regs.len.toNat := by
  have hidx := h.idx_le
  rcases h.balance with hbalance | ⟨-, -, hfull⟩
  · unfold toBase32Length
    omega
  · exact hfull.le

/-- At the end of the source with no bits held, the whole output has been written. -/
theorem Base32Encoder.InStepWith.written_of_end (h : u.InStepWith n m src dst) (hbits : u.bits = 0)
    (hend : u.regs.idx = u.regs.len) : n = toBase32Length u.regs.len.toNat := by
  rcases h.balance with hbalance | ⟨-, -, hfull⟩
  · have hheld : u.bits.toNat = 0 := by simp [hbits]
    rw [← hend, toBase32Length]
    omega
  · exact hfull

/-- Both units give out the same character. -/
theorem Base32Encoder.InStepWith.emitSymbol (h : u.InStepWith n (m + 1) src dst) (buf : Nat) {bits : Nat}
    {idx : LenWord} (hbits : bits ≤ 12) (hidx : idx.toNat ≤ u.regs.len.toNat)
    (hbalance : 5 * (n + 1) + (bits - 5) = 8 * idx.toNat ∨
      (bits = 5 ∧ idx = u.regs.len ∧ n + 1 = toBase32Length u.regs.len.toNat)) :
    Twins m (base32EmitSymbol buf bits idx u) (base32EmitSymbol buf bits idx { u with src := src, dst := dst }) := by
  have hleft := h.left
  have hbits' : (base32EmitSymbol buf bits idx u).bits.toNat = bits - 5 := by
    rw [base32EmitSymbol_bits, BitVec.toNat_ofNat, Nat.mod_eq_of_lt (by omega)]
  refine ⟨n + 1, src, _, rfl, h.write hidx _, h.outlen_le, by omega, ?_, ?_⟩
  · rw [hbits']
    exact hbalance.imp_right fun ⟨h5, hend, hfull⟩ => ⟨by omega, hend, hfull⟩
  · rw [base32EmitSymbol_len]
    omega

theorem base32EncoderOps_lockstep :
    base32EncoderOps.Lockstep Base32Encoder.Twins fun u₁ u₂ => SameOutcome u₁.regs u₂.regs u₁.dst u₂.dst where
  running := by
    rintro m u - ⟨n, src, dst, rfl, h⟩
    have hwritten := h.written_le
    have hleft := h.left
    exact ⟨by omega, h.busy, h.busy⟩
  ended := SameOutcome.not_busy
  turn := by
    rintro m u - v₁ v₂ ⟨n, src, dst, rfl, h⟩ h₁ h₂
    have hbits := h.bits_le
    have hidx := h.idx_le
    have hbalance : 5 * n + u.bits.toNat = 8 * u.regs.idx.toNat ∨
        (u.bits.toNat = 0 ∧ u.regs.idx.toNat = u.regs.len.toNat) :=
      h.balance.imp_right fun ⟨h0, hend, _⟩ => ⟨h0, by rw [hend]⟩
    rcases base32EncoderTurn_cases h₁ with ⟨h0, hend, rfl⟩ | ⟨b, hlt5, hlt, hb, rfl⟩ | ⟨hmore, hlt5, hge, rfl⟩ |
      ⟨h5, rfl⟩
    · cases h₂.symm.trans (base32EncoderTurn_of_end (u := { u with src := src, dst := dst }) h0 hend)
      exact .inr (sameOutcome_complete h.dst_same (h.written_of_end h0 hend ▸ h.outlen_le))
    · cases h₂.symm.trans (base32EncoderTurn_of_lt (u := { u with src := src, dst := dst }) hlt5 hlt (h.read hlt hb))
      rw [BitVec.lt_def] at hlt
      have hidx₁ : (u.regs.idx + 1).toNat = u.regs.idx.toNat + 1 := by bv_omega
      exact .inl (h.emitSymbol _ (by omega) (by omega) (.inl (by omega)))
    · cases h₂.symm.trans (base32EncoderTurn_of_fill (u := { u with src := src, dst := dst }) hmore hlt5 hge)
      have hend : u.regs.idx = u.regs.len := by bv_omega
      have hheld : u.bits.toNat ≠ 0 := fun h0 => hmore ⟨BitVec.eq_of_toNat_eq h0, hend⟩
      have hlast : n + 1 = toBase32Length u.regs.len.toNat := by
        rw [← hend, toBase32Length]
        omega
      exact .inl (h.emitSymbol _ (by omega) hidx (.inr ⟨rfl, hend, hlast⟩))
    · cases h₂.symm.trans (base32EncoderTurn_of_held (u := { u with src := src, dst := dst }) h5)
      exact .inl (h.emitSymbol _ (by omega) hidx (.inl (by omega)))

/-- Two acceptances of TOBASE32 with the same source leave base32_encoders in step, or ended alike. -/
theorem Base32Encoder.twins_accept (p : Params) (len : LenWord) {u₁ u₂ : Base32Encoder}
    (hsrc : u₁.src.SameBelow len.toNat u₂.src) :
    Twins (toBase32Length len.toNat + 1) (acceptToBase32 p len u₁) (acceptToBase32 p len u₂) ∨
      SameOutcome (acceptToBase32 p len u₁).regs (acceptToBase32 p len u₂).regs (acceptToBase32 p len u₁).dst
        (acceptToBase32 p len u₂).dst := by
  refine (acceptEncode_twice u₁.regs u₂.regs u₁.dst u₂.dst).imp_left fun ⟨e₁, e₂⟩ => ?_
  have hb₁ : (acceptEncode 0b100#3 p.b32MaxIn toBase32Length len u₁.regs).Busy := by rw [e₁]; rfl
  have hbits : (acceptToBase32 p len u₁).bits = 0 := if_pos hb₁
  refine ⟨0, u₂.src, u₂.dst, by simp only [acceptToBase32, e₂, if_pos hb₁], ?_, ?_, ?_, ?_, ?_⟩
  · rw [acceptToBase32_regs, e₁]
    exact inStep_start _ _ _ _ hsrc
  · simp only [acceptToBase32_regs, e₁, start_outlen, BitVec.toNat_ofNat]
    exact Nat.mod_le _ _
  · simp [hbits]
  · simp [hbits, e₁]
  · simp [e₁]

end Base32EncoderTwins

/-! ## base32_decoder -/

/-- base32_decoder `u` is in step with one that has the buffers `src` and `dst`, with at most `m` steps to go: in the
EMIT pass the bits taken in are those written and those held. -/
structure Base32Decoder.InStepWith (m : Nat) (u : Base32Decoder) (src : Buffer Chr) (dst : Buffer Byte) : Prop extends
    InStep u.regs.odx.toNat u.regs u.src src u.dst dst where
  outlen_check : u.regs.Validates → u.regs.outlen = 0
  outlen_le : u.regs.outlen.toNat ≤ fromBase32Length u.regs.len.toNat
  scan : u.phase = .scan → u.regs.odx = 0 ∧ u.bits = 0 ∧ u.regs.len.toNat + 1 ≤ m + u.regs.idx.toNat ∧
    (¬u.regs.Validates → 2 * u.regs.len.toNat + 2 ≤ m + u.regs.idx.toNat)
  emit : u.phase = .emit → u.bits.toNat ≤ 7 ∧ 8 * u.regs.odx.toNat + u.bits.toNat = 5 * u.regs.idx.toNat ∧
    u.regs.len.toNat + 1 ≤ m + u.regs.idx.toNat

/-- Two base32_decoders are in step, with at most `m` steps to go. -/
def Base32Decoder.Twins (m : Nat) (u₁ u₂ : Base32Decoder) : Prop :=
  ∃ src dst, u₂ = { u₁ with src := src, dst := dst } ∧ u₁.InStepWith m src dst

/-- With eight bits or more at hand, a unit with other buffers takes the same character in and gives out the same
byte. -/
theorem base32TakeSymbol_twin_of_full (x : BitVec 5) {u : Base32Decoder} (h8 : 3 ≤ u.bits.toNat) (src : Buffer Chr)
    (dst : Buffer Byte) : ∃ b, (base32TakeSymbol x u).dst = u.dst.write u.regs.odx.toNat b ∧
      base32TakeSymbol x { u with src := src, dst := dst } =
        { base32TakeSymbol x u with src := src, dst := dst.write u.regs.odx.toNat b } := by
  have h : 8 ≤ u.bits.toNat + 5 := by omega
  simp only [base32TakeSymbol, h, ↓reduceIte]
  exact ⟨_, rfl, rfl⟩

/-- With fewer than eight bits at hand, a unit with other buffers takes the same character in. -/
theorem base32TakeSymbol_twin_of_held (x : BitVec 5) {u : Base32Decoder} (h8 : u.bits.toNat < 3) (src : Buffer Chr)
    (dst : Buffer Byte) : base32TakeSymbol x { u with src := src, dst := dst } =
      { base32TakeSymbol x u with src := src, dst := dst } := by
  have h : ¬8 ≤ u.bits.toNat + 5 := by omega
  simp [base32TakeSymbol, h]

section Base32DecoderTwins
variable {m : Nat} {u : Base32Decoder} {src : Buffer Chr} {dst : Buffer Byte}

/-- Units in step have a step to go. -/
theorem Base32Decoder.InStepWith.pos (h : u.InStepWith m src dst) : 0 < m := by
  have hidx := h.idx_le
  cases hphase : u.phase with
  | scan =>
    obtain ⟨-, -, hleft, -⟩ := h.scan hphase
    omega
  | emit =>
    obtain ⟨-, -, hleft⟩ := h.emit hphase
    omega

/-- Both units check the same character. -/
theorem Base32Decoder.InStepWith.scanOne (h : u.InStepWith (m + 1) src dst) (hphase : u.phase = .scan)
    (hlt : u.regs.idx < u.regs.len) (valid : Bool) :
    Twins m { u with regs := scanOne valid u.regs } { u with regs := scanOne valid u.regs, src := src, dst := dst } ∨
      SameOutcome (scanOne valid u.regs) (scanOne valid u.regs) u.dst dst := by
  refine (h.toInStep.scanOne hlt h.outlen_check valid).imp_left fun ⟨e, hidx₁, hnext⟩ => ?_
  obtain ⟨hodx, hbits, hleft, hleft'⟩ := h.scan hphase
  refine ⟨src, dst, rfl, ?_⟩
  rw [e]
  exact ⟨hnext, h.outlen_check, h.outlen_le,
    fun _ => ⟨hodx, hbits, by simp only; omega, fun hv => by have := hleft' hv; simp only; omega⟩,
    fun he => absurd (hphase.symm.trans he) nofun⟩

/-- Both units end the scan. -/
theorem Base32Decoder.InStepWith.scanEnd (h : u.InStepWith (m + 1) src dst) (hphase : u.phase = .scan)
    (hend : u.regs.idx = u.regs.len) :
    Twins m { u with regs := (scanEnd u.regs).1, phase := (scanEnd u.regs).2 }
        { u with regs := (scanEnd u.regs).1, phase := (scanEnd u.regs).2, src := src, dst := dst } ∨
      SameOutcome (scanEnd u.regs).1 (scanEnd u.regs).1 u.dst dst := by
  refine (h.toInStep.scanEnd h.outlen_check).imp_left fun ⟨hv, e, hnext⟩ => ?_
  obtain ⟨hodx, hbits, -, hleft⟩ := h.scan hphase
  have hleft := hleft hv
  have hidx : u.regs.idx.toNat = u.regs.len.toNat := by rw [hend]
  refine ⟨src, dst, rfl, ?_⟩
  rw [e]
  exact ⟨hnext, h.outlen_check, h.outlen_le, nofun,
    fun _ => ⟨by simp [hbits], by simp [hodx, hbits], by simp only; omega⟩⟩

/-- Both units take the same character in. -/
theorem Base32Decoder.InStepWith.takeSymbol (h : u.InStepWith (m + 1) src dst) (hphase : u.phase = .emit)
    (hlt : u.regs.idx < u.regs.len) (x : BitVec 5) :
    Twins m (base32TakeSymbol x u) (base32TakeSymbol x { u with src := src, dst := dst }) := by
  obtain ⟨hbits, hbalance, hleft⟩ := h.emit hphase
  rw [BitVec.lt_def] at hlt
  have hidx₁ : (u.regs.idx + 1).toNat = u.regs.idx.toNat + 1 := by bv_omega
  have hphase' : (base32TakeSymbol x u).phase = .emit := by simpa using hphase
  have hregs := base32TakeSymbol_regs x u
  rcases base32TakeSymbol_cases x u with ⟨h8, -, ho, hbits'⟩ | ⟨h8, hd, ho, hbits'⟩
  · obtain ⟨b, hd, htwin⟩ := base32TakeSymbol_twin_of_full x h8 src dst
    have hodx₁ : (u.regs.odx + 1).toNat = u.regs.odx.toNat + 1 := by bv_omega
    rw [ho] at hregs
    refine ⟨src, _, htwin, ?_, ?_, ?_, fun hs => absurd (hphase'.symm.trans hs) nofun, fun _ => ?_⟩
    · rw [hregs, hd, base32TakeSymbol_src, hodx₁]
      exact h.write (by omega) b
    · rw [hregs]
      exact h.outlen_check
    · rw [hregs]
      exact h.outlen_le
    · rw [hbits', hregs, BitVec.toNat_ofNat, Nat.mod_eq_of_lt (by omega)]
      simp only
      omega
  · rw [ho] at hregs
    refine ⟨src, dst, base32TakeSymbol_twin_of_held x h8 src dst, ?_, ?_, ?_,
      fun hs => absurd (hphase'.symm.trans hs) nofun, fun _ => ?_⟩
    · rw [hregs, hd, base32TakeSymbol_src]
      exact h.moveTo (by omega)
    · rw [hregs]
      exact h.outlen_check
    · rw [hregs]
      exact h.outlen_le
    · rw [hbits', hregs, BitVec.toNat_ofNat, Nat.mod_eq_of_lt (by omega)]
      simp only
      omega

theorem base32DecoderOps_lockstep :
    base32DecoderOps.Lockstep Base32Decoder.Twins fun u₁ u₂ => SameOutcome u₁.regs u₂.regs u₁.dst u₂.dst where
  running := by
    rintro m u - ⟨src, dst, rfl, h⟩
    exact ⟨h.pos, h.busy, h.busy⟩
  ended := SameOutcome.not_busy
  turn := by
    rintro m u - v₁ v₂ ⟨src, dst, rfl, h⟩ h₁ h₂
    rcases base32DecoderTurn_cases h₁ with ⟨c, hphase, hlt, hc, rfl⟩ | ⟨hphase, hend, rfl⟩ |
      ⟨c, x, hphase, hlt, hc, hx, rfl⟩ | ⟨hphase, hend, rfl⟩
    · cases h₂.symm.trans
        (base32DecoderTurn_of_scan (u := { u with src := src, dst := dst }) hphase hlt (h.read hlt hc))
      exact h.scanOne hphase hlt _
    · cases h₂.symm.trans (base32DecoderTurn_of_scan_end (u := { u with src := src, dst := dst }) hphase hend)
      exact h.scanEnd hphase hend
    · cases h₂.symm.trans
        (base32DecoderTurn_of_emit (u := { u with src := src, dst := dst }) hphase hlt (h.read hlt hc) hx)
      exact .inl (h.takeSymbol hphase hlt x)
    · cases h₂.symm.trans (base32DecoderTurn_of_emit_end (u := { u with src := src, dst := dst }) hphase hend)
      obtain ⟨hbits, hbalance, -⟩ := h.emit hphase
      have hout := h.outlen_le
      rw [hend] at hbalance
      unfold fromBase32Length at hout
      exact .inr (sameOutcome_complete h.dst_same (by omega))

/-- Two acceptances of FROMBASE32 or ISBASE32 with the same source leave base32_decoders in step, or ended alike. -/
theorem Base32Decoder.twins_accept {op : OpCode} {len : LenWord} {fuel : Nat} {u₁ u₂ : Base32Decoder}
    (hsrc : u₁.src.SameBelow len.toNat u₂.src) (hcheck : len.toNat + 1 ≤ fuel)
    (hdecode : op.getLsbD 0 = false → 2 * len.toNat + 2 ≤ fuel) :
    Twins fuel (acceptBase32Decoder op len u₁) (acceptBase32Decoder op len u₂) ∨
      SameOutcome (acceptBase32Decoder op len u₁).regs (acceptBase32Decoder op len u₂).regs
        (acceptBase32Decoder op len u₁).dst (acceptBase32Decoder op len u₂).dst := by
  refine (acceptDecode_twice u₁.regs u₂.regs u₁.dst u₂.dst).imp_left fun ⟨_, e₁, e₂⟩ => ?_
  have hb₁ : (acceptDecode op b32LengthOk fromBase32Length len u₁.regs).Busy := by rw [e₁]; rfl
  refine ⟨u₂.src, u₂.dst, by simp only [acceptBase32Decoder, e₂, if_pos hb₁], ?_⟩
  have hphase : (acceptBase32Decoder op len u₁).phase = .scan := if_pos hb₁
  have hbits : (acceptBase32Decoder op len u₁).bits = 0 := if_pos hb₁
  refine ⟨?_, ?_, ?_, ?_, ?_⟩
  · rw [acceptBase32Decoder_regs, e₁]
    exact inStep_start _ _ _ _ hsrc
  · intro hv
    have hv : op.getLsbD 0 = true := by simpa only [Regs.Validates, acceptBase32Decoder_regs, acceptDecode_op] using hv
    exact acceptDecode_outlen_of_check hb₁ hv
  · rw [acceptBase32Decoder_regs, acceptDecode_len]
    exact acceptDecode_outlen_le hb₁
  · simp only [acceptBase32Decoder_regs, e₁, start_odx, start_idx, start_len, load_len, Regs.Validates, start_op,
      load_op]
    exact fun _ => ⟨trivial, hbits, hcheck, fun hv => hdecode (by simpa using hv)⟩
  · exact fun he => absurd (hphase.symm.trans he) nofun

end Base32DecoderTwins

/-! ## The outcome of a command -/

/-- Codes that agree as numbers agree as elements. -/
theorem map_toNat_inj {w : Nat} {x y : Option (BitVec w)} (h : x.map (·.toNat) = y.map (·.toNat)) : x = y :=
  Option.map_injective (fun _ _ => BitVec.eq_of_toNat_eq) h

section Outcomes
variable {op : OpCode} {len : LenWord} {fuel : Nat} {s₁ s₂ t₁ t₂ : State}

/-- TOHEX has the same outcome in both states. -/
theorem execToHex_sameOutcome (hp : s₁.params = s₂.params) (hb₁ : ¬s₁.hexEncoder.regs.Busy)
    (hb₂ : ¬s₂.hexEncoder.regs.Busy) (hsrc : s₁.hexEncoder.src.SameBelow len.toNat s₂.hexEncoder.src)
    (h₁ : execToHex len s₁ = .next t₁) (h₂ : execToHex len s₂ = .next t₂) :
    SameOutcome t₁.hexEncoder.regs t₂.hexEncoder.regs t₁.hexEncoder.dst t₂.hexEncoder.dst := by
  unfold execToHex at h₁ h₂
  rw [← hp] at h₂
  obtain ⟨v₁, v₂, hv, rfl, rfl⟩ := hexEncoderOps_lockstep.call hb₁ hb₂ (HexEncoder.twins_accept _ len hsrc) h₁ h₂
  exact hv

/-- FROMHEX or ISHEX has the same outcome in both states. -/
theorem hexDecoderCall_sameOutcome (hb₁ : ¬s₁.hexDecoder.regs.Busy) (hb₂ : ¬s₂.hexDecoder.regs.Busy)
    (hsrc : s₁.hexDecoder.src.SameBelow len.toNat s₂.hexDecoder.src) (hcheck : len.toNat + 1 ≤ fuel)
    (hdecode : op.getLsbD 0 = false → len.toNat + 1 + (len.toNat / 2 + 1) ≤ fuel)
    (h₁ : hexDecoderOps.call fuel (acceptHexDecoder op len) s₁ = .next t₁)
    (h₂ : hexDecoderOps.call fuel (acceptHexDecoder op len) s₂ = .next t₂) :
    SameOutcome t₁.hexDecoder.regs t₂.hexDecoder.regs t₁.hexDecoder.dst t₂.hexDecoder.dst := by
  obtain ⟨v₁, v₂, hv, rfl, rfl⟩ :=
    hexDecoderOps_lockstep.call hb₁ hb₂ (HexDecoder.twins_accept hsrc hcheck hdecode) h₁ h₂
  exact hv

/-- TOBASE32 has the same outcome in both states. -/
theorem execToBase32_sameOutcome (hp : s₁.params = s₂.params) (hb₁ : ¬s₁.base32Encoder.regs.Busy)
    (hb₂ : ¬s₂.base32Encoder.regs.Busy) (hsrc : s₁.base32Encoder.src.SameBelow len.toNat s₂.base32Encoder.src)
    (h₁ : execToBase32 len s₁ = .next t₁) (h₂ : execToBase32 len s₂ = .next t₂) :
    SameOutcome t₁.base32Encoder.regs t₂.base32Encoder.regs t₁.base32Encoder.dst t₂.base32Encoder.dst := by
  unfold execToBase32 at h₁ h₂
  rw [← hp] at h₂
  obtain ⟨v₁, v₂, hv, rfl, rfl⟩ :=
    base32EncoderOps_lockstep.call hb₁ hb₂ (Base32Encoder.twins_accept _ len hsrc) h₁ h₂
  exact hv

/-- FROMBASE32 or ISBASE32 has the same outcome in both states. -/
theorem base32DecoderCall_sameOutcome (hb₁ : ¬s₁.base32Decoder.regs.Busy) (hb₂ : ¬s₂.base32Decoder.regs.Busy)
    (hsrc : s₁.base32Decoder.src.SameBelow len.toNat s₂.base32Decoder.src) (hcheck : len.toNat + 1 ≤ fuel)
    (hdecode : op.getLsbD 0 = false → 2 * len.toNat + 2 ≤ fuel)
    (h₁ : base32DecoderOps.call fuel (acceptBase32Decoder op len) s₁ = .next t₁)
    (h₂ : base32DecoderOps.call fuel (acceptBase32Decoder op len) s₂ = .next t₂) :
    SameOutcome t₁.base32Decoder.regs t₂.base32Decoder.regs t₁.base32Decoder.dst t₂.base32Decoder.dst := by
  obtain ⟨v₁, v₂, hv, rfl, rfl⟩ :=
    base32DecoderOps_lockstep.call hb₁ hb₂ (Base32Decoder.twins_accept hsrc hcheck hdecode) h₁ h₂
  exact hv

end Outcomes

/-- Unit `u` has ended in both states with the same STATUS, the same OUTLEN and the same output (R45). -/
def SameOutcomeIn (u : UnitId) (t₁ t₂ : State) : Prop :=
  (t₁.regsOf u).status = (t₂.regsOf u).status ∧ (t₁.regsOf u).outlen = (t₂.regsOf u).outlen ∧
    ∀ k, k < (t₁.regsOf u).outlen.toNat → t₁.dstRead u k = t₂.dstRead u k

section OutcomeInState
variable {t₁ t₂ : State}

/-- The elements of the output are the same for the host. -/
theorem SameOutcome.dst_eq {β : Type} {r₁ r₂ : Regs} {d₁ d₂ : Buffer β} (h : SameOutcome r₁ r₂ d₁ d₂) {k : Nat}
    (hk : k < r₁.outlen.toNat) : d₁.read k = d₂.read k :=
  (h.dst_same k hk (hk.trans r₁.outlen.isLt)).symm

theorem sameOutcomeIn_hexEncoder
    (h : SameOutcome t₁.hexEncoder.regs t₂.hexEncoder.regs t₁.hexEncoder.dst t₂.hexEncoder.dst) :
    SameOutcomeIn .hexEncoder t₁ t₂ :=
  ⟨h.status_eq, h.outlen_eq, fun _ hk => h.dst_eq hk⟩

theorem sameOutcomeIn_hexDecoder
    (h : SameOutcome t₁.hexDecoder.regs t₂.hexDecoder.regs t₁.hexDecoder.dst t₂.hexDecoder.dst) :
    SameOutcomeIn .hexDecoder t₁ t₂ :=
  ⟨h.status_eq, h.outlen_eq, fun _ hk => congrArg (Option.map BitVec.toNat) (h.dst_eq hk)⟩

theorem sameOutcomeIn_base32Encoder
    (h : SameOutcome t₁.base32Encoder.regs t₂.base32Encoder.regs t₁.base32Encoder.dst t₂.base32Encoder.dst) :
    SameOutcomeIn .base32Encoder t₁ t₂ :=
  ⟨h.status_eq, h.outlen_eq, fun _ hk => h.dst_eq hk⟩

theorem sameOutcomeIn_base32Decoder
    (h : SameOutcome t₁.base32Decoder.regs t₂.base32Decoder.regs t₁.base32Decoder.dst t₂.base32Decoder.dst) :
    SameOutcomeIn .base32Decoder t₁ t₂ :=
  ⟨h.status_eq, h.outlen_eq, fun _ hk => congrArg (Option.map BitVec.toNat) (h.dst_eq hk)⟩

end OutcomeInState

/-- Settles O37: two runs of a command keep step, since no step looks at anything but the registers and SRC below LEN. -/
theorem outcomeDependsOnTheInputAlone : Obligations.OutcomeDependsOnTheInputAlone := by
  intro i s₁ s₂ t₁ t₂ hp hb₁ hb₂ hsrc h₁ h₂
  change SameOutcomeIn (unitOf i) t₁ t₂
  cases i with
  | toHex len =>
    rw [unitOf_toHex] at *
    exact sameOutcomeIn_hexEncoder
      (execToHex_sameOutcome hp hb₁ hb₂ (fun k hk _ => map_toNat_inj (hsrc k hk).symm) h₁ h₂)
  | fromHex len =>
    rw [unitOf_fromHex] at *
    exact sameOutcomeIn_hexDecoder (hexDecoderCall_sameOutcome (len := len) hb₁ hb₂ (fun k hk _ => (hsrc k hk).symm)
      (by omega) (fun _ => by omega) h₁ h₂)
  | isHex len =>
    rw [unitOf_isHex] at *
    exact sameOutcomeIn_hexDecoder (hexDecoderCall_sameOutcome (len := len) hb₁ hb₂ (fun k hk _ => (hsrc k hk).symm)
      le_rfl (fun hd => absurd hd (by decide)) h₁ h₂)
  | toBase32 len =>
    rw [unitOf_toBase32] at *
    exact sameOutcomeIn_base32Encoder
      (execToBase32_sameOutcome hp hb₁ hb₂ (fun k hk _ => map_toNat_inj (hsrc k hk).symm) h₁ h₂)
  | fromBase32 len =>
    rw [unitOf_fromBase32] at *
    exact sameOutcomeIn_base32Decoder (base32DecoderCall_sameOutcome (len := len) hb₁ hb₂
      (fun k hk _ => (hsrc k hk).symm) (by omega) (fun _ => le_rfl) h₁ h₂)
  | isBase32 len =>
    rw [unitOf_isBase32] at *
    exact sameOutcomeIn_base32Decoder (base32DecoderCall_sameOutcome (len := len) hb₁ hb₂
      (fun k hk _ => (hsrc k hk).symm) le_rfl (fun hd => absurd hd (by decide)) h₁ h₂)

end Sys2Proof.Machine

/-! PROOFS. The frame of a unit's step: OP, LEN, SRC, and DST but for the elements at ODX (10_state.md R23, R24, R38;
20_memory.md R64, R65). -/

namespace Sys2Proof.Machine

/-- What a step keeps of its unit: OP, LEN, SRC, and DST but for the indices `ks`. -/
structure KeptByTurn {α β : Type} (ks : List Nat) (r₀ r : Regs) (src₀ src : Buffer α) (dst₀ dst : Buffer β) :
    Prop where
  op_eq : r.op = r₀.op
  len_eq : r.len = r₀.len
  src_eq : src = src₀
  dst_same : ∀ k, k ∉ ks → dst.read k = dst₀.read k

/-- A step of hex_encoder writes the elements at ODX and next to it at most (R133, R134). -/
theorem hexEncoderTurn_kept {u v : HexEncoder} (h : hexEncoderTurn u = .next v) :
    KeptByTurn [u.regs.odx.toNat, (u.regs.odx + 1).toNat] u.regs v.regs u.src v.src u.dst v.dst := by
  rcases hexEncoderTurn_cases h with ⟨b, -, -, rfl⟩ | ⟨-, rfl⟩
  · refine ⟨rfl, rfl, rfl, fun k hk => ?_⟩
    simp only [List.mem_cons, List.not_mem_nil, or_false, not_or] at hk
    obtain ⟨h₁, h₂⟩ := hk
    exact (Buffer.read_write_other _ _ h₂).trans (Buffer.read_write_other _ _ h₁)
  · exact ⟨rfl, rfl, rfl, fun _ _ => rfl⟩

/-- A step of hex_decoder writes the element at ODX at most (R146 to R149). -/
theorem hexDecoderTurn_kept {u v : HexDecoder} (h : hexDecoderTurn u = .next v) :
    KeptByTurn [u.regs.odx.toNat] u.regs v.regs u.src v.src u.dst v.dst := by
  rcases hexDecoderTurn_cases h with ⟨c, -, -, -, rfl⟩ | ⟨-, -, rfl⟩ | ⟨c₁, c₂, hi, lo, -, -, -, -, -, -, rfl⟩ |
    ⟨-, -, rfl⟩
  · exact ⟨scanOne_op _ _, scanOne_len _ _, rfl, fun _ _ => rfl⟩
  · exact ⟨scanEnd_op _, scanEnd_len _, rfl, fun _ _ => rfl⟩
  · exact ⟨rfl, rfl, rfl, fun k hk => Buffer.read_write_other _ _ (List.ne_of_not_mem_cons hk)⟩
  · exact ⟨rfl, rfl, rfl, fun _ _ => rfl⟩

/-- A character given out by base32_encoder is written at ODX. -/
theorem base32EmitSymbol_kept (buf bits : Nat) (idx : LenWord) (u : Base32Encoder) :
    KeptByTurn [u.regs.odx.toNat] u.regs (base32EmitSymbol buf bits idx u).regs u.src
      (base32EmitSymbol buf bits idx u).src u.dst (base32EmitSymbol buf bits idx u).dst :=
  ⟨rfl, rfl, rfl, fun _ hk => Buffer.read_write_other _ _ (List.ne_of_not_mem_cons hk)⟩

/-- A step of base32_encoder writes the element at ODX at most (R164, R165). -/
theorem base32EncoderTurn_kept {u v : Base32Encoder} (h : base32EncoderTurn u = .next v) :
    KeptByTurn [u.regs.odx.toNat] u.regs v.regs u.src v.src u.dst v.dst := by
  rcases base32EncoderTurn_cases h with ⟨-, -, rfl⟩ | ⟨b, -, -, -, rfl⟩ | ⟨-, -, -, rfl⟩ | ⟨-, rfl⟩
  · exact ⟨rfl, rfl, rfl, fun _ _ => rfl⟩
  · exact base32EmitSymbol_kept _ _ _ u
  · exact base32EmitSymbol_kept _ _ _ u
  · exact base32EmitSymbol_kept _ _ _ u

/-- A step of base32_decoder writes the element at ODX at most (R186 to R190). -/
theorem base32DecoderTurn_kept {u v : Base32Decoder} (h : base32DecoderTurn u = .next v) :
    KeptByTurn [u.regs.odx.toNat] u.regs v.regs u.src v.src u.dst v.dst := by
  rcases base32DecoderTurn_cases h with ⟨c, -, -, -, rfl⟩ | ⟨-, -, rfl⟩ | ⟨c, x, -, -, -, -, rfl⟩ | ⟨-, -, rfl⟩
  · exact ⟨scanOne_op _ _, scanOne_len _ _, rfl, fun _ _ => rfl⟩
  · exact ⟨scanEnd_op _, scanEnd_len _, rfl, fun _ _ => rfl⟩
  · refine ⟨base32TakeSymbol_op x u, base32TakeSymbol_len x u, base32TakeSymbol_src x u, fun k hk => ?_⟩
    rcases base32TakeSymbol_cases x u with ⟨-, ⟨b, hd⟩, -, -⟩ | ⟨-, hd, -, -⟩
    · rw [hd]
      exact Buffer.read_write_other _ _ (List.ne_of_not_mem_cons hk)
    · rw [hd]
  · exact ⟨rfl, rfl, rfl, fun _ _ => rfl⟩

/-- What a turn of unit `u` keeps of it, as seen in the state. -/
def KeptInTurn (u : UnitId) (s t : State) : Prop :=
  (t.regsOf u).op = (s.regsOf u).op ∧ (t.regsOf u).len = (s.regsOf u).len ∧
    (∀ k, t.srcRead u k = s.srcRead u k) ∧
    (∀ k, k ≠ (s.regsOf u).odx.toNat → (u = .hexEncoder → k ≠ ((s.regsOf u).odx + 1).toNat) →
      t.dstRead u k = s.dstRead u k)

theorem KeptInTurn.refl (u : UnitId) (s : State) : KeptInTurn u s s := ⟨rfl, rfl, fun _ => rfl, fun _ _ _ => rfl⟩

/-- A turn that goes on keeps OP, LEN, SRC, and DST but for the elements at ODX. -/
theorem takeTurnOf_keptInTurn {u : UnitId} {s t : State} (h : takeTurnOf u s = .next t) : KeptInTurn u s t := by
  cases u with
  | hexEncoder =>
    rcases takeTurn_eq_next (o := hexEncoderOps) h with ⟨-, v, hv, rfl⟩ | ⟨-, rfl⟩
    · have hkept := hexEncoderTurn_kept hv
      exact ⟨hkept.op_eq, hkept.len_eq, fun k => by simp [State.srcRead, hkept.src_eq],
        fun k h₁ h₂ => hkept.dst_same k (by simpa using ⟨h₁, h₂ rfl⟩)⟩
    · exact .refl _ _
  | hexDecoder =>
    rcases takeTurn_eq_next (o := hexDecoderOps) h with ⟨-, v, hv, rfl⟩ | ⟨-, rfl⟩
    · have hkept := hexDecoderTurn_kept hv
      exact ⟨hkept.op_eq, hkept.len_eq, fun k => by simp [State.srcRead, hkept.src_eq],
        fun k h₁ _ => congrArg (Option.map BitVec.toNat) (hkept.dst_same k (by simpa using h₁))⟩
    · exact .refl _ _
  | base32Encoder =>
    rcases takeTurn_eq_next (o := base32EncoderOps) h with ⟨-, v, hv, rfl⟩ | ⟨-, rfl⟩
    · have hkept := base32EncoderTurn_kept hv
      exact ⟨hkept.op_eq, hkept.len_eq, fun k => by simp [State.srcRead, hkept.src_eq],
        fun k h₁ _ => hkept.dst_same k (by simpa using h₁)⟩
    · exact .refl _ _
  | base32Decoder =>
    rcases takeTurn_eq_next (o := base32DecoderOps) h with ⟨-, v, hv, rfl⟩ | ⟨-, rfl⟩
    · have hkept := base32DecoderTurn_kept hv
      exact ⟨hkept.op_eq, hkept.len_eq, fun k => by simp [State.srcRead, hkept.src_eq],
        fun k h₁ _ => congrArg (Option.map BitVec.toNat) (hkept.dst_same k (by simpa using h₁))⟩
    · exact .refl _ _

/-- Settles O36: a turn changes its own unit only, and its one step writes DST at ODX. -/
theorem turnLeavesTheRestAlone : Obligations.TurnLeavesTheRestAlone :=
  fun _ _ _ h => ⟨takeTurnOf_sameOutside h, takeTurnOf_keptInTurn h⟩

end Sys2Proof.Machine

/-! PROOFS. What a step does to STATUS.STATE: only a reset makes a unit IDLE, and only a reset or its next command takes
it out of DONE (10_state.md R27, 70_reset_and_hazards.md R260). -/

namespace Sys2Proof.Machine

/-! ## Acceptance and steps never leave a unit IDLE -/

theorem acceptEncode_not_idle (op : OpCode) (maxIn : Nat) (outLength : Nat → Nat) (len : LenWord) (r : Regs) :
    (acceptEncode op maxIn outLength len r).status.state ≠ .idle := by
  rcases acceptEncode_cases op maxIn outLength len r with ⟨-, e⟩ | ⟨-, -, e⟩ | ⟨-, -, e⟩ <;> simp [e]

theorem acceptDecode_not_idle (op : OpCode) (lengthOk : Nat → Bool) (outLength : Nat → Nat) (len : LenWord) (r : Regs) :
    (acceptDecode op lengthOk outLength len r).status.state ≠ .idle := by
  rcases acceptDecode_cases op lengthOk outLength len r with ⟨-, -, e⟩ | ⟨-, -, e⟩ | ⟨-, -, e⟩ | ⟨-, -, e⟩ <;> simp [e]

theorem complete_not_idle (r : Regs) : (complete r).status.state ≠ .idle := nofun

theorem not_idle_of_busy {r : Regs} (hb : r.Busy) : r.status.state ≠ .idle := by simp [hb]

theorem scanOne_not_idle {r : Regs} (hb : r.Busy) (valid : Bool) : (scanOne valid r).status.state ≠ .idle := by
  rcases scanOne_cases valid r with ⟨-, e⟩ | ⟨-, -, e⟩ | ⟨-, -, e⟩
  · exact e ▸ not_idle_of_busy hb
  · exact e ▸ complete_not_idle _
  · simp [e]

theorem scanEnd_not_idle {r : Regs} (hb : r.Busy) : (scanEnd r).1.status.state ≠ .idle := by
  rcases scanEnd_cases r with ⟨-, e⟩ | ⟨-, e⟩
  · exact e ▸ complete_not_idle _
  · exact e ▸ not_idle_of_busy hb

/-- A unit stored is the unit found, and no step of a BUSY unit makes it IDLE. -/
structure UnitOps.StaysAwake {α : Type} (o : UnitOps α) : Prop where
  get_put (u : α) (s : State) : o.get (o.put u s) = u
  turn {u v : α} : (o.regs u).Busy → o.turn u = .next v → (o.regs v).status.state ≠ .idle

theorem hexEncoderOps_staysAwake : hexEncoderOps.StaysAwake where
  get_put _ _ := rfl
  turn hb h := by
    rcases hexEncoderTurn_cases h with ⟨b, -, -, rfl⟩ | ⟨-, rfl⟩
    · exact not_idle_of_busy hb
    · exact complete_not_idle _

theorem hexDecoderOps_staysAwake : hexDecoderOps.StaysAwake where
  get_put _ _ := rfl
  turn hb h := by
    rcases hexDecoderTurn_cases h with ⟨c, -, -, -, rfl⟩ | ⟨-, -, rfl⟩ | ⟨c₁, c₂, hi, lo, -, -, -, -, -, -, rfl⟩ |
      ⟨-, -, rfl⟩
    · exact scanOne_not_idle hb _
    · exact scanEnd_not_idle hb
    · exact not_idle_of_busy hb
    · exact complete_not_idle _

theorem base32EncoderOps_staysAwake : base32EncoderOps.StaysAwake where
  get_put _ _ := rfl
  turn hb h := by
    rcases base32EncoderTurn_cases h with ⟨-, -, rfl⟩ | ⟨b, -, -, -, rfl⟩ | ⟨-, -, -, rfl⟩ | ⟨-, rfl⟩
    · exact complete_not_idle _
    · exact not_idle_of_busy hb
    · exact not_idle_of_busy hb
    · exact not_idle_of_busy hb

theorem base32DecoderOps_staysAwake : base32DecoderOps.StaysAwake where
  get_put _ _ := rfl
  turn hb h := by
    rcases base32DecoderTurn_cases h with ⟨c, -, -, -, rfl⟩ | ⟨-, -, rfl⟩ | ⟨c, x, -, -, -, -, rfl⟩ | ⟨-, -, rfl⟩
    · exact scanOne_not_idle hb _
    · exact scanEnd_not_idle hb
    · rw [base32DecoderOps_regs, base32TakeSymbol_regs]
      exact not_idle_of_busy hb
    · exact complete_not_idle _

section OfStaysAwake
variable {α : Type} {o : UnitOps α} {accept : α → α} {fuel : Nat} {s t : State}

/-- A turn changes nothing, or is a step of a BUSY unit, which is not IDLE after it. -/
theorem UnitOps.StaysAwake.takeTurn (ho : o.StaysAwake) (h : o.takeTurn s = .next t) :
    t = s ∨ ((o.regs (o.get s)).Busy ∧ (o.regs (o.get t)).status.state ≠ .idle) := by
  rcases takeTurn_eq_next h with ⟨hb, u, hu, rfl⟩ | ⟨-, rfl⟩
  · exact .inr ⟨hb, (ho.get_put u s).symm ▸ ho.turn hb hu⟩
  · exact .inl rfl

/-- A turn of a BUSY unit does not leave it IDLE. -/
theorem UnitOps.StaysAwake.takeTurn_of_busy (ho : o.StaysAwake) (hb : (o.regs (o.get s)).Busy)
    (h : o.takeTurn s = .next t) : (o.regs (o.get t)).status.state ≠ .idle := by
  rcases ho.takeTurn h with rfl | ⟨-, hn⟩
  · exact not_idle_of_busy hb
  · exact hn

/-- A command accepted does not leave its unit IDLE, nor does one that waits. -/
theorem UnitOps.StaysAwake.issue (ho : o.StaysAwake) (h : o.issue accept s = .next t)
    (haccept : ∀ u, (o.regs (accept u)).status.state ≠ .idle) : (o.regs (o.get t)).status.state ≠ .idle := by
  rcases issue_eq_next h with ⟨hb, ht⟩ | ⟨-, u, hu, rfl⟩
  · exact ho.takeTurn_of_busy hb ht
  · obtain ⟨rfl, -⟩ := requireSource_eq_next.mp hu
    exact (ho.get_put _ s).symm ▸ haccept _

/-- A command run whole does not leave its unit IDLE, nor does one that waits. -/
theorem UnitOps.StaysAwake.call (ho : o.StaysAwake) (h : o.call fuel accept s = .next t)
    (haccept : ∀ u, (o.regs (accept u)).status.state ≠ .idle) : (o.regs (o.get t)).status.state ≠ .idle := by
  rcases call_eq_next h with ⟨hb, ht⟩ | ⟨-, u, hu, v, hv, rfl⟩
  · exact ho.takeTurn_of_busy hb ht
  · obtain ⟨rfl, -⟩ := requireSource_eq_next.mp hu
    rw [ho.get_put]
    exact runToDone_induction (P := fun u => (o.regs u).status.state ≠ .idle) (fun _ _ _ => ho.turn) (haccept _) hv

end OfStaysAwake

/-! ## Turns and commands -/

theorem SameUnit.regsOf_eq {u : UnitId} {s t : State} (h : SameUnit u s t) : t.regsOf u = s.regsOf u := by
  cases u <;>
  · unfold SameUnit at h
    simp only [State.regsOf, h]

/-- Nothing outside the unit changes its registers. -/
theorem SameOutside.regsOf_eq {u v : UnitId} {s t : State} (h : SameOutside u s t) (hv : v ≠ u) :
    t.regsOf v = s.regsOf v := by
  obtain ⟨hunits, -⟩ := h
  exact (hunits v hv).regsOf_eq

/-- After a turn each unit has the registers it had, or was BUSY and is not IDLE. -/
theorem takeTurnOf_regsOf {u : UnitId} {s t : State} (h : takeTurnOf u s = .next t) (v : UnitId) :
    t.regsOf v = s.regsOf v ∨ ((s.regsOf v).Busy ∧ (t.regsOf v).status.state ≠ .idle) := by
  by_cases hv : v = u
  · subst hv
    have hregs : t = s ∨ ((s.regsOf v).Busy ∧ (t.regsOf v).status.state ≠ .idle) := by
      cases v with
      | hexEncoder => exact hexEncoderOps_staysAwake.takeTurn h
      | hexDecoder => exact hexDecoderOps_staysAwake.takeTurn h
      | base32Encoder => exact base32EncoderOps_staysAwake.takeTurn h
      | base32Decoder => exact base32DecoderOps_staysAwake.takeTurn h
    exact hregs.imp_left fun ht => by rw [ht]
  · exact .inl ((takeTurnOf_sameOutside h).regsOf_eq hv)

/-- A command run whole does not leave its unit IDLE. -/
theorem exec_not_idle {i : Instr} {s t : State} (h : exec i s = .next t) :
    (t.regsOf (unitOf i)).status.state ≠ .idle := by
  cases i with
  | toHex len =>
    rw [unitOf_toHex]
    exact hexEncoderOps_staysAwake.call h fun _ => acceptEncode_not_idle _ _ _ _ _
  | fromHex len =>
    rw [unitOf_fromHex]
    exact hexDecoderOps_staysAwake.call h fun _ => acceptDecode_not_idle _ _ _ _ _
  | isHex len =>
    rw [unitOf_isHex]
    exact hexDecoderOps_staysAwake.call h fun _ => acceptDecode_not_idle _ _ _ _ _
  | toBase32 len =>
    rw [unitOf_toBase32]
    exact base32EncoderOps_staysAwake.call h fun _ => acceptEncode_not_idle _ _ _ _ _
  | fromBase32 len =>
    rw [unitOf_fromBase32]
    exact base32DecoderOps_staysAwake.call h fun _ => acceptDecode_not_idle _ _ _ _ _
  | isBase32 len =>
    rw [unitOf_isBase32]
    exact base32DecoderOps_staysAwake.call h fun _ => acceptDecode_not_idle _ _ _ _ _

/-- A command accepted does not leave its unit IDLE. -/
theorem issueInstr_not_idle {i : Instr} {s t : State} (h : issueInstr i s = .next t) :
    (t.regsOf (unitOf i)).status.state ≠ .idle := by
  cases i with
  | toHex len =>
    rw [unitOf_toHex]
    exact hexEncoderOps_staysAwake.issue h fun _ => acceptEncode_not_idle _ _ _ _ _
  | fromHex len =>
    rw [unitOf_fromHex]
    exact hexDecoderOps_staysAwake.issue h fun _ => acceptDecode_not_idle _ _ _ _ _
  | isHex len =>
    rw [unitOf_isHex]
    exact hexDecoderOps_staysAwake.issue h fun _ => acceptDecode_not_idle _ _ _ _ _
  | toBase32 len =>
    rw [unitOf_toBase32]
    exact base32EncoderOps_staysAwake.issue h fun _ => acceptEncode_not_idle _ _ _ _ _
  | fromBase32 len =>
    rw [unitOf_fromBase32]
    exact base32DecoderOps_staysAwake.issue h fun _ => acceptDecode_not_idle _ _ _ _ _
  | isBase32 len =>
    rw [unitOf_isBase32]
    exact base32DecoderOps_staysAwake.issue h fun _ => acceptDecode_not_idle _ _ _ _ _

/-! ## The host's accesses -/

/-- A host's write of SRC leaves every unit's registers. -/
theorem hostWriteSrc_regsOf {u : UnitId} {i : LenWord} {v : Nat} {s t : State} (h : hostWriteSrc u i v s = .next t)
    (w : UnitId) : t.regsOf w = s.regsOf w := by
  cases u <;>
  · obtain ⟨b, -, ht⟩ := andThen_eq_next.mp h
    cases ht
    cases w <;> rfl

/-- The model's own fields are no part of a unit. -/
theorem regsOf_ownFields (s : State) (inputs : List Input) (answer : Option Answer) (fresh : Nat) (u : UnitId) :
    State.regsOf { s with inputs := inputs, answer := answer, fresh := fresh } u = s.regsOf u := by
  cases u <;> rfl

/-- The state in which an offered command runs has the same registers. -/
theorem offered_regsOf (c : Prop) [Decidable c] (s : State) (rest : List Input) (u : UnitId) :
    State.regsOf (if c then s else { s with inputs := rest }) u = s.regsOf u := by
  split
  · rfl
  · exact regsOf_inputs _ _ _

/-- A command for unit `u` stands at the head of the inputs. -/
def CommandFor (u : UnitId) (s : State) (rest : List Input) : Prop :=
  ∃ w i, (s.inputs = .call w :: rest ∨ s.inputs = .issue w :: rest) ∧ decode w = .ok i ∧ unitOf i = u

/-- What a step that goes on does to the registers of a unit: nothing; a step of the unit while BUSY; a command for it;
or a reset. -/
theorem step_regsOf_cases {s t : State} (h : step s = .next t) (u : UnitId) :
    t.regsOf u = s.regsOf u ∨
    ((s.regsOf u).Busy ∧ (t.regsOf u).status.state ≠ .idle) ∨
    ((∃ rest, CommandFor u s rest) ∧ (t.regsOf u).status.state ≠ .idle) ∨
    (∃ rest, s.inputs = .reset :: rest) := by
  rcases step_next_cases h with ⟨-, hq⟩ | ⟨w, rest, i, hin, hd, he⟩ | ⟨w, rest, i, hin, hd, he⟩ | ⟨v, rest, -, ht⟩ |
    ⟨v, i, x, rest, -, hw⟩ | ⟨v, i, rest, -, hr⟩ | ⟨x, rest, a, -, rfl⟩ | ⟨rest, hin, rfl⟩
  · unfold quietStep at hq
    split at hq
    · exact (takeTurnOf_regsOf hq u).imp_right .inl
    · cases hq
      exact .inl rfl
  · by_cases hu : unitOf i = u
    · exact .inr (.inr (.inl ⟨⟨rest, w, i, .inl hin, hd, hu⟩, hu ▸ exec_not_idle he⟩))
    · exact .inl (((exec_sameOutside he).regsOf_eq (Ne.symm hu)).trans (offered_regsOf _ s rest u))
  · by_cases hu : unitOf i = u
    · exact .inr (.inr (.inl ⟨⟨rest, w, i, .inr hin, hd, hu⟩, hu ▸ issueInstr_not_idle he⟩))
    · exact .inl (((issueInstr_sameOutside he).regsOf_eq (Ne.symm hu)).trans (offered_regsOf _ s rest u))
  · have hregs := takeTurnOf_regsOf ht u
    rw [regsOf_inputs] at hregs
    exact hregs.imp_right .inl
  · exact .inl ((hostWriteSrc_regsOf hw u).trans (regsOf_inputs s u rest))
  · obtain ⟨a, n, rfl⟩ := hostReadDst_eq_next hr
    exact .inl (regsOf_ownFields s rest a n u)
  · exact .inl ((regsOf_handOut _ u a).trans (regsOf_inputs s u rest))
  · exact .inr (.inr (.inr ⟨rest, hin⟩))

/-- Settles O52: a step of a BUSY unit and a command leave the unit BUSY or DONE, and nothing else but a reset touches
its registers. -/
theorem onlyResetMakesAUnitIdle : Obligations.OnlyResetMakesAUnitIdle := by
  intro s t u h
  rcases step_regsOf_cases h u with heq | ⟨hb, hn⟩ | ⟨⟨rest, hcommand⟩, hn⟩ | ⟨rest, hreset⟩
  · exact ⟨fun hi => .inl (heq ▸ hi), fun hd hnd => absurd (heq ▸ hd) hnd⟩
  · exact ⟨fun hi => absurd hi hn, fun hd => absurd (hb.symm.trans hd) nofun⟩
  · exact ⟨fun hi => absurd hi hn, fun _ _ => ⟨rest, .inr hcommand⟩⟩
  · exact ⟨fun _ => .inr ⟨rest, hreset⟩, fun _ _ => ⟨rest, .inl hreset⟩⟩

end Sys2Proof.Machine

/-! PROOFS. Reset, the offered command, and the host's reads (10_state.md R26 to R29, R38, R47, R49;
44_command_protocol.md R200; 70_reset_and_hazards.md R260, R261). -/

namespace Sys2Proof.Machine

/-! ## Reset -/

/-- The registers of unit `u` have their reset values (10_state.md R49). -/
def HasResetRegs (u : UnitId) (r : Regs) : Prop :=
  r.status = ⟨.idle, .none, false⟩ ∧ r.outlen = 0 ∧ r.len = 0 ∧ r.op.getLsbD 0 = false ∧
    unitOfNumber (r.op.extractLsb' 1 2) = u

theorem hasResetRegs_reset (u : UnitId) : HasResetRegs u (State.reset.regsOf u) := by
  cases u <;> exact ⟨rfl, rfl, rfl, by decide, by decide⟩

/-- After a reset no element of SRC holds a specified value. -/
theorem srcRead_resetBlock (s : State) (u : UnitId) (k : Nat) : (resetBlock s).srcRead u k = none := by
  cases u <;> rfl

/-- A unit that was not BUSY keeps its DST (R261). -/
theorem read_dstAfterReset_of_not_busy {α : Type} {r : Regs} (hb : ¬r.Busy) (b : Buffer α) (k : Nat) :
    (dstAfterReset r b).read k = b.read k := by
  rw [dstAfterReset, if_neg hb]

/-- A command cut off leaves what lies from OUTLEN on, and nothing below (R261). -/
theorem read_dstAfterReset_of_busy {α : Type} {r : Regs} (hb : r.Busy) (b : Buffer α) (k : Nat) :
    (dstAfterReset r b).read k = if r.outlen.toNat ≤ k then b.read k else none := by
  rw [dstAfterReset, if_pos hb, Buffer.read_forgetBelow]

/-- A reset does not touch a DST of a unit that was not BUSY. -/
theorem dstRead_resetBlock_of_not_busy {s : State} {u : UnitId} (hb : ¬(s.regsOf u).Busy) (k : Nat) :
    (resetBlock s).dstRead u k = s.dstRead u k := by
  cases u with
  | hexEncoder => exact read_dstAfterReset_of_not_busy hb _ k
  | hexDecoder => exact congrArg (Option.map _) (read_dstAfterReset_of_not_busy hb _ k)
  | base32Encoder => exact read_dstAfterReset_of_not_busy hb _ k
  | base32Decoder => exact congrArg (Option.map _) (read_dstAfterReset_of_not_busy hb _ k)

/-- A reset leaves of a DST of a BUSY unit exactly what lies from OUTLEN on. -/
theorem dstRead_resetBlock_of_busy {s : State} {u : UnitId} (hb : (s.regsOf u).Busy) (k : Nat) :
    (resetBlock s).dstRead u k = if (s.regsOf u).outlen.toNat ≤ k then s.dstRead u k else none := by
  cases u with
  | hexEncoder => exact read_dstAfterReset_of_busy hb _ k
  | hexDecoder => exact (congrArg _ (read_dstAfterReset_of_busy hb _ k)).trans (apply_ite (Option.map _) _ _ _)
  | base32Encoder => exact read_dstAfterReset_of_busy hb _ k
  | base32Decoder => exact (congrArg _ (read_dstAfterReset_of_busy hb _ k)).trans (apply_ite (Option.map _) _ _ _)

/-- The inputs are no part of a buffer. -/
@[simp] theorem dstRead_inputs (s : State) (rest : List Input) (u : UnitId) (k : Nat) :
    State.dstRead { s with inputs := rest } u k = s.dstRead u k := by
  cases u <;> rfl

/-- Settles O53: the step is `resetBlock`, read register by register and element by element. -/
theorem resetRestoresEveryUnit : Obligations.ResetRestoresEveryUnit := by
  intro s rest hin
  refine ⟨resetBlock { s with inputs := rest }, step_of_inputs hin, rfl, rfl, fun u => ?_⟩
  obtain ⟨hstatus, houtlen, hlen, hop, hunit⟩ := hasResetRegs_reset u
  rw [regsOf_resetBlock]
  refine ⟨hstatus, houtlen, hlen, hop, hunit, srcRead_resetBlock _ u, fun hb k => ?_, fun hb k => ?_⟩
  · rw [dstRead_resetBlock_of_not_busy (by simpa using hb), dstRead_inputs]
  · rw [dstRead_resetBlock_of_busy (by simpa using hb), dstRead_inputs, regsOf_inputs]

/-! ## The offered command -/

/-- An offer to a unit that is not BUSY is taken from the inputs and run. -/
theorem offer_of_not_busy {w : CommandWord} {i : Instr} {s : State} (hd : decode w = .ok i)
    (hb : ¬(s.regsOf (unitOf i)).Busy) (run : Instr → State → Host.Outcome State Fault Refusal) (rest : List Input) :
    offer w run rest s = run i { s with inputs := rest } := by
  simp only [offer, hd, if_neg hb]

/-- A command to be run whole, offered to a unit that is not BUSY, is `exec` of it. -/
theorem step_of_call {s : State} {w : CommandWord} {i : Instr} {rest : List Input} (hin : s.inputs = .call w :: rest)
    (hd : decode w = .ok i) (hb : ¬(s.regsOf (unitOf i)).Busy) : step s = exec i { s with inputs := rest } :=
  (step_of_inputs hin).trans (offer_of_not_busy hd hb exec rest)

/-- Settles O22: the offer is taken, and `withFetchWord` puts its word where the step takes it from. -/
theorem stepRunsTheOfferedCommand : Obligations.StepRunsTheOfferedCommand := by
  refine ⟨fun s w i rest hin hd hb => step_of_call hin hd hb, fun s nbits w i hd hb => ?_⟩
  have hb' : ¬((s.withFetchWord nbits w).regsOf (unitOf i)).Busy := by
    rw [State.withFetchWord, offerNext, regsOf_inputs]
    exact hb
  exact step_of_call (withFetchWord_inputs s nbits w) hd hb'

/-! ## The host's reads -/

section StatusWord
variable (s : Status)

/-- `STATUS[1:0]` is STATE (R26). -/
theorem statusWord_state : s.word.extractLsb' 0 2 = s.state.code := BitVec.extractLsb'_append_eq_right

/-- `STATUS[3:2]` is ERR (R26). -/
theorem statusWord_err : s.word.extractLsb' 2 2 = s.err.code := by
  rw [Status.word, BitVec.extractLsb'_append_eq_of_le (by decide)]
  exact BitVec.extractLsb'_append_eq_right

/-- `STATUS[4]` is RESULT (R26). -/
theorem statusWord_result : s.word.getLsbD 4 = s.result := by
  rw [Status.word, BitVec.getLsbD_append, if_neg (by decide), BitVec.getLsbD_append, if_neg (by decide)]
  exact BitVec.getLsbD_ofBool ..

end StatusWord

/-- The answer that hands out the element `v` of a DST of unit `u`. -/
def elementAnswer (u : UnitId) (v : Nat) : Answer :=
  match u with
  | .hexEncoder | .base32Encoder => .chr v
  | .hexDecoder | .base32Decoder => .byte (BitVec.ofNat 8 v)

/-- A read of a written DST element of a unit that is not BUSY hands the element out. -/
theorem hostReadDst_of_written {s : State} {u : UnitId} {i : LenWord} {v : Nat} (hb : ¬(s.regsOf u).Busy)
    (hv : s.dstRead u i.toNat = some v) : hostReadDst u i s = .next (handOut (elementAnswer u v) s) := by
  unfold hostReadDst
  rw [if_neg hb]
  cases u with
  | hexEncoder => simp only [show s.hexEncoder.dst.read i.toNat = some v from hv, handOutElement, elementAnswer]
  | hexDecoder =>
    obtain ⟨b, hread, rfl⟩ := Option.map_eq_some_iff.mp hv
    simp only [hread, handOutElement, elementAnswer, BitVec.ofNat_toNat, BitVec.setWidth_eq]
  | base32Encoder => simp only [show s.base32Encoder.dst.read i.toNat = some v from hv, handOutElement, elementAnswer]
  | base32Decoder =>
    obtain ⟨b, hread, rfl⟩ := Option.map_eq_some_iff.mp hv
    simp only [hread, handOutElement, elementAnswer, BitVec.ofNat_toNat, BitVec.setWidth_eq]

/-- The answer is an element of a DST of unit `u`, of the element's width in a block with parameters `p`. -/
def IsElementOf (p : Params) (u : UnitId) (a : Answer) : Prop :=
  match u with
  | .hexEncoder | .base32Encoder => ∃ c, a = .chr c ∧ c < 2 ^ p.charW
  | .hexDecoder | .base32Decoder => ∃ b, a = .byte b

/-- A read of a DST element never written of a unit that is not BUSY hands a free value out (log 5). -/
theorem hostReadDst_of_unwritten {s : State} {u : UnitId} {i : LenWord} (hb : ¬(s.regsOf u).Busy)
    (hv : s.dstRead u i.toNat = none) : ∃ a, IsElementOf s.params u a ∧
      hostReadDst u i s = .next { s with answer := some a, fresh := s.fresh + 1 } := by
  unfold hostReadDst
  rw [if_neg hb]
  cases u with
  | hexEncoder =>
    simp only [show s.hexEncoder.dst.read i.toNat = none from hv]
    exact ⟨_, ⟨_, rfl, freeChar_lt _ _⟩, rfl⟩
  | hexDecoder =>
    simp only [Option.map_eq_none_iff.mp hv]
    exact ⟨_, ⟨_, rfl⟩, rfl⟩
  | base32Encoder =>
    simp only [show s.base32Encoder.dst.read i.toNat = none from hv]
    exact ⟨_, ⟨_, rfl, freeChar_lt _ _⟩, rfl⟩
  | base32Decoder =>
    simp only [Option.map_eq_none_iff.mp hv]
    exact ⟨_, ⟨_, rfl⟩, rfl⟩

/-- Settles O57: each read is a step that hands a value out, and the fields of the status word are cut from it. -/
theorem readsHaveNoSideEffect : Obligations.ReadsHaveNoSideEffect := by
  intro s u rest
  refine ⟨fun hin => ?_, fun hin => ?_, fun hin => ?_, fun hin => ?_, fun i v hin hb hv => ?_, fun i hin hb hv => ?_⟩
  · rw [step_of_inputs hin]
    rfl
  · rw [step_of_inputs hin]
    rfl
  · rw [step_of_inputs hin]
    rfl
  · refine ⟨(s.regsOf u).status.word, step_of_inputs hin, ?_, ?_, statusWord_result _⟩
    · rw [statusWord_state]
      cases (s.regsOf u).status.state <;> rfl
    · rw [statusWord_err]
      cases (s.regsOf u).status.err <;> rfl
  · rw [step_of_inputs hin, runInput, hostReadDst_of_written (v := v) (by simpa using hb) (by simpa using hv)]
    cases u <;> rfl
  · obtain ⟨a, ha, hread⟩ := hostReadDst_of_unwritten (s := { s with inputs := rest }) (i := i)
      (by simpa using hb) (by simpa using hv)
    refine ⟨a, (step_of_inputs hin).trans hread, ?_⟩
    cases u <;> exact ha

end Sys2Proof.Machine

/-! PROOFS. Commands and turns of different units commute: each reads its own unit and the parameters and writes its own
unit (20_memory.md R78, 10_state.md R20, 44_command_protocol.md R209). -/

namespace Sys2Proof.Machine

/-! ## States compared unit by unit -/

theorem SameUnit.symm {u : UnitId} {s t : State} (h : SameUnit u s t) : SameUnit u t s := by
  cases u <;> exact Eq.symm h

theorem SameUnit.trans {u : UnitId} {r s t : State} (h₁ : SameUnit u r s) (h₂ : SameUnit u s t) : SameUnit u r t := by
  cases u <;> exact Eq.trans h₂ h₁

theorem SameOutside.sameUnit {u v : UnitId} {s t : State} (h : SameOutside u s t) (hv : v ≠ u) : SameUnit v s t := by
  obtain ⟨hunits, -⟩ := h
  exact hunits v hv

/-- What of a state lies in no unit: the parameters and the model's own fields. -/
def State.shared (s : State) : Params × List Input × Option Answer × Nat := (s.params, s.inputs, s.answer, s.fresh)

theorem SameOutside.shared_eq {u : UnitId} {s t : State} (h : SameOutside u s t) : t.shared = s.shared := by
  obtain ⟨-, hinputs, hanswer, hfresh, hparams⟩ := h
  simp only [State.shared, hinputs, hanswer, hfresh, hparams]

/-- A state is its four units and what lies in none. -/
theorem eq_of_sameUnit {s t : State} (hunit : ∀ u, SameUnit u s t) (hshared : t.shared = s.shared) : t = s := by
  have h₀ : t.hexEncoder = s.hexEncoder := hunit .hexEncoder
  have h₁ : t.hexDecoder = s.hexDecoder := hunit .hexDecoder
  have h₂ : t.base32Encoder = s.base32Encoder := hunit .base32Encoder
  have h₃ : t.base32Decoder = s.base32Decoder := hunit .base32Decoder
  simp only [State.shared, Prod.mk.injEq] at hshared
  obtain ⟨hparams, hinputs, hanswer, hfresh⟩ := hshared
  cases s
  cases t
  congr

/-! ## Actions of one unit -/

/-- The action `f` of the block is one of unit `u`: it changes nothing outside the unit, and where it goes on, it does
so to the same unit from every state with that unit and those parameters. -/
structure ActsOn (u : UnitId) (f : State → Host.Outcome State Fault Refusal) : Prop where
  outside {s t : State} : f s = .next t → SameOutside u s t
  determined {s s' t : State} : f s = .next t → SameUnit u s s' → s'.params = s.params →
    ∃ t', f s' = .next t' ∧ SameUnit u t t'

/-- Actions of different units that go on one after the other go on in the other order too, to the same state: each
finds its own unit as the other left it, which is as it was. -/
theorem ActsOn.commute {u v : UnitId} {f g : State → Host.Outcome State Fault Refusal} (hf : ActsOn u f)
    (hg : ActsOn v g) (huv : u ≠ v) {s a t : State} (hfs : f s = .next a) (hga : g a = .next t) :
    ∃ b, g s = .next b ∧ f b = .next t := by
  have hsa := hf.outside hfs
  have hat := hg.outside hga
  obtain ⟨b, hgs, htb⟩ := hg.determined hga (hsa.sameUnit huv.symm).symm hsa.params_eq.symm
  have hsb := hg.outside hgs
  obtain ⟨t', hfb, hat'⟩ := hf.determined hfs (hsb.sameUnit huv) hsb.params_eq
  have hbt' := hf.outside hfb
  have hunit : ∀ w, SameUnit w t t' := by
    intro w
    by_cases hwu : w = u
    · subst hwu
      exact (hat.sameUnit huv).symm.trans hat'
    · have htb' : SameUnit w t b := by
        by_cases hwv : w = v
        · exact hwv ▸ htb
        · exact (hat.sameUnit hwv).symm.trans ((hsa.sameUnit hwu).symm.trans (hsb.sameUnit hwv))
      exact htb'.trans (hbt'.sameUnit hwu)
  have hshared : t'.shared = t.shared :=
    calc t'.shared = b.shared := hbt'.shared_eq
      _ = s.shared := hsb.shared_eq
      _ = a.shared := hsa.shared_eq.symm
      _ = t.shared := hat.shared_eq.symm
  exact ⟨b, hgs, eq_of_sameUnit hunit hshared ▸ hfb⟩

/-! ## Turns and commands act on their unit -/

/-- The shared operations `o` see unit `u` and nothing else of the state. -/
structure UnitOps.Sees {α : Type} (o : UnitOps α) (u : UnitId) : Prop where
  sameUnit_iff (s t : State) : SameUnit u s t ↔ o.get t = o.get s
  get_put (x : α) (s : State) : o.get (o.put x s) = x

theorem hexEncoderOps_sees : hexEncoderOps.Sees .hexEncoder := ⟨fun _ _ => Iff.rfl, fun _ _ => rfl⟩
theorem hexDecoderOps_sees : hexDecoderOps.Sees .hexDecoder := ⟨fun _ _ => Iff.rfl, fun _ _ => rfl⟩
theorem base32EncoderOps_sees : base32EncoderOps.Sees .base32Encoder := ⟨fun _ _ => Iff.rfl, fun _ _ => rfl⟩
theorem base32DecoderOps_sees : base32DecoderOps.Sees .base32Decoder := ⟨fun _ _ => Iff.rfl, fun _ _ => rfl⟩

section OfSees
variable {α : Type} {o : UnitOps α} {u : UnitId} {accept : α → α} {fuel : Nat} {s s' t : State}

/-- Storing one unit in two states makes the unit the same in both. -/
theorem UnitOps.Sees.sameUnit_put (ho : o.Sees u) (x : α) (s s' : State) : SameUnit u (o.put x s) (o.put x s') := by
  rw [ho.sameUnit_iff, ho.get_put, ho.get_put]

/-- A turn depends on the unit alone. -/
theorem UnitOps.Sees.takeTurn (ho : o.Sees u) (hs : SameUnit u s s') (h : o.takeTurn s = .next t) :
    ∃ t', o.takeTurn s' = .next t' ∧ SameUnit u t t' := by
  have hget := (ho.sameUnit_iff s s').mp hs
  rcases takeTurn_eq_next h with ⟨hb, x, hx, rfl⟩ | ⟨hb, rfl⟩
  · refine ⟨o.put x s', ?_, ho.sameUnit_put x s s'⟩
    rw [UnitOps.takeTurn, hget, if_pos hb, hx, andThen_next]
  · exact ⟨s', by rw [UnitOps.takeTurn, hget, if_neg hb], hs⟩

/-- A command run whole, or waiting, depends on the unit alone. -/
theorem UnitOps.Sees.call (ho : o.Sees u) (hs : SameUnit u s s') (h : o.call fuel accept s = .next t) :
    ∃ t', o.call fuel accept s' = .next t' ∧ SameUnit u t t' := by
  have hget := (ho.sameUnit_iff s s').mp hs
  rcases call_eq_next h with ⟨hb, ht⟩ | ⟨hb, x, hx, y, hy, rfl⟩
  · rw [UnitOps.call, hget, if_pos hb]
    exact ho.takeTurn hs ht
  · refine ⟨o.put y s', ?_, ho.sameUnit_put y s s'⟩
    rw [call_of_requireSource (hget ▸ hb) (hget ▸ hx), hy, andThen_next]

end OfSees

/-- A turn is an action of its unit. -/
theorem takeTurnOf_actsOn (u : UnitId) : ActsOn u (takeTurnOf u) where
  outside := takeTurnOf_sameOutside
  determined h hs _ := by
    cases u with
    | hexEncoder => exact hexEncoderOps_sees.takeTurn hs h
    | hexDecoder => exact hexDecoderOps_sees.takeTurn hs h
    | base32Encoder => exact base32EncoderOps_sees.takeTurn hs h
    | base32Decoder => exact base32DecoderOps_sees.takeTurn hs h

/-- A command run whole is an action of its unit; the encoders' bounds are parameters. -/
theorem exec_actsOn (i : Instr) : ActsOn (unitOf i) (exec i) where
  outside := exec_sameOutside
  determined {s s' t} h hs hp := by
    cases i with
    | toHex len =>
      rw [unitOf_toHex] at *
      rw [exec, execToHex, hp]
      exact hexEncoderOps_sees.call hs h
    | fromHex len =>
      rw [unitOf_fromHex] at *
      exact hexDecoderOps_sees.call hs h
    | isHex len =>
      rw [unitOf_isHex] at *
      exact hexDecoderOps_sees.call hs h
    | toBase32 len =>
      rw [unitOf_toBase32] at *
      rw [exec, execToBase32, hp]
      exact base32EncoderOps_sees.call hs h
    | fromBase32 len =>
      rw [unitOf_fromBase32] at *
      exact base32DecoderOps_sees.call hs h
    | isBase32 len =>
      rw [unitOf_isBase32] at *
      exact base32DecoderOps_sees.call hs h

/-! ## Different units commute -/

/-- Settles O38: a command, run whole or waiting on a BUSY unit, is an action of its unit, and actions of different
units commute. -/
theorem commandsOnDifferentUnitsCommute : Obligations.CommandsOnDifferentUnitsCommute :=
  fun i j _ _ _ hij hi hj => (exec_actsOn i).commute (exec_actsOn j) hij hi hj

/-- Settles O39: a turn is an action of its unit, and actions of different units commute. -/
theorem turnsOfDifferentUnitsCommute : Obligations.TurnsOfDifferentUnitsCommute :=
  fun u v _ _ _ huv hu hv => (takeTurnOf_actsOn u).commute (takeTurnOf_actsOn v) huv hu hv

end Sys2Proof.Machine

/-! PROOFS. The command word: a word is its two fields, and `decode` reads the table of codes in both directions
(30_encoding.md R110 to R113, R20). -/

namespace Sys2Proof

/-! ## The fields of a word (R110) -/

/-- A word is its operation field above its length field: no bit lies outside the two. -/
theorem opField_append_lenField (w : CommandWord) : opField w ++ lenField w = w :=
  BitVec.extractLsb'_append_extractLsb'_eq_extractLsb' (by rfl) |>.trans BitVec.extractLsb'_eq_self

/-- The operation code of a command is never a reserved one (R111, R112). -/
theorem opAssigned_opcode (i : Instr) : opAssigned (opcode i) = true := by cases i <;> rfl

theorem encode_fields (i : Instr) : Laws.CommandFields.Statement i :=
  Laws.CommandFields.of_assigned (opAssigned_opcode i)

/-! ## The table of codes, read both ways (R111, R112) -/

/-- A word with the two fields of a command decodes to that command. -/
theorem decode_of_fields {w : CommandWord} {i : Instr} (hop : opField w = opcode i) (hlen : lenField w = i.len) :
    decode w = .ok i := by
  unfold decode
  rw [hop, hlen]
  cases i <;> rfl

/-- A word with a reserved code is rejected by the name of its code. -/
theorem decode_of_reserved {w : CommandWord} (h : opField w = 0b001#3 ∨ opField w = 0b101#3) :
    decode w = .error (.reservedCode (opField w)) := by
  unfold decode
  rcases h with h | h <;> rw [h] <;> rfl

/-- Every operation code is the code of a command, whatever its length, or one of the two reserved ones. -/
theorem opcode_or_reserved (op : OpCode) (len : LenWord) :
    (∃ i : Instr, op = opcode i ∧ len = i.len) ∨ op = 0b001#3 ∨ op = 0b101#3 := by
  have hcodes : ∀ op : OpCode, op = 0b000#3 ∨ op = 0b001#3 ∨ op = 0b010#3 ∨ op = 0b011#3 ∨ op = 0b100#3 ∨
      op = 0b101#3 ∨ op = 0b110#3 ∨ op = 0b111#3 := by decide
  rcases hcodes op with h | h | h | h | h | h | h | h
  · exact .inl ⟨.toHex len, h, rfl⟩
  · exact .inr (.inl h)
  · exact .inl ⟨.fromHex len, h, rfl⟩
  · exact .inl ⟨.isHex len, h, rfl⟩
  · exact .inl ⟨.toBase32 len, h, rfl⟩
  · exact .inr (.inr h)
  · exact .inl ⟨.fromBase32 len, h, rfl⟩
  · exact .inl ⟨.isBase32 len, h, rfl⟩

/-- Everything `decode` can answer. -/
theorem decode_cases (w : CommandWord) :
    (∃ i, decode w = .ok i ∧ opField w = opcode i ∧ lenField w = i.len) ∨
    ((opField w = 0b001#3 ∨ opField w = 0b101#3) ∧ decode w = .error (.reservedCode (opField w))) := by
  rcases opcode_or_reserved (opField w) (lenField w) with ⟨i, hop, hlen⟩ | h
  · exact .inl ⟨i, decode_of_fields hop hlen, hop, hlen⟩
  · exact .inr ⟨h, decode_of_reserved h⟩

/-- A word decodes to a command exactly when its fields are those of the command. -/
theorem decode_eq_ok_iff {w : CommandWord} {i : Instr} :
    decode w = .ok i ↔ opField w = opcode i ∧ lenField w = i.len := by
  refine ⟨fun h => ?_, fun ⟨hop, hlen⟩ => decode_of_fields hop hlen⟩
  rcases decode_cases w with ⟨j, hj, hfields⟩ | ⟨-, herr⟩
  · cases hj.symm.trans h
    exact hfields
  · cases herr.symm.trans h

theorem decode_encode (i : Instr) : decode (encode i) = .ok i := decode_eq_ok_iff.mpr (encode_fields i).2

theorem encode_of_decode {w : CommandWord} {i : Instr} (h : decode w = .ok i) : encode i = w := by
  obtain ⟨hop, hlen⟩ := decode_eq_ok_iff.mp h
  rw [encode, ← hop, ← hlen, opField_append_lenField]

/-- Exactly the words of code 001 and 101 are rejected by the name of their code. -/
theorem decode_eq_reserved_iff (w : CommandWord) :
    decode w = .error (.reservedCode (opField w)) ↔ opField w = 0b001#3 ∨ opField w = 0b101#3 := by
  refine ⟨fun h => ?_, decode_of_reserved⟩
  rcases decode_cases w with ⟨i, hi, -⟩ | ⟨hop, -⟩
  · cases hi.symm.trans h
  · exact hop

/-- Settles O1: the fields of the word of a command are the code and the length of the command. -/
theorem decodeOfEncodeIsTheCommand : Obligations.DecodeOfEncodeIsTheCommand :=
  fun i => ⟨(encode_fields i).1, decode_encode i⟩

/-- Settles O2: the fields of a word that decodes are its command's, and a word is its fields. -/
theorem encodeOfDecodeIsTheWord : Obligations.EncodeOfDecodeIsTheWord := fun _ _ => encode_of_decode

/-- Settles O4: eight of the words are the words of their commands, and two have a reserved code. -/
theorem tableWordsDecode : Obligations.TableWordsDecode :=
  ⟨decode_encode (.toHex 0), decode_encode (.toHex 16), decode_encode (.fromHex 32), decode_encode (.isHex 32),
    decode_encode (.toBase32 16), decode_encode (.fromBase32 26), decode_encode (.isBase32 26),
    decode_encode (.isBase32 4294967295), decode_of_reserved (.inl rfl), decode_of_reserved (.inr rfl)⟩

end Sys2Proof

namespace Sys2Proof.Machine

/-! ## A reserved word at the command port (R112) -/

/-- An offered word of a reserved code is refused by the name of its code, however it is to be run. -/
theorem offer_of_reserved {w : CommandWord} (h : opField w = 0b001#3 ∨ opField w = 0b101#3)
    (run : Instr → State → Host.Outcome State Fault Refusal) (rest : List Input) (s : State) :
    offer w run rest s = .refused (.reservedCode (opField w)) := by
  simp only [offer, decode_of_reserved h]

/-- Settles O3: the decoder's table gives the equivalence, and both forms of an offer go through `offer`. -/
theorem reservedCodesAreRefused : Obligations.ReservedCodesAreRefused := by
  refine ⟨fun w => (decode_eq_reserved_iff w).symm, fun s w rest hop hin => ?_⟩
  rcases hin with hin | hin
  · exact (step_of_inputs hin).trans (offer_of_reserved hop exec rest s)
  · exact (step_of_inputs hin).trans (offer_of_reserved hop issueInstr rest s)

/-! ## The unit of a word (R113, R20) -/

/-- Bits 34 and 33 of a word are `op[2:1]`. -/
theorem extractLsb'_opField (w : CommandWord) : (opField w).extractLsb' 1 2 = w.extractLsb' 33 2 :=
  BitVec.eq_of_getLsbD_eq fun i hi => by
    simp [opField, hi, show 1 + i < 3 by omega, ← Nat.add_assoc]

/-- The command of a word goes to the unit whose number stands in bits 34 and 33. -/
theorem unitOf_of_decode {w : CommandWord} {i : Instr} (h : decode w = .ok i) :
    unitOf i = unitOfNumber (w.extractLsb' 33 2) := by
  rw [unitOf, ← (decode_eq_ok_iff.mp h).1, extractLsb'_opField]

/-- Settles O5: the unit of a command is the one its word's `op[2:1]` numbers. -/
theorem commandGoesToTheUnitOfItsNumber : Obligations.CommandGoesToTheUnitOfItsNumber := by
  intro w i h
  rw [unitOf_of_decode h]
  exact ⟨congrArg unitOfNumber, congrArg unitOfNumber, congrArg unitOfNumber, congrArg unitOfNumber⟩

end Sys2Proof.Machine

/-! PROOFS. The ROM tables: what the alphabets hold, that the decode tables invert them, and which characters are valid
(30_encoding.md sections 2, 3: R94 to R106). -/

namespace Sys2Proof.Machine

/-! ## The alphabets (R94, R96) -/

theorem hexAlpha_eq (v : BitVec 4) : hexAlpha v = if v.toNat < 10 then 0x30 + v.toNat else 0x57 + v.toNat := by
  revert v
  decide

theorem b32Alpha_codes :
    (List.range 32).map (fun v => b32Alpha (BitVec.ofNat 5 v)) =
      [0x30, 0x31, 0x32, 0x33, 0x34, 0x35, 0x36, 0x37, 0x38, 0x39, 0x61, 0x62, 0x63, 0x64, 0x65, 0x66,
       0x67, 0x68, 0x6A, 0x6B, 0x6D, 0x6E, 0x70, 0x71, 0x72, 0x73, 0x74, 0x76, 0x77, 0x78, 0x79, 0x7A] := by
  decide

/-- `HEX_LUT` inverts `HEX_ALPHA` (R105). -/
@[simp] theorem hexval_hexAlpha (v : BitVec 4) : hexval (hexAlpha v) = some v := by
  revert v
  decide

/-! ## Codes beyond the tables (R102, R104) -/

theorem hexval_of_128_le {c : Chr} (h : 128 ≤ c) : hexval c = none := if_pos h

theorem b32val_of_128_le {c : Chr} (h : 128 ≤ c) : b32val c = none := if_pos h

/-! ## The decode tables make no difference of case (R106) -/

theorem upperChr_of_128_le {c : Chr} (h : 128 ≤ c) : upperChr c = c := if_neg fun ⟨_, hz⟩ => absurd (Nat.le_trans h hz) (by decide)

@[simp] theorem hexval_upperChr (c : Chr) : hexval (upperChr c) = hexval c := by
  have htable : ∀ c < 128, hexval (upperChr c) = hexval c := by decide
  rcases Nat.lt_or_ge c 128 with h | h
  · exact htable c h
  · rw [upperChr_of_128_le h]

@[simp] theorem b32val_upperChr (c : Chr) : b32val (upperChr c) = b32val c := by
  have htable : ∀ c < 128, b32val (upperChr c) = b32val c := by decide
  rcases Nat.lt_or_ge c 128 with h | h
  · exact htable c h
  · rw [upperChr_of_128_le h]

/-- Settles O6: the contents of the alphabets, and the decode tables, which take both cases of a letter alike. -/
theorem decodeTablesInvertTheAlphabets : Obligations.DecodeTablesInvertTheAlphabets :=
  ⟨hexAlpha_eq, b32Alpha_codes, fun v => ⟨hexval_hexAlpha v, by rw [hexval_upperChr, hexval_hexAlpha]⟩,
    fun v => ⟨b32val_b32Alpha v, by rw [b32val_upperChr, b32val_b32Alpha]⟩⟩

/-! ## The valid characters (R101 to R104) -/

/-- The code is that of a digit or of a letter of either case up to `f` (R101). -/
abbrev HexCode (c : Nat) : Prop := 0x30 ≤ c ∧ c ≤ 0x39 ∨ 0x61 ≤ c ∧ c ≤ 0x66 ∨ 0x41 ≤ c ∧ c ≤ 0x46

/-- The code is that of a digit or of a letter of either case other than i, l, o, u (R103). -/
abbrev B32Code (c : Nat) : Prop :=
  0x30 ≤ c ∧ c ≤ 0x39 ∨
  0x61 ≤ c ∧ c ≤ 0x7A ∧ c ≠ 0x69 ∧ c ≠ 0x6C ∧ c ≠ 0x6F ∧ c ≠ 0x75 ∨
  0x41 ≤ c ∧ c ≤ 0x5A ∧ c ≠ 0x49 ∧ c ≠ 0x4C ∧ c ≠ 0x4F ∧ c ≠ 0x55

theorem HexCode.lt_128 {c : Nat} (h : HexCode c) : c < 128 := by omega

theorem B32Code.lt_128 {c : Nat} (h : B32Code c) : c < 128 := by omega

/-- A code has a hexadecimal value exactly when `HEX_LUT` lists it (R101, R102). -/
theorem isSome_hexval_iff (c : Nat) : (hexval c).isSome ↔ HexCode c := by
  have htable : ∀ c < 128, (hexval c).isSome ↔ HexCode c := by decide
  rcases Nat.lt_or_ge c 128 with h | h
  · exact htable c h
  · exact iff_of_false (by simp [hexval_of_128_le h]) fun hc => Nat.not_lt.mpr h hc.lt_128

/-- A code has a Base32 value exactly when `B32_LUT` lists it (R103, R104). -/
theorem isSome_b32val_iff (c : Nat) : (b32val c).isSome ↔ B32Code c := by
  have htable : ∀ c < 128, (b32val c).isSome ↔ B32Code c := by decide
  rcases Nat.lt_or_ge c 128 with h | h
  · exact htable c h
  · exact iff_of_false (by simp [b32val_of_128_le h]) fun hc => Nat.not_lt.mpr h hc.lt_128

/-- Settles O7: the table decides the codes below 128, and a code beyond it has no value. -/
theorem validHexCharactersAreTheTwentyTwo : Obligations.ValidHexCharactersAreTheTwentyTwo :=
  fun c => ⟨isSome_hexval_iff c, hexval_of_128_le⟩

/-- Settles O8: the table decides the codes below 128, and a code beyond it has no value. -/
theorem validBase32CharactersAreTheFiftyFour : Obligations.ValidBase32CharactersAreTheFiftyFour :=
  fun c => ⟨isSome_b32val_iff c, b32val_of_128_le⟩

end Sys2Proof.Machine

/-! PROOFS. The steps of TOHEX, the text they write, and the ends of the units' commands (40_hex_encoder.md R130 to
R134, 44_command_protocol.md R208). -/

namespace Sys2Proof.Machine

/-! ## Running a unit forwards -/

section Forwards
variable {α : Type} {o : UnitOps α} {s : State}

/-- The turn of a BUSY unit is its step. -/
theorem UnitOps.takeTurn_of_turn {v : α} (hb : (o.regs (o.get s)).Busy) (ht : o.turn (o.get s) = .next v) :
    o.takeTurn s = .next (o.put v s) := by
  simp [UnitOps.takeTurn, hb, ht]

/-- A command whose source is there goes on, where its acceptance establishes `P`, every step of the unit goes on and
keeps `P`, and a measure within the fuel falls at every step. -/
theorem UnitOps.call_terminates {accept : α → α} {fuel : Nat} {P : α → Prop} (m : α → Nat)
    (hb : ¬(o.regs (o.get s)).Busy)
    (hready : (o.regs (accept (o.get s))).Busy → o.sourceReady (accept (o.get s)) = true)
    (haccept : P (accept (o.get s)))
    (hstep : ∀ u, P u → (o.regs u).Busy → ∃ v, o.turn u = .next v ∧ P v ∧ m v < m u)
    (hfuel : m (accept (o.get s)) ≤ fuel) :
    ∃ v, o.call fuel accept s = .next (o.put v s) ∧ P v ∧ ¬(o.regs v).Busy := by
  obtain ⟨v, hv, hP, hend⟩ := runToDone_terminates m hstep haccept hfuel
  have hadmit : o.requireSource (accept (o.get s)) = .next (accept (o.get s)) :=
    requireSource_eq_next.mpr ⟨rfl, fun ⟨hbusy, hmissing⟩ => by simp [hready hbusy] at hmissing⟩
  exact ⟨v, by rw [call_of_requireSource hb hadmit, hv, andThen_next], hP, hend⟩

end Forwards

/-! ## Buffers that hold a list -/

/-- The element next to a list that a buffer holds makes the list one longer. -/
theorem Buffer.Holds.write {α : Type} {b : Buffer α} {xs : List α} (h : b.Holds xs) (x : α) :
    (b.write xs.length x).Holds (xs ++ [x]) := by
  intro i hi
  rw [List.length_append, List.length_singleton] at hi
  rcases Nat.lt_succ_iff_lt_or_eq.mp hi with hlt | rfl
  · rw [Buffer.read_write_other _ _ hlt.ne, List.getElem?_append_left hlt]
    exact h i hlt
  · rw [Buffer.read_write_same, List.getElem?_concat_length]

theorem Buffer.holds_nil {α : Type} (b : Buffer α) : b.Holds [] := nofun

/-- A buffer that holds a list has been written up to its length. -/
theorem Buffer.Holds.allWritten {α : Type} {b : Buffer α} {xs : List α} (h : b.Holds xs) :
    b.allWritten xs.length = true :=
  (Buffer.allWritten_iff b _).mpr fun i hi => by simp [h i hi, hi]

/-! ## The text of a list of bytes (R115, R130) -/

theorem highNibble_eq (b : Byte) : highNibble b = BitVec.ofNat 4 (b.toNat / 16) := by
  apply BitVec.eq_of_toNat_eq
  simp [highNibble, Nat.shiftRight_eq_div_pow]

theorem lowNibble_eq (b : Byte) : lowNibble b = BitVec.ofNat 4 (b.toNat % 16) := by
  apply BitVec.eq_of_toNat_eq
  simpa [lowNibble] using Nat.and_two_pow_sub_one_of_lt_two_pow (n := 4) (Nat.mod_lt b.toNat (by decide))

@[simp] theorem length_hexEncode (bs : List Byte) : (hexEncode bs).length = 2 * bs.length := by
  simp [hexEncode, Nat.mul_comm]

/-- The next byte adds two characters to the text. -/
theorem hexEncode_take_succ {bs : List Byte} {i : Nat} {b : Byte} (hb : bs[i]? = some b) :
    hexEncode (bs.take (i + 1)) =
      hexEncode (bs.take i) ++ [hexAlpha (highNibble b)] ++ [hexAlpha (lowNibble b)] := by
  simp [hexEncode, List.take_add_one, hb]

/-! ## One step of hex_encoder (R133) -/

@[simp] theorem hexEncodeByte_dst (b : Byte) (u : HexEncoder) :
    (hexEncodeByte b u).dst = (u.dst.write u.regs.odx.toNat (hexAlpha (highNibble b))).write (u.regs.odx + 1).toNat
      (hexAlpha (lowNibble b)) := rfl

/-- Settles O40: the two characters go to ODX and the index next to it, which is another one at every ODX. -/
theorem hexEncoderStepWritesTwoCharacters : Obligations.HexEncoderStepWritesTwoCharacters := by
  intro s b hb hlt hread
  have hne : s.hexEncoder.regs.odx.toNat ≠ (s.hexEncoder.regs.odx + 1).toNat := by bv_omega
  refine ⟨hexEncodeByte b s.hexEncoder, UnitOps.takeTurn_of_turn (o := hexEncoderOps) hb (hexEncoderTurn_of_lt hlt hread),
    rfl, rfl, ?_, ?_, fun k h₁ h₂ => ?_⟩
  · rw [← highNibble_eq]
    exact (Buffer.read_write_other _ _ hne).trans (Buffer.read_write_same _ _ _)
  · rw [← lowNibble_eq]
    exact Buffer.read_write_same _ _ _
  · exact (Buffer.read_write_other _ _ h₂).trans (Buffer.read_write_other _ _ h₁)

/-! ## The whole of TOHEX (R131) -/

/-- hex_encoder in the middle or at the end of TOHEX of the bytes `bs`, begun with the buffers of `u₀`: DST holds the
text of the bytes taken in, and in the end of all of them. -/
structure HexEncoder.Encodes (len : LenWord) (bs : List Byte) (u₀ u : HexEncoder) : Prop extends
    HexEncoder.Runs len u₀ u where
  outlen_eq : u.regs.outlen.toNat = 2 * len.toNat
  text : (u.regs.status = ⟨.busy, .none, false⟩ ∧ u.regs.idx.toNat ≤ len.toNat ∧
      u.dst.Holds (hexEncode (bs.take u.regs.idx.toNat))) ∨
    (u.regs.status = ⟨.done, .none, false⟩ ∧ u.dst.Holds (hexEncode bs))

/-- How many steps TOHEX has still to take at most (44_command_protocol.md R211). -/
def HexEncoder.stepsLeft (u : HexEncoder) : Nat := if u.regs.Busy then u.regs.len.toNat + 1 - u.regs.idx.toNat else 0

theorem HexEncoder.stepsLeft_of_busy {u : HexEncoder} (hb : u.regs.Busy) :
    u.stepsLeft = u.regs.len.toNat + 1 - u.regs.idx.toNat := if_pos hb

theorem HexEncoder.stepsLeft_of_not_busy {u : HexEncoder} (hb : ¬u.regs.Busy) : u.stepsLeft = 0 := if_neg hb

section ToHex
variable {len : LenWord} {bs : List Byte} {u₀ u : HexEncoder}

/-- TOHEX of an accepted length starts so, with nothing written; the empty command ends at once with the empty text
(R132). -/
theorem HexEncoder.encodes_accept {p : Params} (hp : p.Legal) (hmax : len.toNat ≤ p.hexMaxIn)
    (hlen : bs.length = len.toNat) : HexEncoder.Encodes len bs u (acceptToHex p len u) := by
  have hruns := HexEncoder.runs_accept hp len u
  rcases acceptEncode_cases 0b000#3 p.hexMaxIn toHexLength len u.regs with ⟨hgt, -⟩ | ⟨-, h0, e⟩ | ⟨-, -, e⟩
  · omega
  · obtain rfl : bs = [] := List.eq_nil_of_length_eq_zero (by simp [hlen, h0])
    exact ⟨hruns, by rw [acceptToHex_regs, e, h0]; rfl, .inr ⟨by simp [e], Buffer.holds_nil _⟩⟩
  · have hout : (BitVec.ofNat 32 (toHexLength len.toNat)).toNat = 2 * len.toNat :=
      (BitVec.toNat_ofNat _ _).trans (Nat.mod_eq_of_lt (toHexLength_lt hp hmax))
    refine ⟨hruns, by simpa [e] using hout, .inl ⟨by simp [e], by simp [e], ?_⟩⟩
    rw [acceptToHex_regs, e, start_idx]
    exact Buffer.holds_nil _

/-- A step that takes in a byte writes its two characters behind the text of the bytes before it. -/
theorem HexEncoder.Encodes.encodeByte {b : Byte} (hlen : bs.length = len.toNat) (h : HexEncoder.Encodes len bs u₀ u)
    (hb : u.regs.Busy) (htext : u.dst.Holds (hexEncode (bs.take u.regs.idx.toNat)))
    (hget : bs[u.regs.idx.toNat]? = some b) :
    (hexEncodeByte b u).dst.Holds (hexEncode (bs.take (u.regs.idx.toNat + 1))) := by
  obtain ⟨hmax, hodx⟩ := h.progress hb
  have hlt : u.regs.idx.toNat < bs.length := (List.getElem?_eq_some_iff.mp hget).1
  have hodx₀ : u.regs.odx.toNat = (hexEncode (bs.take u.regs.idx.toNat)).length := by
    simp only [length_hexEncode, List.length_take]
    omega
  have hodx₁ : (u.regs.odx + 1).toNat =
      (hexEncode (bs.take u.regs.idx.toNat) ++ [hexAlpha (highNibble b)]).length := by
    rw [List.length_append, ← hodx₀, List.length_singleton]
    bv_omega
  rw [hexEncode_take_succ hget, hexEncodeByte_dst, hodx₁, hodx₀]
  exact (htext.write _).write _

/-- Every step of TOHEX goes on, keeps this, and leaves one step less to take (R133, R134). -/
theorem HexEncoder.Encodes.turn (hlen : bs.length = len.toNat) (hsrc : u₀.src.Holds bs)
    (h : HexEncoder.Encodes len bs u₀ u) (hb : u.regs.Busy) :
    ∃ v, hexEncoderTurn u = .next v ∧ HexEncoder.Encodes len bs u₀ v ∧ v.stepsLeft < u.stepsLeft := by
  have hlen' : u.regs.len = len := h.len_eq
  obtain ⟨hstatus, hidx, htext⟩ | ⟨hstatus, -⟩ := h.text
  case inr => simp [Regs.Busy, hstatus] at hb
  rcases hidx.lt_or_eq with hlt | hend
  · have hget : bs[u.regs.idx.toNat]? = some bs[u.regs.idx.toNat] := List.getElem?_eq_getElem (by omega)
    have hread : u.src.read u.regs.idx.toNat = some bs[u.regs.idx.toNat] :=
      (h.src_eq ▸ hsrc _ (by omega)).trans hget
    have hturn := hexEncoderTurn_of_lt (by rwa [hlen', BitVec.lt_def]) hread
    have hidx₁ : (u.regs.idx + 1).toNat = u.regs.idx.toNat + 1 := by bv_omega
    refine ⟨_, hturn, ⟨runs_turn h.toRuns hb hturn, h.outlen_eq, .inl ⟨hstatus, ?_, ?_⟩⟩, ?_⟩
    · rw [hexEncodeByte_idx, hidx₁]
      exact hlt
    · rw [hexEncodeByte_idx, hidx₁]
      exact h.encodeByte hlen hb htext hget
    · rw [stepsLeft_of_busy (u := hexEncodeByte _ u) hb, stepsLeft_of_busy hb, hexEncodeByte_len, hexEncodeByte_idx,
        hidx₁, hlen']
      omega
  · have hturn := hexEncoderTurn_of_end (u := u) (by rw [hlen']; exact BitVec.eq_of_toNat_eq hend)
    rw [hend, ← hlen, List.take_length] at htext
    refine ⟨_, hturn, ⟨runs_turn h.toRuns hb hturn, h.outlen_eq, .inr ⟨?_, htext⟩⟩, ?_⟩
    · simp [hstatus]
    · rw [stepsLeft_of_busy hb, stepsLeft_of_not_busy (not_busy_complete _), hlen', hend]
      omega

end ToHex

/-- Settles O23: every step of TOHEX adds the text of one more byte. -/
theorem toHexWritesTheTextOfTheSource : Obligations.ToHexWritesTheTextOfTheSource := by
  intro len bs s hp hb hmax hlen hsrc
  have hready : hexEncoderOps.sourceReady (acceptToHex s.params len s.hexEncoder) = true := by
    simpa [← hlen] using hsrc.allWritten
  have hfuel : (acceptToHex s.params len s.hexEncoder).stepsLeft ≤ len.toNat + 1 := by
    rw [HexEncoder.stepsLeft, acceptToHex_regs, acceptEncode_len]
    split <;> omega
  obtain ⟨u, hu, h, hend⟩ := UnitOps.call_terminates (o := hexEncoderOps) HexEncoder.stepsLeft hb (fun _ => hready)
    (HexEncoder.encodes_accept hp hmax hlen) (fun _ => HexEncoder.Encodes.turn hlen hsrc) hfuel
  obtain ⟨hbusy, -⟩ | ⟨hstatus, htext⟩ := h.text
  · simp [Regs.Busy, hbusy] at hend
  · exact ⟨u, hu, h.op_eq, h.len_eq, h.outlen_eq, hstatus, h.src_eq, by rw [length_hexEncode, hlen], htext, h.dst_same⟩

/-! ## The end of a command, its output whole (R208) -/

section Ends
variable {p : Params}

/-- Where everything has been read, two characters have been written for every byte (R133). -/
theorem HexEncoder.Inv.odx_of_end {u : HexEncoder} (h : u.Inv p) (hb : u.regs.Busy) (hend : u.regs.idx = u.regs.len) :
    u.regs.odx = u.regs.outlen := by
  apply BitVec.eq_of_toNat_eq
  rw [h.odx_eq hb, h.regs.outlen_of_busy hb, hend, toHexLength]

/-- Where everything has been read, one byte has been written for every pair (R148). -/
theorem HexDecoder.Inv.odx_of_end {u : HexDecoder} (h : u.Inv p) (hb : u.regs.Busy) (hphase : u.phase = .emit)
    (hend : u.regs.idx = u.regs.len) : u.regs.odx = u.regs.outlen := by
  obtain ⟨hop, hidx, -⟩ := h.emit hb hphase
  apply BitVec.eq_of_toNat_eq
  rw [h.regs.outlen_of_busy hb hop, ← hend, fromHexLength]
  omega

/-- Where everything has been read and no bit is held, every bit has been given out (R164 to R166). -/
theorem Base32Encoder.Inv.odx_of_end {u : Base32Encoder} (h : u.Inv p) (hb : u.regs.Busy) (hbits : u.bits = 0)
    (hend : u.regs.idx = u.regs.len) : u.regs.odx = u.regs.outlen := by
  rcases h.bits_balance hb with hbalance | ⟨-, -, hodx⟩
  · have hheld : u.bits.toNat = 0 := by simp [hbits]
    apply BitVec.eq_of_toNat_eq
    rw [h.regs.outlen_of_busy hb, ← hend, toBase32Length]
    omega
  · exact hodx

/-- Where everything has been read, fewer than eight bits are left over (R189, R190). -/
theorem Base32Decoder.Inv.odx_of_end {u : Base32Decoder} (h : u.Inv p) (hb : u.regs.Busy) (hphase : u.phase = .emit)
    (hend : u.regs.idx = u.regs.len) : u.regs.odx = u.regs.outlen ∧
      u.bits.toNat = 5 * u.regs.len.toNat - 8 * u.regs.outlen.toNat := by
  obtain ⟨hop, hbits, -, hbalance, -⟩ := h.emit hb hphase
  have hodx : u.regs.odx = u.regs.outlen := by
    apply BitVec.eq_of_toNat_eq
    rw [h.regs.outlen_of_busy hb hop, ← hend, fromBase32Length]
    omega
  refine ⟨hodx, ?_⟩
  rw [← hend, ← hodx]
  omega

end Ends

/-- Settles O46: what a sound state says of ODX leaves one value for it where everything has been read, and the step is
`complete()`. -/
theorem completionComesWithTheWholeOutput : Obligations.CompletionComesWithTheWholeOutput := by
  intro s hs
  refine ⟨fun hb hend => ⟨hs.hexEncoder.odx_of_end hb hend, ?_⟩,
    fun hb hphase hend => ⟨hs.hexDecoder.odx_of_end hb hphase hend, ?_⟩,
    fun hb hbits hend => ⟨hs.base32Encoder.odx_of_end hb hbits hend, ?_⟩, fun hb hphase hend => ?_⟩
  · exact UnitOps.takeTurn_of_turn (o := hexEncoderOps) hb (hexEncoderTurn_of_end hend)
  · exact UnitOps.takeTurn_of_turn (o := hexDecoderOps) hb (hexDecoderTurn_of_emit_end hphase hend)
  · exact UnitOps.takeTurn_of_turn (o := base32EncoderOps) hb (base32EncoderTurn_of_end hbits hend)
  · obtain ⟨hodx, hleft⟩ := hs.base32Decoder.odx_of_end hb hphase hend
    exact ⟨hodx, hleft, UnitOps.takeTurn_of_turn (o := base32DecoderOps) hb (base32DecoderTurn_of_emit_end hphase hend)⟩

end Sys2Proof.Machine

/-! PROOFS. The hexadecimal text functions: encoding and decoding undo each other, and decoding takes no notice of case
(30_encoding.md R115, 41_hex_decoder.md R140, R151, R152). -/

namespace Sys2Proof.Machine

/-! ## A byte and its two symbol values (R115) -/

theorem joinNibbles_eq (h l : BitVec 4) : joinNibbles h l = BitVec.ofNat 8 (16 * h.toNat + l.toNat) := by
  have hhigh : (h.setWidth 8 <<< 4).toNat = h.toNat <<< 4 := by
    rw [BitVec.toNat_shiftLeft, BitVec.toNat_setWidth, Nat.shiftLeft_eq, Nat.shiftLeft_eq]
    omega
  have hlow : (l.setWidth 8).toNat = l.toNat := BitVec.toNat_setWidth_of_le (by decide)
  apply BitVec.eq_of_toNat_eq
  rw [joinNibbles, BitVec.toNat_or, hhigh, hlow, ← Nat.shiftLeft_add_eq_or_of_lt l.isLt, Nat.shiftLeft_eq,
    BitVec.toNat_ofNat]
  omega

@[simp] theorem joinNibbles_nibbles (b : Byte) : joinNibbles (highNibble b) (lowNibble b) = b := by
  rw [joinNibbles_eq, highNibble_eq, lowNibble_eq]
  bv_omega

@[simp] theorem highNibble_joinNibbles (h l : BitVec 4) : highNibble (joinNibbles h l) = h := by
  rw [highNibble_eq, joinNibbles_eq]
  bv_omega

@[simp] theorem lowNibble_joinNibbles (h l : BitVec 4) : lowNibble (joinNibbles h l) = l := by
  rw [lowNibble_eq, joinNibbles_eq]
  bv_omega

/-! ## A character and its lowercase form (R99, R105) -/

/-- The alphabet gives back the lowercase form of a valid character (R105, R106). -/
theorem hexAlpha_of_hexval {c : Chr} {v : BitVec 4} (h : hexval c = some v) : hexAlpha v = lowerChr c := by
  have htable : ∀ c < 128, ∀ v, hexval c = some v → hexAlpha v = lowerChr c := by decide
  rcases Nat.lt_or_ge c 128 with hlt | hge
  · exact htable c hlt v h
  · simp [hexval_of_128_le hge] at h

/-! ## Pairs of characters (R140) -/

@[simp] theorem hexPairs_cons_cons (c₁ c₂ : Chr) (cs : List Chr) : hexPairs (c₁ :: c₂ :: cs) =
    (hexval c₁).bind fun h => (hexval c₂).bind fun l => (hexPairs cs).map (joinNibbles h l :: ·) := by
  rw [hexPairs]
  cases hexval c₁ <;> cases hexval c₂ <;> cases hexPairs cs <;> rfl

theorem hexPairs_cons_cons_eq_some {c₁ c₂ : Chr} {cs : List Chr} {bs : List Byte} :
    hexPairs (c₁ :: c₂ :: cs) = some bs ↔ ∃ h l bs', hexval c₁ = some h ∧ hexval c₂ = some l ∧
      hexPairs cs = some bs' ∧ joinNibbles h l :: bs' = bs := by
  simp only [hexPairs_cons_cons, Option.bind_eq_some_iff, Option.map_eq_some_iff, exists_and_left]

theorem hexValid_iff (cs : List Chr) :
    hexValid cs = true ↔ cs.length % 2 = 0 ∧ ∀ c ∈ cs, (hexval c).isSome := by
  simp [hexValid]

@[simp] theorem hexValid_cons_cons (c₁ c₂ : Chr) (cs : List Chr) :
    hexValid (c₁ :: c₂ :: cs) = ((hexval c₁).isSome && ((hexval c₂).isSome && hexValid cs)) := by
  rw [Bool.eq_iff_iff]
  simp [hexValid_iff, and_left_comm, Nat.add_assoc]

/-- The pairs of a text have bytes exactly when the text is valid. -/
theorem isSome_hexPairs : ∀ cs : List Chr, (hexPairs cs).isSome = hexValid cs
  | [] => rfl
  | [_] => by simp [hexPairs, hexValid]
  | c₁ :: c₂ :: cs => by
    rw [hexPairs_cons_cons, hexValid_cons_cons, ← isSome_hexPairs cs]
    cases hexval c₁ <;> cases hexval c₂ <;> simp

/-- So the check of `HexDecode` adds nothing to what the pairs say. -/
theorem hexDecode_eq_hexPairs (cs : List Chr) : hexDecode cs = hexPairs cs := by
  rw [hexDecode, ← isSome_hexPairs]
  cases hexPairs cs <;> rfl

theorem isSome_hexDecode (cs : List Chr) : (hexDecode cs).isSome = hexValid cs := by
  rw [hexDecode_eq_hexPairs, isSome_hexPairs]

/-! ## Decoding and encoding undo each other (R152) -/

/-- The pairs of the text of bytes are the bytes. -/
theorem hexPairs_hexEncode (bs : List Byte) : hexPairs (hexEncode bs) = some bs := by
  induction bs with
  | nil => rfl
  | cons b bs ih =>
    have htext : hexEncode (b :: bs) = hexAlpha (highNibble b) :: hexAlpha (lowNibble b) :: hexEncode bs := rfl
    simp [htext, ih]

/-- The text of the bytes of pairs is the text they were read from, in lowercase. -/
theorem hexEncode_of_hexPairs : ∀ {cs : List Chr} {bs : List Byte}, hexPairs cs = some bs →
    hexEncode bs = cs.map lowerChr
  | [], _, h => by cases h; rfl
  | [_], _, h => nomatch h
  | c₁ :: c₂ :: cs, _, h => by
    obtain ⟨hi, lo, bs, hhi, hlo, hbs, rfl⟩ := hexPairs_cons_cons_eq_some.mp h
    calc hexEncode (joinNibbles hi lo :: bs)
        = hexAlpha (highNibble (joinNibbles hi lo)) :: hexAlpha (lowNibble (joinNibbles hi lo)) :: hexEncode bs := rfl
      _ = hexAlpha hi :: hexAlpha lo :: hexEncode bs := by rw [highNibble_joinNibbles, lowNibble_joinNibbles]
      _ = lowerChr c₁ :: lowerChr c₂ :: cs.map lowerChr := by
        rw [hexAlpha_of_hexval hhi, hexAlpha_of_hexval hlo, hexEncode_of_hexPairs hbs]

theorem hexDecode_hexEncode (bs : List Byte) : hexDecode (hexEncode bs) = some bs := by
  rw [hexDecode_eq_hexPairs, hexPairs_hexEncode]

theorem hexEncode_of_hexDecode {cs : List Chr} {bs : List Byte} (h : hexDecode cs = some bs) :
    hexEncode bs = cs.map lowerChr := hexEncode_of_hexPairs (hexDecode_eq_hexPairs cs ▸ h)

/-- Settles O9: the two symbol values of a byte and the byte they join into determine each other, and so do a symbol
value and its lowercase character. -/
theorem hexRoundTrip : Obligations.HexRoundTrip := by
  refine ⟨fun bs => ⟨?_, hexDecode_hexEncode bs⟩, fun cs bs => hexEncode_of_hexDecode, ?_⟩
  · rw [← isSome_hexDecode, hexDecode_hexEncode]
    rfl
  · intro cs ds hcs _ hcs' hds' heq
    obtain ⟨bs, hbs⟩ := Option.isSome_iff_exists.mp ((isSome_hexDecode cs).trans hcs)
    calc cs = hexEncode bs := hcs'.symm.trans (hexEncode_of_hexDecode hbs).symm
      _ = ds := (hexEncode_of_hexDecode (heq ▸ hbs)).trans hds'

/-! ## Case (R151) -/

theorem hexPairs_map_upperChr : ∀ cs : List Chr, hexPairs (cs.map upperChr) = hexPairs cs
  | [] => rfl
  | [_] => rfl
  | c₁ :: c₂ :: cs => by simp [hexPairs_map_upperChr cs]

/-- Settles O10: the decode table holds one value for both cases of a letter. -/
theorem hexDecodingIgnoresCase : Obligations.HexDecodingIgnoresCase := by
  intro cs
  have hdecode : hexDecode (cs.map upperChr) = hexDecode cs := by
    rw [hexDecode_eq_hexPairs, hexDecode_eq_hexPairs, hexPairs_map_upperChr]
  exact ⟨hdecode, by rw [← isSome_hexDecode, hdecode, isSome_hexDecode]⟩

/-! ## The characters of a byte -/

/-- Byte `j` of a valid text stands in its characters `2 j` and `2 j + 1` (R140). -/
theorem getElem?_of_hexPairs : ∀ {cs : List Chr} {bs : List Byte} {j : Nat} {b : Byte}, hexPairs cs = some bs →
    bs[j]? = some b → ∃ c₁ c₂, cs[2 * j]? = some c₁ ∧ cs[2 * j + 1]? = some c₂ ∧
      hexval c₁ = some (highNibble b) ∧ hexval c₂ = some (lowNibble b)
  | [], _, _, _, h, hb => by cases h; simp at hb
  | [_], _, _, _, h, _ => nomatch h
  | c₁ :: c₂ :: cs, _, j, b, h, hb => by
    obtain ⟨hi, lo, bs, hhi, hlo, hbs, rfl⟩ := hexPairs_cons_cons_eq_some.mp h
    cases j with
    | zero =>
      cases hb
      exact ⟨c₁, c₂, rfl, rfl, by simpa using hhi, by simpa using hlo⟩
    | succ j => exact getElem?_of_hexPairs (cs := cs) hbs hb

/-- A valid text has two characters for each of its bytes. -/
theorem length_of_hexDecode {cs : List Chr} {bs : List Byte} (h : hexDecode cs = some bs) :
    cs.length = 2 * bs.length := by
  simpa using (congrArg List.length (hexEncode_of_hexDecode h)).symm

end Sys2Proof.Machine

/-! PROOFS. The steps of hex_decoder and of the SCAN pass of both decoders, and decodes of a bad length
(41_hex_decoder.md R146 to R150, 43_base32_decoder.md R186, R187, R192). -/

namespace Sys2Proof.Machine

/-! ## The registers in the SCAN pass (R146, R147, R186, R187) -/

section ScanRegs
variable {r : Regs}

theorem scanOne_of_valid : scanOne true r = { r with idx := r.idx + 1 } := rfl

theorem scanOne_of_invalid_check (hv : r.op.getLsbD 0 = true) :
    scanOne false r = { r with status := ⟨.done, .none, false⟩ } :=
  (if_neg Bool.false_ne_true).trans (if_pos hv)

theorem scanOne_of_invalid_decode (hv : r.op.getLsbD 0 = false) :
    scanOne false r = { r with outlen := 0, status := ⟨.done, .invalidCharacter, false⟩ } :=
  (if_neg Bool.false_ne_true).trans (if_neg (Bool.not_eq_true _ ▸ hv))

theorem scanEnd_of_check (hv : r.op.getLsbD 0 = true) :
    scanEnd r = ({ r with status := ⟨.done, .none, true⟩ }, .scan) := if_pos hv

theorem scanEnd_of_decode (hv : r.op.getLsbD 0 = false) : scanEnd r = ({ r with idx := 0 }, .emit) :=
  if_neg (Bool.not_eq_true _ ▸ hv)

end ScanRegs

/-! ## One step of the SCAN pass -/

section HexDecoderScan
variable {u : HexDecoder} {c : Chr} (hphase : u.phase = .scan)
include hphase

theorem hexDecoderTurn_of_valid (hlt : u.regs.idx < u.regs.len) (hc : u.src.read u.regs.idx.toNat = some c)
    (hvalid : hexval c ≠ none) :
    hexDecoderTurn u = .next { u with regs := { u.regs with idx := u.regs.idx + 1 } } := by
  rw [hexDecoderTurn_of_scan hphase hlt hc, Option.isSome_iff_ne_none.mpr hvalid, scanOne_of_valid]

theorem hexDecoderTurn_of_invalid_decode (hlt : u.regs.idx < u.regs.len) (hc : u.src.read u.regs.idx.toNat = some c)
    (hinvalid : hexval c = none) (hv : u.regs.op.getLsbD 0 = false) : hexDecoderTurn u =
      .next { u with regs := { u.regs with outlen := 0, status := ⟨.done, .invalidCharacter, false⟩ } } := by
  rw [hexDecoderTurn_of_scan hphase hlt hc, hinvalid, Option.isSome_none, scanOne_of_invalid_decode hv]

theorem hexDecoderTurn_of_invalid_check (hlt : u.regs.idx < u.regs.len) (hc : u.src.read u.regs.idx.toNat = some c)
    (hinvalid : hexval c = none) (hv : u.regs.op.getLsbD 0 = true) :
    hexDecoderTurn u = .next { u with regs := { u.regs with status := ⟨.done, .none, false⟩ } } := by
  rw [hexDecoderTurn_of_scan hphase hlt hc, hinvalid, Option.isSome_none, scanOne_of_invalid_check hv]

theorem hexDecoderTurn_of_scan_end_check (hend : u.regs.idx = u.regs.len) (hv : u.regs.op.getLsbD 0 = true) :
    hexDecoderTurn u = .next { u with regs := { u.regs with status := ⟨.done, .none, true⟩ } } := by
  rw [hexDecoderTurn_of_scan_end hphase hend, scanEnd_of_check hv, ← hphase]

theorem hexDecoderTurn_of_scan_end_decode (hend : u.regs.idx = u.regs.len) (hv : u.regs.op.getLsbD 0 = false) :
    hexDecoderTurn u = .next { u with regs := { u.regs with idx := 0 }, phase := .emit } := by
  rw [hexDecoderTurn_of_scan_end hphase hend, scanEnd_of_decode hv]

end HexDecoderScan

section Base32DecoderScan
variable {u : Base32Decoder} {c : Chr} (hphase : u.phase = .scan)
include hphase

theorem base32DecoderTurn_of_valid (hlt : u.regs.idx < u.regs.len) (hc : u.src.read u.regs.idx.toNat = some c)
    (hvalid : b32val c ≠ none) :
    base32DecoderTurn u = .next { u with regs := { u.regs with idx := u.regs.idx + 1 } } := by
  rw [base32DecoderTurn_of_scan hphase hlt hc, Option.isSome_iff_ne_none.mpr hvalid, scanOne_of_valid]

theorem base32DecoderTurn_of_invalid_decode (hlt : u.regs.idx < u.regs.len)
    (hc : u.src.read u.regs.idx.toNat = some c) (hinvalid : b32val c = none) (hv : u.regs.op.getLsbD 0 = false) :
    base32DecoderTurn u =
      .next { u with regs := { u.regs with outlen := 0, status := ⟨.done, .invalidCharacter, false⟩ } } := by
  rw [base32DecoderTurn_of_scan hphase hlt hc, hinvalid, Option.isSome_none, scanOne_of_invalid_decode hv]

theorem base32DecoderTurn_of_invalid_check (hlt : u.regs.idx < u.regs.len)
    (hc : u.src.read u.regs.idx.toNat = some c) (hinvalid : b32val c = none) (hv : u.regs.op.getLsbD 0 = true) :
    base32DecoderTurn u = .next { u with regs := { u.regs with status := ⟨.done, .none, false⟩ } } := by
  rw [base32DecoderTurn_of_scan hphase hlt hc, hinvalid, Option.isSome_none, scanOne_of_invalid_check hv]

theorem base32DecoderTurn_of_scan_end_check (hend : u.regs.idx = u.regs.len) (hv : u.regs.op.getLsbD 0 = true) :
    base32DecoderTurn u = .next { u with regs := { u.regs with status := ⟨.done, .none, true⟩ } } := by
  rw [base32DecoderTurn_of_scan_end hphase hend, scanEnd_of_check hv, ← hphase]

theorem base32DecoderTurn_of_scan_end_decode (hend : u.regs.idx = u.regs.len) (hv : u.regs.op.getLsbD 0 = false) :
    base32DecoderTurn u = .next { u with regs := { u.regs with idx := 0 }, phase := .emit } := by
  rw [base32DecoderTurn_of_scan_end hphase hend, scanEnd_of_decode hv]

end Base32DecoderScan

/-- Settles O41: the turn is the unit's step, which checks the character at IDX. -/
theorem scanStepChecksOneCharacter : Obligations.ScanStepChecksOneCharacter := by
  refine ⟨fun s c hb hphase hlt hread => ?_, fun s c hb hphase hlt hread => ?_⟩
  · have hturn {v} := UnitOps.takeTurn_of_turn (o := hexDecoderOps) (s := s) (v := v) hb
    exact ⟨fun hc => hturn (hexDecoderTurn_of_valid hphase hlt hread hc),
      fun hc hv => hturn (hexDecoderTurn_of_invalid_decode hphase hlt hread hc hv),
      fun hc hv => hturn (hexDecoderTurn_of_invalid_check hphase hlt hread hc hv)⟩
  · have hturn {v} := UnitOps.takeTurn_of_turn (o := base32DecoderOps) (s := s) (v := v) hb
    exact ⟨fun hc => hturn (base32DecoderTurn_of_valid hphase hlt hread hc),
      fun hc hv => hturn (base32DecoderTurn_of_invalid_decode hphase hlt hread hc hv),
      fun hc hv => hturn (base32DecoderTurn_of_invalid_check hphase hlt hread hc hv)⟩

/-- Settles O42: the turn is the unit's step, which ends the pass where IDX is LEN. -/
theorem scanPassEnds : Obligations.ScanPassEnds := by
  refine ⟨fun s hb hphase hend => ?_, fun s hb hphase hend => ?_⟩
  · have hturn {v} := UnitOps.takeTurn_of_turn (o := hexDecoderOps) (s := s) (v := v) hb
    exact ⟨fun hv => hturn (hexDecoderTurn_of_scan_end_check hphase hend hv),
      fun hv => hturn (hexDecoderTurn_of_scan_end_decode hphase hend hv)⟩
  · have hturn {v} := UnitOps.takeTurn_of_turn (o := base32DecoderOps) (s := s) (v := v) hb
    exact ⟨fun hv => hturn (base32DecoderTurn_of_scan_end_check hphase hend hv),
      fun hv => hturn (base32DecoderTurn_of_scan_end_decode hphase hend hv)⟩

/-! ## One step of the EMIT pass of hex_decoder (R148) -/

/-- Settles O43: the two values join into `16 h + l`. -/
theorem hexDecoderEmitWritesOneByte : Obligations.HexDecoderEmitWritesOneByte := by
  intro s c₁ c₂ h l u hb hphase hlt hc₁ hc₂ hh hl
  rw [← joinNibbles_eq]
  exact UnitOps.takeTurn_of_turn (o := hexDecoderOps) hb (hexDecoderTurn_of_emit hphase hlt hc₁ hc₂ hh hl)

/-! ## A command that ends at its acceptance (R150, R192) -/

/-- A command whose acceptance leaves the unit not BUSY is its acceptance. -/
theorem UnitOps.call_of_accept_ends {α : Type} {o : UnitOps α} {accept : α → α} {fuel : Nat} {s : State} {v : α}
    (hb : ¬(o.regs (o.get s)).Busy) (ha : accept (o.get s) = v) (hend : ¬(o.regs v).Busy) :
    o.call fuel accept s = .next (o.put v s) := by
  have hadmit : o.requireSource (accept (o.get s)) = .next v :=
    requireSource_eq_next.mpr ⟨ha.symm, fun ⟨hbusy, _⟩ => hend (ha ▸ hbusy)⟩
  rw [call_of_requireSource hb hadmit, runToDone_of_not_busy hend, andThen_next]

/-- FROMHEX of a bad length changes the registers only (R145). -/
theorem acceptHexDecoder_of_bad_decode {op : OpCode} {len : LenWord} {u : HexDecoder}
    (hlen : hexLengthOk len.toNat = false) (hv : ¬op.getLsbD 0 = true) :
    acceptHexDecoder op len u = { u with regs := raise .invalidLength (load op len u.regs) } := by
  simp only [acceptHexDecoder, acceptDecode_of_bad_decode hlen hv, not_busy_raise, ↓reduceIte]

/-- FROMBASE32 of a bad length changes the registers only (R185). -/
theorem acceptBase32Decoder_of_bad_decode {op : OpCode} {len : LenWord} {u : Base32Decoder}
    (hlen : b32LengthOk len.toNat = false) (hv : ¬op.getLsbD 0 = true) :
    acceptBase32Decoder op len u = { u with regs := raise .invalidLength (load op len u.regs) } := by
  simp only [acceptBase32Decoder, acceptDecode_of_bad_decode hlen hv, not_busy_raise, ↓reduceIte]

theorem hexLengthOk_of_odd {n : Nat} (h : n % 2 = 1) : hexLengthOk n = false := by simp [hexLengthOk, h]

theorem b32LengthOk_of_bad_class {n : Nat} (h : n % 8 = 1 ∨ n % 8 = 3 ∨ n % 8 = 6) : b32LengthOk n = false := by
  rcases h with h | h | h <;> simp [b32LengthOk, h]

/-- Settles O30: acceptance raises InvalidLength, and there is nothing left to run. -/
theorem badLengthIsInvalidLength : Obligations.BadLengthIsInvalidLength := by
  refine fun len s => ⟨fun hb hlen => ?_, fun hb hlen => ?_⟩
  · have haccept := acceptHexDecoder_of_bad_decode (op := 0b010#3) (u := s.hexDecoder) (hexLengthOk_of_odd hlen) nofun
    exact UnitOps.call_of_accept_ends (o := hexDecoderOps) hb haccept nofun
  · have haccept := acceptBase32Decoder_of_bad_decode (op := 0b110#3) (u := s.base32Decoder)
      (b32LengthOk_of_bad_class hlen) nofun
    exact UnitOps.call_of_accept_ends (o := base32DecoderOps) hb haccept nofun

end Sys2Proof.Machine

/-! PROOFS. The whole of FROMHEX and ISHEX, as one invariant of their steps (41_hex_decoder.md R143 to R149). -/

namespace Sys2Proof.Machine

/-! ## How far a command is -/

/-- Where hex_decoder stands in operation `op` on the characters `cs`, begun with `dst₀` in DST: in the SCAN pass, with
every character before IDX valid (R146); in the EMIT pass of a decode of valid characters, with the bytes before ODX
written (R148); or at an end, of a validation (R144), of a decode of invalid characters (R233), or of a decode with all
its bytes written (R149). -/
inductive HexDecoder.Progress (op : OpCode) (cs : List Chr) (dst₀ : Buffer Byte) (u : HexDecoder) : Prop where
  | scanning (status : u.regs.status = ⟨.busy, .none, false⟩) (phase : u.phase = .scan)
      (idx_le : u.regs.idx.toNat ≤ cs.length) (valid : ∀ c ∈ cs.take u.regs.idx.toNat, (hexval c).isSome)
      (dst : u.dst = dst₀)
  | emitting (bs : List Byte) (bytes : hexDecode cs = some bs) (status : u.regs.status = ⟨.busy, .none, false⟩)
      (phase : u.phase = .emit) (idx_le : u.regs.idx.toNat ≤ cs.length)
      (written : u.dst.Holds (bs.take u.regs.odx.toNat))
  | checked (check : op.getLsbD 0 = true) (status : u.regs.status = ⟨.done, .none, hexValid cs⟩) (dst : u.dst = dst₀)
  | rejected (decode : op.getLsbD 0 = false) (invalid : hexValid cs = false)
      (status : u.regs.status = ⟨.done, .invalidCharacter, false⟩) (outlen : u.regs.outlen = 0) (dst : u.dst = dst₀)
  | decoded (decode : op.getLsbD 0 = false) (bs : List Byte) (bytes : hexDecode cs = some bs)
      (status : u.regs.status = ⟨.done, .none, false⟩) (written : u.dst.Holds bs)

/-- hex_decoder in the middle or at the end of operation `op` on the `len` characters `cs`, begun with the buffers of
`u₀`. -/
structure HexDecoder.RunsOn (op : OpCode) (len : LenWord) (cs : List Chr) (u₀ u : HexDecoder) : Prop extends
    HexDecoder.Runs op len (fromHexLength len.toNat) u₀ u where
  outlen_check : op.getLsbD 0 = true → u.regs.outlen = 0
  outlen_decode : op.getLsbD 0 = false → u.regs.status.err = .none → u.regs.outlen.toNat = fromHexLength len.toNat
  progress : u.Progress op cs u₀.dst

/-! ## How many steps there are to take (44_command_protocol.md R211) -/

/-- How many steps FROMHEX or ISHEX has still to take at most. -/
def HexDecoder.stepsLeft (u : HexDecoder) : Nat :=
  if u.regs.Busy then
    match u.phase with
    | .scan =>
      u.regs.len.toNat - u.regs.idx.toNat + 1 + if u.regs.op.getLsbD 0 = true then 0 else u.regs.len.toNat / 2 + 1
    | .emit => (u.regs.len.toNat - u.regs.idx.toNat) / 2 + 1
  else 0

section StepsLeft
variable {u : HexDecoder}

theorem HexDecoder.stepsLeft_of_scan (hb : u.regs.Busy) (hphase : u.phase = .scan) : u.stepsLeft =
    u.regs.len.toNat - u.regs.idx.toNat + 1 + if u.regs.op.getLsbD 0 = true then 0 else u.regs.len.toNat / 2 + 1 := by
  rw [stepsLeft, if_pos hb, hphase]

theorem HexDecoder.stepsLeft_of_emit (hb : u.regs.Busy) (hphase : u.phase = .emit) :
    u.stepsLeft = (u.regs.len.toNat - u.regs.idx.toNat) / 2 + 1 := by
  rw [stepsLeft, if_pos hb, hphase]

theorem HexDecoder.stepsLeft_of_not_busy (hb : ¬u.regs.Busy) : u.stepsLeft = 0 := if_neg hb

/-- A step that ends the command leaves none. -/
theorem HexDecoder.stepsLeft_lt_of_ended {v : HexDecoder} (hb : u.regs.Busy) (hend : ¬v.regs.Busy) :
    v.stepsLeft < u.stepsLeft := by
  rw [stepsLeft_of_not_busy hend]
  cases hphase : u.phase with
  | scan => rw [stepsLeft_of_scan hb hphase]; omega
  | emit => rw [stepsLeft_of_emit hb hphase]; omega

/-- A validation takes a step for each character and one more; a decode a step for each byte and one more on top. -/
theorem HexDecoder.stepsLeft_le (u : HexDecoder) : u.stepsLeft ≤
    u.regs.len.toNat + 1 + if u.regs.op.getLsbD 0 = true then 0 else u.regs.len.toNat / 2 + 1 := by
  by_cases hb : u.regs.Busy
  · cases hphase : u.phase with
    | scan => rw [stepsLeft_of_scan hb hphase]; omega
    | emit => rw [stepsLeft_of_emit hb hphase]; omega
  · rw [stepsLeft_of_not_busy hb]
    exact Nat.zero_le _

end StepsLeft

/-! ## Acceptance (R145) -/

section Command
variable {op : OpCode} {len : LenWord} {cs : List Chr} {u₀ u : HexDecoder}

/-- FROMHEX of an even length and ISHEX of any length start so; a command of no characters, and ISHEX of an odd length,
ends at once. -/
theorem HexDecoder.runsOn_accept (hgood : op.getLsbD 0 = false → hexLengthOk len.toNat = true)
    (hlen : cs.length = len.toNat) : HexDecoder.RunsOn op len cs u (acceptHexDecoder op len u) := by
  have hruns := HexDecoder.runs_accept op len (fromHexLength len.toNat) u
  have hfit : fromHexLength len.toNat < 2 ^ 32 := (fromHexLength_le _).trans_lt len.isLt
  rcases acceptDecode_cases op hexLengthOk fromHexLength len u.regs with
    ⟨hbad, hv, e⟩ | ⟨hbad, hv, -⟩ | ⟨-, h0, e⟩ | ⟨-, -, e⟩
  · have hinvalid : hexValid cs = false := by
      rw [hexValid, hlen, show (len.toNat % 2 == 0) = false from hbad, Bool.false_and]
    exact ⟨hruns, by simp [e], by simp [hv], .checked hv (by simp [e, hinvalid]) rfl⟩
  · exact absurd (hgood hv) (by simp [hbad])
  · obtain rfl : cs = [] := List.eq_nil_of_length_eq_zero (by simp [hlen, h0])
    refine ⟨hruns, by simp [e], fun _ _ => by rw [acceptHexDecoder_regs, e, h0]; rfl, ?_⟩
    cases hv : op.getLsbD 0 with
    | true => exact .checked hv (by simp only [acceptHexDecoder_regs, e, endAtOnce_status, hv]; rfl) rfl
    | false =>
      exact .decoded hv [] rfl (by simp only [acceptHexDecoder_regs, e, endAtOnce_status, hv]) (Buffer.holds_nil _)
  · refine ⟨hruns, fun hv => ?_, fun hv _ => ?_, .scanning ?_ ?_ ?_ ?_ rfl⟩
    · rw [acceptHexDecoder_regs, e, start_outlen, if_pos hv]
      rfl
    · rw [acceptHexDecoder_regs, e, start_outlen, hv, if_neg Bool.false_ne_true, BitVec.toNat_ofNat,
        Nat.mod_eq_of_lt hfit]
    · simp [e]
    · exact if_pos (by rw [e]; rfl)
    · simp [e]
    · simp [e]

/-! ## The steps (R146 to R149) -/

/-- The next step of hex_decoder goes on, keeps what is known of the command, and leaves fewer steps to take. -/
def HexDecoder.StepsOn (op : OpCode) (len : LenWord) (cs : List Chr) (u₀ u : HexDecoder) : Prop :=
  ∃ v, hexDecoderTurn u = .next v ∧ HexDecoder.RunsOn op len cs u₀ v ∧ v.stepsLeft < u.stepsLeft

variable (hlen : cs.length = len.toNat) (h : HexDecoder.RunsOn op len cs u₀ u) (hb : u.regs.Busy)
include hlen h hb

/-- The step of the SCAN pass that checks a character (R146). -/
theorem HexDecoder.RunsOn.scanOne (hsrc : u₀.src.Holds cs) (hphase : u.phase = .scan)
    (hstatus : u.regs.status = ⟨.busy, .none, false⟩) (hlt : u.regs.idx.toNat < cs.length)
    (hvalid : ∀ c ∈ cs.take u.regs.idx.toNat, (hexval c).isSome) (hdst : u.dst = u₀.dst) :
    HexDecoder.StepsOn op len cs u₀ u := by
  have hget : cs[u.regs.idx.toNat]? = some cs[u.regs.idx.toNat] := List.getElem?_eq_getElem hlt
  have hread : u.src.read u.regs.idx.toNat = some cs[u.regs.idx.toNat] := (h.src_eq ▸ hsrc _ hlt).trans hget
  have hlt' : u.regs.idx < u.regs.len := by rwa [h.len_eq, BitVec.lt_def, ← hlen]
  by_cases hc : hexval cs[u.regs.idx.toNat] = none
  · have hinvalid : hexValid cs = false := by
      rw [Bool.eq_false_iff, Ne, hexValid_iff]
      exact fun ⟨_, hall⟩ => by simpa [hc] using hall _ (List.getElem_mem hlt)
    cases hv : op.getLsbD 0 with
    | true =>
      have hturn := hexDecoderTurn_of_invalid_check hphase hlt' hread hc (by rwa [h.op_eq])
      exact ⟨_, hturn, ⟨runs_turn (fun _ => rfl) h.toRuns hb hturn, h.outlen_check, by simp [hv],
        .checked hv (by rw [hinvalid]) hdst⟩, stepsLeft_lt_of_ended hb nofun⟩
    | false =>
      have hturn := hexDecoderTurn_of_invalid_decode hphase hlt' hread hc (by rwa [h.op_eq])
      exact ⟨_, hturn, ⟨runs_turn (fun _ => rfl) h.toRuns hb hturn, fun _ => rfl, nofun,
        .rejected hv hinvalid rfl rfl hdst⟩, stepsLeft_lt_of_ended hb nofun⟩
  · have hturn := hexDecoderTurn_of_valid hphase hlt' hread hc
    have hidx₁ : (u.regs.idx + 1).toNat = u.regs.idx.toNat + 1 := by bv_omega
    refine ⟨_, hturn, ⟨runs_turn (fun _ => rfl) h.toRuns hb hturn, h.outlen_check, h.outlen_decode,
      .scanning hstatus hphase ?_ ?_ hdst⟩, ?_⟩
    · simp only [hidx₁]
      exact hlt
    · simp only [hidx₁, List.take_add_one, hget, Option.toList_some, List.forall_mem_append, List.forall_mem_singleton]
      exact ⟨hvalid, Option.isSome_iff_ne_none.mpr hc⟩
    · rw [stepsLeft_of_scan hb hphase]
      refine Eq.trans_lt (stepsLeft_of_scan hb hphase) ?_
      simp only [hidx₁, h.len_eq]
      omega

/-- The step that ends the SCAN pass (R147). -/
theorem HexDecoder.RunsOn.scanEnd (hphase : u.phase = .scan) (hstatus : u.regs.status = ⟨.busy, .none, false⟩)
    (hend : u.regs.idx.toNat = cs.length) (hvalid : ∀ c ∈ cs.take u.regs.idx.toNat, (hexval c).isSome)
    (hdst : u.dst = u₀.dst) : HexDecoder.StepsOn op len cs u₀ u := by
  have hend' : u.regs.idx = u.regs.len := BitVec.eq_of_toNat_eq (by rw [hend, hlen, h.len_eq])
  have hall : hexValid cs = true := by
    rw [hend, List.take_length] at hvalid
    exact (hexValid_iff cs).mpr ⟨hlen ▸ h.even hb, hvalid⟩
  cases hv : op.getLsbD 0 with
  | true =>
    have hturn := hexDecoderTurn_of_scan_end_check hphase hend' (by rwa [h.op_eq])
    exact ⟨_, hturn, ⟨runs_turn (fun _ => rfl) h.toRuns hb hturn, h.outlen_check, by simp [hv],
      .checked hv (by rw [hall]) hdst⟩, stepsLeft_lt_of_ended hb nofun⟩
  | false =>
    have hturn := hexDecoderTurn_of_scan_end_decode hphase hend' (by rwa [h.op_eq])
    obtain ⟨bs, hbs⟩ := Option.isSome_iff_exists.mp ((isSome_hexDecode cs).trans hall)
    refine ⟨_, hturn, ⟨runs_turn (fun _ => rfl) h.toRuns hb hturn, h.outlen_check, h.outlen_decode,
      .emitting bs hbs hstatus rfl (Nat.zero_le _) ?_⟩, ?_⟩
    · simp only [h.scan hb hphase]
      exact Buffer.holds_nil _
    · rw [stepsLeft_of_scan hb hphase, h.op_eq, hv, if_neg Bool.false_ne_true]
      refine Eq.trans_lt (stepsLeft_of_emit hb rfl) ?_
      simp

/-- The step of the EMIT pass that writes a byte (R148). -/
theorem HexDecoder.RunsOn.decodePair (hsrc : u₀.src.Holds cs) {bs : List Byte} (hbs : hexDecode cs = some bs)
    (hphase : u.phase = .emit) (hstatus : u.regs.status = ⟨.busy, .none, false⟩)
    (hlt : u.regs.idx.toNat < cs.length) (hwritten : u.dst.Holds (bs.take u.regs.odx.toNat)) :
    HexDecoder.StepsOn op len cs u₀ u := by
  obtain ⟨-, hidx⟩ := h.emit hb hphase
  have hlength := length_of_hexDecode hbs
  have hodx : u.regs.odx.toNat < bs.length := by omega
  have hidx₁ : (u.regs.idx + 1).toNat = u.regs.idx.toNat + 1 := by bv_omega
  have hidx₂ : (u.regs.idx + 2).toNat = u.regs.idx.toNat + 2 := by bv_omega
  have hodx₁ : (u.regs.odx + 1).toNat = u.regs.odx.toNat + 1 := by bv_omega
  have hget : bs[u.regs.odx.toNat]? = some bs[u.regs.odx.toNat] := List.getElem?_eq_getElem hodx
  obtain ⟨c₁, c₂, hc₁, hc₂, hhi, hlo⟩ := getElem?_of_hexPairs (hexDecode_eq_hexPairs cs ▸ hbs) hget
  have hread₁ : u.src.read u.regs.idx.toNat = some c₁ := by
    rw [h.src_eq, hsrc _ hlt, hidx, hc₁]
  have hread₂ : u.src.read (u.regs.idx + 1).toNat = some c₂ := by
    rw [h.src_eq, hidx₁, hsrc _ (by omega), hidx, hc₂]
  have hturn := hexDecoderTurn_of_emit hphase (by rwa [h.len_eq, BitVec.lt_def, ← hlen]) hread₁ hread₂ hhi hlo
  refine ⟨_, hturn, ⟨runs_turn (fun _ => rfl) h.toRuns hb hturn, h.outlen_check, h.outlen_decode,
    .emitting bs hbs hstatus hphase ?_ ?_⟩, ?_⟩
  · rw [hexDecodePair_idx, hidx₂]
    omega
  · have hnext := hwritten.write bs[u.regs.odx.toNat]
    rw [List.length_take_of_le hodx.le] at hnext
    rw [hexDecodePair_odx, hexDecodePair_dst, joinNibbles_nibbles, hodx₁, List.take_add_one, hget]
    exact hnext
  · rw [stepsLeft_of_emit hb hphase, stepsLeft_of_emit (u := hexDecodePair _ _ u) hb hphase, hexDecodePair_len,
      hexDecodePair_idx, hidx₂, h.len_eq]
    omega

/-- The step that ends the EMIT pass (R149). -/
theorem HexDecoder.RunsOn.complete {bs : List Byte} (hbs : hexDecode cs = some bs) (hphase : u.phase = .emit)
    (hstatus : u.regs.status = ⟨.busy, .none, false⟩) (hend : u.regs.idx.toNat = cs.length)
    (hwritten : u.dst.Holds (bs.take u.regs.odx.toNat)) : HexDecoder.StepsOn op len cs u₀ u := by
  obtain ⟨hv, hidx⟩ := h.emit hb hphase
  have hlength := length_of_hexDecode hbs
  have hturn := hexDecoderTurn_of_emit_end hphase (BitVec.eq_of_toNat_eq (by rw [hend, hlen, h.len_eq]))
  rw [List.take_of_length_le (by omega)] at hwritten
  refine ⟨_, hturn, ⟨runs_turn (fun _ => rfl) h.toRuns hb hturn, h.outlen_check, fun hv _ => ?_,
    .decoded hv bs hbs ?_ hwritten⟩, stepsLeft_lt_of_ended hb (not_busy_complete _)⟩
  · exact h.outlen_decode hv (by rw [hstatus])
  · rw [complete_status, hstatus]

/-- Every step goes on, keeps this, and leaves fewer steps to take. -/
theorem HexDecoder.RunsOn.turn (hsrc : u₀.src.Holds cs) : HexDecoder.StepsOn op len cs u₀ u := by
  cases h.progress with
  | scanning hstatus hphase hidx hvalid hdst =>
    rcases hidx.lt_or_eq with hlt | hend
    · exact h.scanOne hlen hb hsrc hphase hstatus hlt hvalid hdst
    · exact h.scanEnd hlen hb hphase hstatus hend hvalid hdst
  | emitting bs hbs hstatus hphase hidx hwritten =>
    rcases hidx.lt_or_eq with hlt | hend
    · exact h.decodePair hlen hb hsrc hbs hphase hstatus hlt hwritten
    · exact h.complete hlen hb hbs hphase hstatus hend hwritten
  | checked _ hstatus => simp [Regs.Busy, hstatus] at hb
  | rejected _ _ hstatus => simp [Regs.Busy, hstatus] at hb
  | decoded _ _ _ hstatus => simp [Regs.Busy, hstatus] at hb

end Command

/-! ## The whole command (R143, R144) -/

/-- FROMHEX of an even length, and ISHEX of any length, on characters that are there, go on and end so. -/
theorem hexDecoderCall_ends {op : OpCode} {len : LenWord} {cs : List Chr} {fuel : Nat} {s : State}
    (hb : ¬s.hexDecoder.regs.Busy) (hgood : op.getLsbD 0 = false → hexLengthOk len.toNat = true)
    (hlen : cs.length = len.toNat) (hsrc : s.hexDecoder.src.Holds cs)
    (hfuel : (len.toNat + 1 + if op.getLsbD 0 = true then 0 else len.toNat / 2 + 1) ≤ fuel) :
    ∃ u, hexDecoderOps.call fuel (acceptHexDecoder op len) s = .next { s with hexDecoder := u } ∧
      HexDecoder.RunsOn op len cs s.hexDecoder u ∧ ¬u.regs.Busy := by
  have hready : hexDecoderOps.sourceReady (acceptHexDecoder op len s.hexDecoder) = true := by
    simpa [← hlen] using hsrc.allWritten
  have hsteps : (acceptHexDecoder op len s.hexDecoder).stepsLeft ≤ fuel := by
    refine (HexDecoder.stepsLeft_le _).trans ?_
    rwa [acceptHexDecoder_regs, acceptDecode_op, acceptDecode_len]
  exact UnitOps.call_terminates (o := hexDecoderOps) HexDecoder.stepsLeft hb (fun _ => hready)
    (HexDecoder.runsOn_accept hgood hlen) (fun _ h hb => h.turn hlen hb hsrc) hsteps

/-- Settles O24: a decode of valid characters ends with their bytes written, one for each pair. -/
theorem fromHexWritesTheBytesOfTheSource : Obligations.FromHexWritesTheBytesOfTheSource := by
  intro len cs bs s hb hlen hsrc hbs
  have hlength := length_of_hexDecode hbs
  have heven : hexLengthOk len.toNat = true := by simp [hexLengthOk, ← hlen, hlength]
  obtain ⟨u, hu, h, hend⟩ := hexDecoderCall_ends (op := 0b010#3) hb (fun _ => heven) hlen hsrc le_rfl
  cases h.progress with
  | scanning hstatus => simp [Regs.Busy, hstatus] at hend
  | emitting _ _ hstatus => simp [Regs.Busy, hstatus] at hend
  | checked hv => exact absurd hv nofun
  | rejected _ hinvalid => simp [← isSome_hexDecode, hbs] at hinvalid
  | decoded hv bs' hbs' hstatus hwritten =>
    obtain rfl : bs' = bs := Option.some.inj (hbs'.symm.trans hbs)
    exact ⟨u, hu, h.op_eq, h.len_eq, h.outlen_decode hv (by rw [hstatus]), hstatus, h.src_eq, by omega, hwritten,
      h.dst_same⟩

/-- Settles O27: a validation ends with its answer, at acceptance, at an invalid character or at the end of the source,
and writes nothing. -/
theorem isHexAnswersForTheSource : Obligations.IsHexAnswersForTheSource := by
  intro len cs s hb hlen hsrc
  obtain ⟨u, hu, h, hend⟩ := hexDecoderCall_ends (op := 0b011#3) hb nofun hlen hsrc le_rfl
  cases h.progress with
  | scanning hstatus => simp [Regs.Busy, hstatus] at hend
  | emitting _ _ hstatus => simp [Regs.Busy, hstatus] at hend
  | checked hv hstatus hdst =>
    exact ⟨u, hu, h.op_eq, h.len_eq, h.outlen_check hv, hstatus, h.src_eq, hdst⟩
  | rejected hv => exact absurd hv nofun
  | decoded hv => exact absurd hv nofun

end Sys2Proof.Machine

/-! PROOFS. The Base32 text of the first bytes, the lengths of Base32 texts, and the steps of TOBASE32, which cut its
symbols from the accumulator (42_base32_encoder.md R160 to R170). -/

namespace Sys2Proof.Machine

/-! ## A stretch of a stream of bits, as a number (30_encoding.md R116) -/

/-- The number made of the `n` bits of the stream `f` from place `k` on, the first the most significant. -/
def streamValue (f : Nat → Bool) (k n : Nat) : Nat := bitsValue ((List.range n).map fun t => f (k + t))

section StreamValue
variable (f : Nat → Bool) (k n : Nat)

@[simp] theorem streamValue_zero : streamValue f k 0 = 0 := rfl

theorem streamValue_succ : streamValue f k (n + 1) = 2 * streamValue f k n + (f (k + n)).toNat := by
  rw [streamValue, List.range_succ, List.map_append, List.map_singleton, bitsValue_concat, Nat.bit_val, streamValue]

theorem streamValue_lt : streamValue f k n < 2 ^ n := by
  induction n with
  | zero => exact Nat.two_pow_pos 0
  | succ n ih =>
    have hbit := Bool.toNat_lt (f (k + n))
    rw [streamValue_succ, Nat.pow_succ]
    omega

/-- The bits of two stretches next to each other. -/
theorem streamValue_add (m : Nat) :
    streamValue f k (m + n) = streamValue f k m * 2 ^ n + streamValue f (k + m) n := by
  induction n with
  | zero => simp
  | succ n ih =>
    rw [← Nat.add_assoc, streamValue_succ, ih, streamValue_succ, Nat.pow_succ, Nat.add_assoc k]
    ring

/-- The first bits of a stretch, as the rest is shifted out. -/
theorem streamValue_div (m : Nat) : streamValue f k (m + n) / 2 ^ n = streamValue f k m := by
  rw [streamValue_add, Nat.mul_comm, Nat.mul_add_div (Nat.two_pow_pos n), Nat.div_eq_of_lt (streamValue_lt ..),
    Nat.add_zero]

/-- The last bits of a stretch, as the rest is masked out. -/
theorem streamValue_mod (m : Nat) : streamValue f k (m + n) % 2 ^ n = streamValue f (k + m) n := by
  rw [streamValue_add, Nat.mul_comm, Nat.mul_add_mod, Nat.mod_eq_of_lt (streamValue_lt ..)]

variable {f k n}

theorem streamValue_congr {g : Nat → Bool} (h : ∀ t < n, f (k + t) = g (k + t)) :
    streamValue f k n = streamValue g k n :=
  congrArg bitsValue (List.map_congr_left fun t ht => h t (List.mem_range.mp ht))

theorem streamValue_of_zeros (h : ∀ t < n, f (k + t) = false) : streamValue f k n = 0 := by
  induction n with
  | zero => rfl
  | succ n ih => rw [streamValue_succ, ih fun t ht => h t (by omega), h n (by omega)]; rfl

end StreamValue

/-! ## The stream of a byte sequence (R160) -/

section ByteStream
variable {bs : List Byte}

theorem b32Symbol_eq (bs : List Byte) (j : Nat) :
    b32Symbol bs j = BitVec.ofNat 5 (streamValue (byteStreamBit bs) (5 * j) 5) := rfl

/-- The eight bits of a byte are that byte. -/
theorem streamValue_byte {i : Nat} {b : Byte} (hb : bs[i]? = some b) :
    streamValue (byteStreamBit bs) (8 * i) 8 = b.toNat := by
  have hbyte : BitVec.ofNat 8 (streamValue (byteStreamBit bs) (8 * i) 8) = b := by
    refine BitVec.eq_of_getLsbD_eq fun j hj => ?_
    rw [← byteStreamBit_of_getElem? hb hj]
    exact getLsbD_ofNat_bitsValue (fun t => byteStreamBit bs (8 * i + t)) hj
  rw [← hbyte, BitVec.toNat_ofNat, Nat.mod_eq_of_lt (streamValue_lt ..)]

/-- Past the last byte there are zeros. -/
theorem byteStreamBit_of_le {k : Nat} (hk : 8 * bs.length ≤ k) : byteStreamBit bs k = false := by
  have hnone : bs[k / 8]? = none := List.getElem?_eq_none (by omega)
  simp only [byteStreamBit, hnone]

/-- Bytes that follow do not change the bits before them. -/
theorem byteStreamBit_append {k : Nat} (more : List Byte) (hk : k < 8 * bs.length) :
    byteStreamBit (bs ++ more) k = byteStreamBit bs k := by
  simp only [byteStreamBit, List.getElem?_append_left (show k / 8 < bs.length by omega)]

theorem b32Symbol_append {j : Nat} (more : List Byte) (hj : 5 * (j + 1) ≤ 8 * bs.length) :
    b32Symbol (bs ++ more) j = b32Symbol bs j := by
  rw [b32Symbol_eq, b32Symbol_eq, streamValue_congr fun t ht => byteStreamBit_append more (by omega)]

theorem b32Symbols_succ (bs : List Byte) (m : Nat) : b32Symbols bs (m + 1) = b32Symbols bs m ++ [b32Symbol bs m] := by
  simp [b32Symbols, List.range_succ]

/-- The first characters of a text are those of the first symbols. -/
theorem take_b32Encode {m : Nat} (hm : m ≤ toBase32Length bs.length) :
    (b32Encode bs).take m = (b32Symbols bs m).map b32Alpha := by
  rw [b32Encode_eq_map, ← List.map_take, b32Symbols, ← List.map_take, List.take_range, Nat.min_eq_left hm, b32Symbols]

/-- The next symbol adds its character to the text. -/
theorem take_succ_b32Encode {m : Nat} (hm : m < toBase32Length bs.length) :
    (b32Encode bs).take (m + 1) = (b32Encode bs).take m ++ [b32Alpha (b32Symbol bs m)] := by
  rw [take_b32Encode hm, take_b32Encode hm.le, b32Symbols_succ, List.map_append, List.map_singleton]

end ByteStream

/-- Settles O15: the symbols that lie within the bits of the shorter sequence are cut from the same bits. -/
theorem base32TextOfAnInitialPart : Obligations.Base32TextOfAnInitialPart := by
  intro bs more
  have hroom := le_toBase32Length bs.length
  have hroom' := le_toBase32Length (bs ++ more).length
  rw [take_b32Encode (by rw [List.length_append] at *; omega), take_b32Encode (by omega)]
  refine congrArg (List.map b32Alpha) (List.map_congr_left fun j hj => b32Symbol_append more ?_)
  rw [List.mem_range] at hj
  omega

/-! ## Lengths (R168) -/

/-- A length that the decoder accepts is that of the text of as many bytes as it holds. -/
theorem toBase32Length_fromBase32Length {m : Nat} (h : b32LengthOk m = true) :
    toBase32Length (fromBase32Length m) = m := by
  simp only [b32LengthOk, Bool.and_eq_true, bne_iff_ne] at h
  have hclass : m % 8 = 0 ∨ m % 8 = 2 ∨ m % 8 = 4 ∨ m % 8 = 5 ∨ m % 8 = 7 := by omega
  unfold toBase32Length fromBase32Length
  rcases hclass with h | h | h | h | h <;> omega

/-- Settles O16: the rows are arithmetic, and an accepted length is that of the bytes it decodes to. -/
theorem toBase32LengthTable : Obligations.ToBase32LengthTable := by
  refine ⟨fun q => ?_, fun n => ?_, fun n hn => ?_, fun m => ⟨?_, fun hm => ⟨_, toBase32Length_fromBase32Length hm⟩⟩⟩
  · unfold toBase32Length
    omega
  · unfold toBase32Length
    split_ifs <;> omega
  · unfold toBase32Length
    split_ifs <;> omega
  · rintro ⟨n, rfl⟩
    exact b32LengthOk_toBase32Length n

/-! ## One step of base32_encoder (R164, R166) -/

/-- The character given out and the bits kept, in numbers: the shift divides, and the mask takes the remainder. -/
theorem base32EmitSymbol_eq (pool n : Nat) (idx : LenWord) (u : Base32Encoder) : base32EmitSymbol pool n idx u =
    { u with
      dst := u.dst.write u.regs.odx.toNat (b32Alpha (BitVec.ofNat 5 (pool / 2 ^ (n - 5))))
      buf := BitVec.ofNat 12 (pool % 2 ^ (n - 5))
      bits := BitVec.ofNat 4 (n - 5)
      regs := { u.regs with idx := idx, odx := u.regs.odx + 1 } } := by
  have hsymbol : BitVec.ofNat 5 ((pool >>> (n - 5)) &&& 0x1F) = BitVec.ofNat 5 (pool / 2 ^ (n - 5)) := by
    apply BitVec.eq_of_toNat_eq
    rw [BitVec.toNat_ofNat, BitVec.toNat_ofNat, Nat.shiftRight_eq_div_pow, Nat.and_two_pow_sub_one_eq_mod _ 5,
      Nat.mod_mod]
  rw [base32EmitSymbol, hsymbol, Nat.one_shiftLeft, Nat.and_two_pow_sub_one_eq_mod]

/-- A byte taken in stands below the bits held. -/
theorem shiftLeft_or_byte (buf : Nat) (b : Byte) : (buf <<< 8) ||| b.toNat = buf * 256 + b.toNat := by
  rw [← Nat.shiftLeft_add_eq_or_of_lt b.isLt, Nat.shiftLeft_eq]

/-- `k` more bits, whatever they are, keep a number of `n` bits within `n + k`. -/
theorem mul_two_pow_add_lt {a b n k : Nat} (ha : a < 2 ^ n) (hb : b < 2 ^ k) : a * 2 ^ k + b < 2 ^ (n + k) := by
  rw [Nat.pow_add, Nat.mul_comm a]
  exact Nat.mul_add_lt_mul_of_lt_of_lt ha hb

/-- Settles O44: in each case the unit gives out a symbol of the bits then held, which are as many as BITS says. -/
theorem base32EncoderStepWritesOneCharacter : Obligations.Base32EncoderStepWritesOneCharacter := by
  intro s pool n idx' u hs hb hmore hcase
  have hbits : u.bits.toNat ≤ 7 := hs.base32Encoder.bits_le hb
  have hbuf : u.buf.toNat < 2 ^ u.bits.toNat := hs.base32Encoder.buf_lt hb
  rw [← base32EmitSymbol_eq]
  rcases hcase with ⟨b, hlt5, hlt, hread, rfl, rfl, rfl⟩ | ⟨hlt5, hend, rfl, rfl, rfl⟩ | ⟨h5, rfl, rfl, rfl⟩
  · refine ⟨mul_two_pow_add_lt hbuf b.isLt, by omega, UnitOps.takeTurn_of_turn (o := base32EncoderOps) hb ?_⟩
    rw [← shiftLeft_or_byte]
    exact base32EncoderTurn_of_lt hlt5 hlt hread
  · refine ⟨?_, by decide, UnitOps.takeTurn_of_turn (o := base32EncoderOps) hb ?_⟩
    · have hfilled := mul_two_pow_add_lt hbuf (Nat.two_pow_pos (5 - u.bits.toNat))
      rwa [Nat.add_zero, Nat.add_sub_cancel' hlt5.le] at hfilled
    · rw [← Nat.shiftLeft_eq]
      exact base32EncoderTurn_of_fill hmore hlt5 (hend ▸ BitVec.lt_irrefl _)
  · exact ⟨hbuf, by omega, UnitOps.takeTurn_of_turn (o := base32EncoderOps) hb (base32EncoderTurn_of_held h5)⟩

end Sys2Proof.Machine

/-! PROOFS. The whole of TOBASE32, as one invariant of its steps: BUF holds the next BITS bits of the source's stream, and
DST the text before them (42_base32_encoder.md R161 to R166). -/

namespace Sys2Proof.Machine

/-! ## The accumulator, and how far a command is -/

/-- base32_encoder in the middle of TOBASE32 of the bytes `bs`: BUF holds the BITS bits of their stream that follow those
given out, the characters below ODX are written, and where all bits are given out so is the whole text. -/
structure Base32Encoder.Running (bs : List Byte) (u : Base32Encoder) : Prop where
  status : u.regs.status = ⟨.busy, .none, false⟩
  held : u.buf.toNat = streamValue (byteStreamBit bs) (5 * u.regs.odx.toNat) u.bits.toNat
  whole : u.bits.toNat = 0 → u.regs.idx.toNat = bs.length → u.regs.odx.toNat = toBase32Length bs.length
  written : u.dst.Holds ((b32Encode bs).take u.regs.odx.toNat)

/-- base32_encoder in the middle or at the end of TOBASE32 of the `len` bytes `bs`, begun with the buffers of `u₀`. -/
structure Base32Encoder.Encodes (len : LenWord) (bs : List Byte) (u₀ u : Base32Encoder) : Prop extends
    Base32Encoder.Runs len u₀ u where
  outlen_eq : u.regs.outlen.toNat = toBase32Length len.toNat
  progress : u.Running bs ∨ u.regs.status = ⟨.done, .none, false⟩ ∧ u.dst.Holds (b32Encode bs)

/-- How many steps TOBASE32 has still to take at most (44_command_protocol.md R211). -/
def Base32Encoder.stepsLeft (u : Base32Encoder) : Nat :=
  if u.regs.Busy then toBase32Length u.regs.len.toNat + 1 - u.regs.odx.toNat else 0

theorem Base32Encoder.stepsLeft_of_busy {u : Base32Encoder} (hb : u.regs.Busy) :
    u.stepsLeft = toBase32Length u.regs.len.toNat + 1 - u.regs.odx.toNat := if_pos hb

theorem Base32Encoder.stepsLeft_of_not_busy {u : Base32Encoder} (hb : ¬u.regs.Busy) : u.stepsLeft = 0 := if_neg hb

/-- The next step of base32_encoder goes on, keeps what is known of the command, and leaves fewer steps to take. -/
def Base32Encoder.StepsOn (len : LenWord) (bs : List Byte) (u₀ u : Base32Encoder) : Prop :=
  ∃ v, base32EncoderTurn u = .next v ∧ Base32Encoder.Encodes len bs u₀ v ∧ v.stepsLeft < u.stepsLeft

section ToBase32
variable {len : LenWord} {bs : List Byte} {u₀ u : Base32Encoder}

/-! ## Acceptance (R162) -/

/-- TOBASE32 of an accepted length starts so, with no bits held and nothing written; the empty command ends at once with
the empty text. -/
theorem Base32Encoder.encodes_accept {p : Params} (hp : p.Legal) (hmax : len.toNat ≤ p.b32MaxIn)
    (hlen : bs.length = len.toNat) : Base32Encoder.Encodes len bs u (acceptToBase32 p len u) := by
  have hruns := Base32Encoder.runs_accept hp len u
  rcases acceptEncode_cases 0b100#3 p.b32MaxIn toBase32Length len u.regs with ⟨hgt, -⟩ | ⟨-, h0, e⟩ | ⟨-, hne, e⟩
  · omega
  · obtain rfl : bs = [] := List.eq_nil_of_length_eq_zero (by simp [hlen, h0])
    exact ⟨hruns, by rw [acceptToBase32_regs, e, h0]; rfl, .inr ⟨by simp [e], Buffer.holds_nil _⟩⟩
  · have hb : (acceptEncode 0b100#3 p.b32MaxIn toBase32Length len u.regs).Busy := by rw [e]; rfl
    have hbuf : (acceptToBase32 p len u).buf = 0 := if_pos hb
    have hbits : (acceptToBase32 p len u).bits = 0 := if_pos hb
    have hidx : (acceptToBase32 p len u).regs.idx = 0 := by simp [e]
    have hodx : (acceptToBase32 p len u).regs.odx = 0 := by simp [e]
    have hpos : bs.length ≠ 0 := fun h => hne (BitVec.eq_of_toNat_eq (hlen.symm.trans h))
    refine ⟨hruns, ?_, .inl ⟨by simp [e], ?_, ?_, ?_⟩⟩
    · rw [acceptToBase32_regs, e, start_outlen, BitVec.toNat_ofNat, Nat.mod_eq_of_lt (toBase32Length_lt hp hmax)]
    · rw [hbuf, hbits]
      rfl
    · rw [hidx]
      exact fun _ h => absurd h.symm hpos
    · rw [hodx]
      exact Buffer.holds_nil _

/-! ## The bits held, after more are taken in (R164, R166) -/

/-- The next byte of the source makes a stretch of the stream that ends at it eight bits longer. -/
theorem streamValue_take_byte {k n i : Nat} {b : Byte} (hend : k + n = 8 * i) (hget : bs[i]? = some b) :
    (streamValue (byteStreamBit bs) k n <<< 8) ||| b.toNat = streamValue (byteStreamBit bs) k (n + 8) := by
  rw [streamValue_add, hend, streamValue_byte hget]
  exact shiftLeft_or_byte _ b

/-- At the end of the source, zero bits filled in on the low side are the next bits of the stream. -/
theorem streamValue_fill {k n : Nat} (hend : k + n = 8 * bs.length) (m : Nat) :
    streamValue (byteStreamBit bs) k n <<< m = streamValue (byteStreamBit bs) k (n + m) := by
  have hzeros : streamValue (byteStreamBit bs) (k + n) m = 0 :=
    streamValue_of_zeros fun t _ => byteStreamBit_of_le (by omega)
  rw [streamValue_add, hzeros, Nat.add_zero, Nat.shiftLeft_eq]

/-! ## The steps (R164 to R166) -/

variable (hlen : bs.length = len.toNat) (h : Base32Encoder.Encodes len bs u₀ u) (hb : u.regs.Busy) (hr : u.Running bs)
include hlen h hb hr

/-- A step that gives out the first five of `n` bits of the stream, taken from the place of the next symbol, writes that
symbol's character behind the text and holds the bits that follow it. -/
theorem Base32Encoder.Encodes.emitSymbol {pool n : Nat} {idx : LenWord}
    (hturn : base32EncoderTurn u = .next (base32EmitSymbol pool n idx u))
    (hpool : pool = streamValue (byteStreamBit bs) (5 * u.regs.odx.toNat) n) (h5 : 5 ≤ n) (h12 : n ≤ 12)
    (hodx : u.regs.odx.toNat < toBase32Length bs.length)
    (hwhole : n = 5 → idx.toNat = bs.length → u.regs.odx.toNat + 1 = toBase32Length bs.length) :
    Base32Encoder.StepsOn len bs u₀ u := by
  obtain ⟨m, rfl⟩ : ∃ m, n = 5 + m := ⟨n - 5, by omega⟩
  have hfits := h.fits hb
  have hodx₁ : (u.regs.odx + 1).toNat = u.regs.odx.toNat + 1 := by rw [hlen] at hodx; bv_omega
  have hbits₁ : (base32EmitSymbol pool (5 + m) idx u).bits.toNat = m := by
    rw [base32EmitSymbol_bits, Nat.add_sub_cancel_left, BitVec.toNat_ofNat, Nat.mod_eq_of_lt (by omega)]
  have hrest : pool % 2 ^ m = streamValue (byteStreamBit bs) (5 * (u.regs.odx.toNat + 1)) m := by
    rw [hpool, streamValue_mod, Nat.mul_succ]
  have hsymbol : BitVec.ofNat 5 (pool / 2 ^ m) = b32Symbol bs u.regs.odx.toNat := by
    rw [hpool, streamValue_div, b32Symbol_eq]
  refine ⟨_, hturn, ⟨runs_turn h.toRuns hb hturn, h.outlen_eq, .inl ⟨hr.status, ?_, ?_, ?_⟩⟩, ?_⟩
  · rw [hbits₁, base32EmitSymbol_odx, hodx₁, ← hrest, base32EmitSymbol_eq]
    simp only [Nat.add_sub_cancel_left, BitVec.toNat_ofNat]
    refine Nat.mod_eq_of_lt ((Nat.mod_lt _ (Nat.two_pow_pos m)).trans_le ?_)
    exact Nat.pow_le_pow_right (by decide) (by omega)
  · rw [hbits₁, base32EmitSymbol_odx, hodx₁]
    exact fun h0 => hwhole (by omega)
  · have hnext := hr.written.write (b32Alpha (b32Symbol bs u.regs.odx.toNat))
    rw [List.length_take_of_le (by rw [length_b32Encode]; exact hodx.le)] at hnext
    rw [base32EmitSymbol_odx, hodx₁, take_succ_b32Encode hodx, base32EmitSymbol_eq]
    simpa only [Nat.add_sub_cancel_left, hsymbol] using hnext
  · rw [stepsLeft_of_busy hb, stepsLeft_of_busy (u := base32EmitSymbol _ _ _ u) hb, base32EmitSymbol_len,
      base32EmitSymbol_odx, hodx₁, h.len_eq, ← hlen]
    omega

/-- The step that takes in a byte. -/
theorem Base32Encoder.Encodes.takeByte (hsrc : u₀.src.Holds bs) (hlt5 : u.bits.toNat < 5)
    (hlt : u.regs.idx.toNat < bs.length) : Base32Encoder.StepsOn len bs u₀ u := by
  have hget : bs[u.regs.idx.toNat]? = some bs[u.regs.idx.toNat] := List.getElem?_eq_getElem hlt
  have hread : u.src.read u.regs.idx.toNat = some bs[u.regs.idx.toNat] := (h.src_eq ▸ hsrc _ hlt).trans hget
  have hlt' : u.regs.idx < u.regs.len := by rwa [h.len_eq, BitVec.lt_def, ← hlen]
  have hplace : 5 * u.regs.odx.toNat + u.bits.toNat = 8 * u.regs.idx.toNat := by
    have hbalance := h.balance hb
    omega
  exact h.emitSymbol hlen hb hr (base32EncoderTurn_of_lt hlt5 hlt' hread) (hr.held ▸ streamValue_take_byte hplace hget)
    (by omega) (by omega) (by unfold toBase32Length; omega) (fun _ _ => by omega)

/-- The step that fills the last group with zero bits. -/
theorem Base32Encoder.Encodes.fill (hlt5 : u.bits.toNat < 5) (hsome : u.bits.toNat ≠ 0)
    (hend : u.regs.idx.toNat = bs.length) : Base32Encoder.StepsOn len bs u₀ u := by
  have hmore : ¬(u.bits = 0 ∧ u.regs.idx = u.regs.len) := fun ⟨h0, _⟩ => hsome (by simp [h0])
  have hge : ¬u.regs.idx < u.regs.len := by rw [h.len_eq, BitVec.lt_def]; omega
  have hplace : 5 * u.regs.odx.toNat + u.bits.toNat = 8 * bs.length := by
    have hbalance := h.balance hb
    omega
  have hpool := streamValue_fill hplace (5 - u.bits.toNat)
  rw [← hr.held, Nat.add_sub_cancel' hlt5.le] at hpool
  exact h.emitSymbol hlen hb hr (base32EncoderTurn_of_fill hmore hlt5 hge) hpool le_rfl (by decide)
    (by unfold toBase32Length; omega) (fun _ _ => by unfold toBase32Length; omega)

/-- The step that gives out five of the bits held. -/
theorem Base32Encoder.Encodes.emitHeld (h5 : 5 ≤ u.bits.toNat) : Base32Encoder.StepsOn len bs u₀ u := by
  obtain ⟨hidx, hbits⟩ := h.bounds hb
  have hplace : 5 * u.regs.odx.toNat + u.bits.toNat = 8 * u.regs.idx.toNat := by
    have hbalance := h.balance hb
    omega
  exact h.emitSymbol hlen hb hr (base32EncoderTurn_of_held h5) hr.held h5 (by omega)
    (by unfold toBase32Length; omega) (fun _ _ => by unfold toBase32Length; omega)

/-- The step that ends the command, all bits given out (R165). -/
theorem Base32Encoder.Encodes.complete (h0 : u.bits.toNat = 0) (hend : u.regs.idx.toNat = bs.length) :
    Base32Encoder.StepsOn len bs u₀ u := by
  have hturn := base32EncoderTurn_of_end (u := u) (BitVec.eq_of_toNat_eq h0)
    (BitVec.eq_of_toNat_eq (by rw [hend, hlen, h.len_eq]))
  have htext := hr.written
  rw [hr.whole h0 hend, ← length_b32Encode, List.take_length] at htext
  refine ⟨_, hturn, ⟨runs_turn h.toRuns hb hturn, h.outlen_eq, .inr ⟨by simp [hr.status], htext⟩⟩, ?_⟩
  rw [stepsLeft_of_busy hb, stepsLeft_of_not_busy (not_busy_complete _), hr.whole h0 hend, hlen, h.len_eq]
  omega

omit hr in
/-- Every step of TOBASE32 goes on, keeps this, and leaves fewer steps to take. -/
theorem Base32Encoder.Encodes.turn (hsrc : u₀.src.Holds bs) : Base32Encoder.StepsOn len bs u₀ u := by
  obtain ⟨hidx, -⟩ := h.bounds hb
  obtain hr | ⟨hstatus, -⟩ := h.progress
  case inr => simp [Regs.Busy, hstatus] at hb
  rcases Nat.lt_or_ge u.bits.toNat 5 with hlt5 | h5
  · rcases hidx.lt_or_eq with hlt | hend
    · exact h.takeByte hlen hb hr hsrc hlt5 (hlen ▸ hlt)
    · by_cases h0 : u.bits.toNat = 0
      · exact h.complete hlen hb hr h0 (hlen ▸ hend)
      · exact h.fill hlen hb hr hlt5 h0 (hlen ▸ hend)
  · exact h.emitHeld hlen hb hr h5

end ToBase32

/-- Settles O25: every step of TOBASE32 gives out the next five bits of the source's stream. -/
theorem toBase32WritesTheTextOfTheSource : Obligations.ToBase32WritesTheTextOfTheSource := by
  intro len bs s hp hb hmax hlen hsrc
  have hready : base32EncoderOps.sourceReady (acceptToBase32 s.params len s.base32Encoder) = true := by
    simpa [← hlen] using hsrc.allWritten
  have hfuel : (acceptToBase32 s.params len s.base32Encoder).stepsLeft ≤ toBase32Length len.toNat + 1 := by
    rw [Base32Encoder.stepsLeft, acceptToBase32_regs, acceptEncode_len]
    split <;> omega
  obtain ⟨u, hu, h, hend⟩ := UnitOps.call_terminates (o := base32EncoderOps) Base32Encoder.stepsLeft hb
    (fun _ => hready) (Base32Encoder.encodes_accept hp hmax hlen) (fun _ h hb => h.turn hlen hb hsrc) hfuel
  obtain hr | ⟨hstatus, htext⟩ := h.progress
  · simp [Regs.Busy, hr.status] at hend
  · exact ⟨u, hu, h.op_eq, h.len_eq, h.outlen_eq, hstatus, h.src_eq, by rw [length_b32Encode, hlen]; rfl, htext,
      h.dst_same⟩

end Sys2Proof.Machine

/-! PROOFS. Decoding Base32 text: what a valid text is, the bytes it decodes to as a stretch of one string of bits, and
what re-encoding, case and the left-over bits make of it (43_base32_decoder.md R180, R181, R191, R193, R195, R196). -/

namespace Sys2Proof.Machine

/-! ## The length check (R181, R196) -/

theorem b32LengthOk_iff {n : Nat} : b32LengthOk n = true ↔ n % 8 ≠ 1 ∧ n % 8 ≠ 3 ∧ n % 8 ≠ 6 := by
  simp only [b32LengthOk, Bool.and_eq_true, bne_iff_ne, and_assoc]

/-- Settles O17: five bits come with a character and eight leave with a byte, and the class decides the check. -/
theorem fromBase32LengthTable : Obligations.FromBase32LengthTable := by
  intro q
  have hok {c : Nat} (hc : (8 * q + c) % 8 = c) (hgood : c ≠ 1 ∧ c ≠ 3 ∧ c ≠ 6) : b32LengthOk (8 * q + c) = true :=
    b32LengthOk_iff.mpr (hc.symm ▸ hgood)
  unfold fromBase32Length
  refine ⟨⟨hok (c := 0) (by omega) (by decide), ?_⟩, b32LengthOk_of_bad_class (by omega),
    ⟨hok (by omega) (by decide), ?_⟩, b32LengthOk_of_bad_class (by omega), ⟨hok (by omega) (by decide), ?_⟩,
    ⟨hok (by omega) (by decide), ?_⟩, b32LengthOk_of_bad_class (by omega), ⟨hok (by omega) (by decide), ?_⟩,
    fun n => ?_⟩ <;> omega

/-! ## The symbol values of a text (R180) -/

/-- The values of the valid characters of a text, in order. -/
def b32Values (cs : List Chr) : List (BitVec 5) := cs.filterMap b32val

theorem b32Valid_iff {cs : List Chr} :
    b32Valid cs = true ↔ b32LengthOk cs.length = true ∧ ∀ c ∈ cs, (b32val c).isSome := by
  simp only [b32Valid, Bool.and_eq_true, List.all_eq_true]

/-- Where every character has a value, the values stand at the places of the characters. -/
theorem getElem?_b32Values {cs : List Chr} (h : ∀ c ∈ cs, (b32val c).isSome) (j : Nat) :
    (b32Values cs)[j]? = cs[j]?.bind b32val := by
  induction cs generalizing j with
  | nil => rfl
  | cons c cs ih =>
    obtain ⟨hc, hcs⟩ := List.forall_mem_cons.mp h
    obtain ⟨v, hv⟩ := Option.isSome_iff_exists.mp hc
    rw [b32Values, List.filterMap_cons_some hv]
    cases j with
    | zero => exact hv.symm
    | succ j => exact ih hcs j

/-- The alphabet gives back the lowercase form of a valid character (30_encoding.md R105, R106). -/
theorem b32Alpha_of_b32val {c : Chr} {v : BitVec 5} (h : b32val c = some v) : b32Alpha v = lowerChr c := by
  have htable : ∀ c < 128, ∀ v, b32val c = some v → b32Alpha v = lowerChr c := by decide
  rcases Nat.lt_or_ge c 128 with hlt | hge
  · exact htable c hlt v h
  · simp [b32val_of_128_le hge] at h

/-! ## The stream of a list of symbol values -/

section SymbolStream
variable {vs : List (BitVec 5)}

/-- Bit `i` of symbol value `j` stands at place `5 j + 4 - i` of the stream. -/
theorem symbolStreamBit_of_getElem? {j i : Nat} {v : BitVec 5} (hv : vs[j]? = some v) (hi : i < 5) :
    symbolStreamBit vs (5 * j + (4 - i)) = v.getLsbD i := by
  have hj : (5 * j + (4 - i)) / 5 = j := by omega
  have hbit : 4 - (5 * j + (4 - i)) % 5 = i := by omega
  simp only [symbolStreamBit, hj, hv, hbit]

/-- The five bits of a symbol value are that value. -/
theorem streamValue_symbol {j : Nat} {v : BitVec 5} (hv : vs[j]? = some v) :
    streamValue (symbolStreamBit vs) (5 * j) 5 = v.toNat := by
  have hsymbol : BitVec.ofNat 5 (streamValue (symbolStreamBit vs) (5 * j) 5) = v := by
    refine BitVec.eq_of_getLsbD_eq fun i hi => ?_
    rw [← symbolStreamBit_of_getElem? hv hi]
    exact getLsbD_ofNat_bitsValue (fun t => symbolStreamBit vs (5 * j + t)) hi
  rw [← hsymbol, BitVec.toNat_ofNat, Nat.mod_eq_of_lt (streamValue_lt ..)]

theorem b32Byte_eq (vs : List (BitVec 5)) (j : Nat) :
    b32Byte vs j = BitVec.ofNat 8 (streamValue (symbolStreamBit vs) (8 * j) 8) := rfl

/-- A bit of the stream is the same in two lists whose values at its place agree but for low bits below it. -/
theorem symbolStreamBit_congr {ws : List (BitVec 5)} {k r : Nat}
    (h : vs[k / 5]?.map (fun v : BitVec 5 => v >>> r) = ws[k / 5]?.map fun v : BitVec 5 => v >>> r)
    (hr : r ≤ 4 - k % 5) : symbolStreamBit vs k = symbolStreamBit ws k := by
  have hbit (us : List (BitVec 5)) : symbolStreamBit us k =
      ((us[k / 5]?.map fun v : BitVec 5 => v >>> r).map fun v => v.getLsbD (4 - k % 5 - r)).getD false := by
    unfold symbolStreamBit
    cases us[k / 5]? <;> simp [Nat.add_sub_cancel' hr]
  rw [hbit vs, hbit ws, h]

/-! ## The bytes of a list of symbol values -/

/-- The first `m` bytes of a list of symbol values, in order. -/
def b32Bytes (vs : List (BitVec 5)) (m : Nat) : List Byte := (List.range m).map (b32Byte vs)

@[simp] theorem length_b32Bytes (vs : List (BitVec 5)) (m : Nat) : (b32Bytes vs m).length = m := by simp [b32Bytes]

theorem getElem?_b32Bytes {m j : Nat} (hj : j < m) : (b32Bytes vs m)[j]? = some (b32Byte vs j) := by
  simp [b32Bytes, hj]

/-- The stream of the bytes that symbols are cut into is the stream of the symbols, and zeros behind. -/
theorem byteStreamBit_b32Bytes (vs : List (BitVec 5)) (m k : Nat) :
    byteStreamBit (b32Bytes vs m) k = (decide (k < 8 * m) && symbolStreamBit vs k) := by
  by_cases hk : k < 8 * m
  · have hbit : 8 * (k / 8) + (7 - (7 - k % 8)) = k := by omega
    simp only [byteStreamBit, getElem?_b32Bytes (show k / 8 < m by omega), hk, decide_true, Bool.true_and]
    rw [getLsbD_b32Byte vs (k / 8) (by omega), hbit]
  · rw [byteStreamBit_of_le (by simpa using hk), decide_eq_false hk, Bool.false_and]

/-- The symbols of the bytes that symbols are cut into are those symbols, with the bits past the last byte cleared. -/
theorem b32Symbol_b32Bytes {j : Nat} {v : BitVec 5} (hv : vs[j]? = some v) (m : Nat) :
    b32Symbol (b32Bytes vs m) j = (v >>> (5 * (j + 1) - 8 * m)) <<< (5 * (j + 1) - 8 * m) := by
  refine BitVec.eq_of_getLsbD_eq fun i hi => ?_
  have hplace : 5 * j + (4 - i) < 8 * m ↔ ¬i < 5 * (j + 1) - 8 * m := by omega
  rw [getLsbD_b32Symbol _ j hi, byteStreamBit_b32Bytes, symbolStreamBit_of_getElem? hv hi, BitVec.getLsbD_shiftLeft,
    BitVec.getLsbD_ushiftRight]
  by_cases hlow : i < 5 * (j + 1) - 8 * m
  · simp [hplace, hlow]
  · simp [hplace, hlow, hi, Nat.add_sub_cancel' (Nat.not_lt.mp hlow)]

end SymbolStream

/-! ## Decoding -/

theorem b32Decode_of_valid {cs : List Chr} (h : b32Valid cs = true) :
    b32Decode cs = some (b32Bytes (b32Values cs) (fromBase32Length cs.length)) := if_pos h

/-- A text decodes when it is valid, to the bytes its symbol values are cut into. -/
theorem b32Decode_eq_some_iff {cs : List Chr} {bs : List Byte} :
    b32Decode cs = some bs ↔ b32Valid cs = true ∧ bs = b32Bytes (b32Values cs) (fromBase32Length cs.length) := by
  cases h : b32Valid cs with
  | true => simp [b32Decode_of_valid h, eq_comm]
  | false => simp [b32Decode, h]

theorem length_of_b32Decode {cs : List Chr} {bs : List Byte} (h : b32Decode cs = some bs) :
    bs.length = fromBase32Length cs.length := by
  obtain ⟨-, rfl⟩ := b32Decode_eq_some_iff.mp h
  exact length_b32Bytes ..

/-! ## Case (R195) -/

/-- Settles O13: the decode table holds one value for both cases of a letter. -/
theorem base32DecodingIgnoresCase : Obligations.Base32DecodingIgnoresCase := by
  intro cs
  have hvalues : b32Values (cs.map upperChr) = b32Values cs := by simp [b32Values, List.filterMap_map]
  have hvalid : b32Valid (cs.map upperChr) = b32Valid cs := by simp [b32Valid, Function.comp_def]
  refine ⟨?_, hvalid⟩
  cases h : b32Valid cs with
  | true => rw [b32Decode_of_valid h, b32Decode_of_valid (hvalid.trans h), hvalues, List.length_map]
  | false => simp only [b32Decode, hvalid, h, Bool.false_eq_true, ↓reduceIte]

/-! ## Re-encoding (R193) -/

theorem getElem?_b32Encode {bs : List Byte} {j : Nat} (hj : j < toBase32Length bs.length) :
    (b32Encode bs)[j]? = some (b32Alpha (b32Symbol bs j)) := by
  simp [b32Encode, hj]

/-- Settles O12: a symbol of the bytes is the symbol of the text with the bits past the last byte cleared, and there are
such bits in the last symbol only. -/
theorem base32ReencodingClearsTheLeftoverBits : Obligations.Base32ReencodingClearsTheLeftoverBits := by
  intro cs bs hbs
  have hlength := length_of_b32Decode hbs
  obtain ⟨hvalid, rfl⟩ := b32Decode_eq_some_iff.mp hbs
  obtain ⟨hok, hall⟩ := b32Valid_iff.mp hvalid
  have htext : toBase32Length (fromBase32Length cs.length) = cs.length := toBase32Length_fromBase32Length hok
  refine ⟨by rw [length_b32Encode, hlength, htext], fun j c v hc hv => ?_⟩
  have hj : j < cs.length := (List.getElem?_eq_some_iff.mp hc).1
  have hvalue : (b32Values cs)[j]? = some v := by rw [getElem?_b32Values hall, hc, Option.bind_some, hv]
  have hchar := getElem?_b32Encode (hlength.symm ▸ htext.symm ▸ hj)
  rw [b32Symbol_b32Bytes hvalue] at hchar
  refine ⟨b32Alpha_of_b32val hv, fun hbefore => ?_, fun hlast => by rw [hchar, hlast, hlength]⟩
  have hwhole : 5 * (j + 1) - 8 * fromBase32Length cs.length = 0 := by
    unfold toBase32Length at htext
    omega
  rw [hchar, hwhole, BitVec.ushiftRight_zero, BitVec.shiftLeft_zero, b32Alpha_of_b32val hv]

/-! ## Left-over bits (R191) -/

/-- The bits of the value of character `j` of a text that belong to a byte, and nothing where no valid character is. -/
def wholeBits (cs : List Chr) (j : Nat) : Option (BitVec 5) :=
  (cs[j]?.bind b32val).map fun v : BitVec 5 => v >>> (5 * (j + 1) - 8 * fromBase32Length cs.length)

theorem b32Valid_iff_wholeBits {cs : List Chr} :
    b32Valid cs = true ↔ b32LengthOk cs.length = true ∧ ∀ j < cs.length, (wholeBits cs j).isSome := by
  rw [b32Valid_iff, List.forall_mem_iff_forall_getElem]
  refine and_congr_right fun _ => forall_congr' fun j => forall_congr' fun hj => ?_
  simp [wholeBits, hj]

section WholeBits
variable {cs ds : List Chr} (hlen : cs.length = ds.length) (hbits : ∀ j, wholeBits cs j = wholeBits ds j)
include hlen hbits

/-- The bits that belong to a byte tell whether a text is valid. -/
theorem b32Valid_congr : b32Valid cs = b32Valid ds := by
  rw [Bool.eq_iff_iff, b32Valid_iff_wholeBits, b32Valid_iff_wholeBits, hlen]
  simp only [hbits]

/-- The bits that belong to a byte tell what a text decodes to. -/
theorem b32Decode_congr : b32Decode cs = b32Decode ds := by
  have hvalid := b32Valid_congr hlen hbits
  cases h : b32Valid cs with
  | false => simp only [b32Decode, ← hvalid, h, Bool.false_eq_true, ↓reduceIte]
  | true =>
    obtain ⟨-, hcs⟩ := b32Valid_iff.mp h
    obtain ⟨-, hds⟩ := b32Valid_iff.mp (hvalid ▸ h)
    rw [b32Decode_of_valid h, b32Decode_of_valid (hvalid ▸ h), ← hlen]
    refine congrArg some (List.map_congr_left fun j hj => ?_)
    rw [b32Byte_eq, b32Byte_eq, streamValue_congr fun t ht => ?_]
    rw [List.mem_range] at hj
    refine symbolStreamBit_congr (r := 5 * ((8 * j + t) / 5 + 1) - 8 * fromBase32Length cs.length) ?_ (by omega)
    rw [getElem?_b32Values hcs, getElem?_b32Values hds]
    simpa only [wholeBits, ← hlen] using hbits ((8 * j + t) / 5)

end WholeBits

/-- Settles O14: neither the check nor a byte depends on the bits that belong to no byte. -/
theorem leftoverBitsAreNotVerified : Obligations.LeftoverBitsAreNotVerified := by
  intro cs ds hlen hbefore hlast
  have hbits (j : Nat) : wholeBits cs j = wholeBits ds j := by
    rcases Nat.lt_trichotomy (j + 1) cs.length with hlt | heq | hgt
    · simp only [wholeBits, hbefore j hlt, hlen]
    · have hleft : 5 * (j + 1) - 8 * fromBase32Length cs.length = 5 * cs.length % 8 := by
        unfold fromBase32Length
        omega
      simpa only [wholeBits, ← hlen, hleft] using hlast j heq
    · simp [wholeBits, List.getElem?_eq_none (show cs.length ≤ j by omega),
        List.getElem?_eq_none (show ds.length ≤ j by omega)]
  exact ⟨b32Decode_congr hlen hbits, b32Valid_congr hlen hbits⟩

end Sys2Proof.Machine

/-! PROOFS. One step of the EMIT pass of FROMBASE32, in numbers (43_base32_decoder.md R189, 10_state.md R36). -/

namespace Sys2Proof.Machine

/-- A symbol value taken in stands below the bits held. -/
theorem shiftLeft_or_symbol (buf : Nat) (v : BitVec 5) : (buf <<< 5) ||| v.toNat = buf * 32 + v.toNat := by
  rw [← Nat.shiftLeft_add_eq_or_of_lt v.isLt, Nat.shiftLeft_eq]

section TakeSymbolInNumbers
variable {v : BitVec 5} {u : Base32Decoder} {pool n : Nat} (hpool : u.buf.toNat * 32 + v.toNat = pool)
  (hn : u.bits.toNat + 5 = n)
include hpool hn

/-- With eight bits or more in the pool, the top eight are written as a byte and the rest are kept: the shift divides,
and the mask takes the remainder. -/
theorem base32TakeSymbol_of_full (h8 : 8 ≤ n) : base32TakeSymbol v u =
    { u with
      dst := u.dst.write u.regs.odx.toNat (BitVec.ofNat 8 (pool / 2 ^ (n - 8)))
      buf := BitVec.ofNat 12 (pool % 2 ^ (n - 8))
      bits := BitVec.ofNat 4 (n - 8)
      regs := { u.regs with idx := u.regs.idx + 1, odx := u.regs.odx + 1 } } := by
  have hbyte : BitVec.ofNat 8 ((pool >>> (n - 8)) &&& 0xFF) = BitVec.ofNat 8 (pool / 2 ^ (n - 8)) := by
    apply BitVec.eq_of_toNat_eq
    rw [BitVec.toNat_ofNat, BitVec.toNat_ofNat, Nat.shiftRight_eq_div_pow, Nat.and_two_pow_sub_one_eq_mod _ 8,
      Nat.mod_mod]
  simp only [base32TakeSymbol, shiftLeft_or_symbol, hpool, hn, h8, ↓reduceIte, hbyte, Nat.one_shiftLeft,
    Nat.and_two_pow_sub_one_eq_mod]

/-- With fewer than eight bits in the pool, all are kept. -/
theorem base32TakeSymbol_of_held (h8 : n < 8) (hfit : pool < 2 ^ n) : base32TakeSymbol v u =
    { u with
      buf := BitVec.ofNat 12 pool
      bits := BitVec.ofNat 4 n
      regs := { u.regs with idx := u.regs.idx + 1 } } := by
  simp only [base32TakeSymbol, shiftLeft_or_symbol, hpool, hn, Nat.not_le.mpr h8, ↓reduceIte, Nat.one_shiftLeft,
    Nat.and_two_pow_sub_one_eq_mod, Nat.mod_eq_of_lt hfit]

end TakeSymbolInNumbers

/-- Settles O45: the step takes the character's value in, and what a sound state holds leaves room for its five bits. -/
theorem base32DecoderEmitTakesOneCharacter : Obligations.Base32DecoderEmitTakesOneCharacter := by
  intro s c v u pool n hs hb hphase hlt hread hv
  obtain ⟨-, hbits, hbuf, -⟩ := hs.base32Decoder.emit hb hphase
  have hfit : pool < 2 ^ n := mul_two_pow_add_lt hbuf v.isLt
  have hturn := UnitOps.takeTurn_of_turn (o := base32DecoderOps) hb (base32DecoderTurn_of_emit hphase hlt hread hv)
  refine ⟨hfit, Nat.add_le_add_right hbits 5, fun h8 => ?_, fun h8 => ?_⟩
  · rw [← base32TakeSymbol_of_full rfl rfl h8]
    exact hturn
  · rw [← base32TakeSymbol_of_held rfl rfl h8 hfit]
    exact hturn

end Sys2Proof.Machine

/-! PROOFS. The whole of FROMBASE32 and ISBASE32, as one invariant of their steps: in the EMIT pass BUF holds the next
BITS bits of the source's stream of symbol values, and DST the bytes before them (43_base32_decoder.md R183 to R190). -/

namespace Sys2Proof.Machine

/-! ## How far a command is -/

/-- base32_decoder in the SCAN pass over the characters `cs`, begun with `dst₀` in DST: the length is accepted, the
characters before IDX are valid, and nothing is held or written (R185, R186). -/
structure Base32Decoder.Scanning (cs : List Chr) (dst₀ : Buffer Byte) (u : Base32Decoder) : Prop where
  status : u.regs.status = ⟨.busy, .none, false⟩
  phase : u.phase = .scan
  length : b32LengthOk cs.length = true
  idx_le : u.regs.idx.toNat ≤ cs.length
  valid : ∀ c ∈ cs.take u.regs.idx.toNat, (b32val c).isSome
  empty : u.buf = 0
  dst : u.dst = dst₀

/-- base32_decoder in the EMIT pass over the characters `cs`, which decode to `bs`: BUF holds the BITS bits of their
stream that follow those given out, and the bytes before ODX are written (R189). -/
structure Base32Decoder.Emitting (cs : List Chr) (bs : List Byte) (u : Base32Decoder) : Prop where
  bytes : b32Decode cs = some bs
  status : u.regs.status = ⟨.busy, .none, false⟩
  phase : u.phase = .emit
  idx_le : u.regs.idx.toNat ≤ cs.length
  held : u.buf.toNat = streamValue (symbolStreamBit (b32Values cs)) (8 * u.regs.odx.toNat) u.bits.toNat
  written : u.dst.Holds (bs.take u.regs.odx.toNat)

/-- Where base32_decoder stands in operation `op` on the characters `cs`, begun with `dst₀` in DST: in one of the two
passes, or at an end, of a validation (R184), of a decode of invalid characters (60_exceptions.md R233), or of a decode
with all its bytes written (R190). -/
inductive Base32Decoder.Progress (op : OpCode) (cs : List Chr) (dst₀ : Buffer Byte) (u : Base32Decoder) : Prop where
  | scanning (scan : u.Scanning cs dst₀)
  | emitting (bs : List Byte) (emit : u.Emitting cs bs)
  | checked (check : op.getLsbD 0 = true) (status : u.regs.status = ⟨.done, .none, b32Valid cs⟩) (dst : u.dst = dst₀)
  | rejected (decode : op.getLsbD 0 = false) (invalid : b32Valid cs = false)
      (status : u.regs.status = ⟨.done, .invalidCharacter, false⟩) (outlen : u.regs.outlen = 0) (dst : u.dst = dst₀)
  | decoded (decode : op.getLsbD 0 = false) (bs : List Byte) (bytes : b32Decode cs = some bs)
      (status : u.regs.status = ⟨.done, .none, false⟩) (written : u.dst.Holds bs)

/-- base32_decoder in the middle or at the end of operation `op` on the `len` characters `cs`, begun with the buffers of
`u₀`. -/
structure Base32Decoder.RunsOn (op : OpCode) (len : LenWord) (cs : List Chr) (u₀ u : Base32Decoder) : Prop extends
    Base32Decoder.Runs op len (fromBase32Length len.toNat) u₀ u where
  outlen_check : op.getLsbD 0 = true → u.regs.outlen = 0
  outlen_decode : op.getLsbD 0 = false → u.regs.status.err = .none → u.regs.outlen.toNat = fromBase32Length len.toNat
  progress : u.Progress op cs u₀.dst

/-! ## How many steps there are to take (44_command_protocol.md R211) -/

/-- How many steps FROMBASE32 or ISBASE32 has still to take at most: one for each character in each pass, and one for
the end of each. -/
def Base32Decoder.stepsLeft (u : Base32Decoder) : Nat :=
  if u.regs.Busy then
    u.regs.len.toNat - u.regs.idx.toNat + 1 +
      if u.phase = .emit ∨ u.regs.op.getLsbD 0 = true then 0 else u.regs.len.toNat + 1
  else 0

section StepsLeft
variable {u : Base32Decoder}

theorem Base32Decoder.stepsLeft_of_busy (hb : u.regs.Busy) : u.stepsLeft =
    u.regs.len.toNat - u.regs.idx.toNat + 1 +
      if u.phase = .emit ∨ u.regs.op.getLsbD 0 = true then 0 else u.regs.len.toNat + 1 := if_pos hb

theorem Base32Decoder.stepsLeft_of_not_busy (hb : ¬u.regs.Busy) : u.stepsLeft = 0 := if_neg hb

/-- A step that ends the command leaves none. -/
theorem Base32Decoder.stepsLeft_lt_of_ended {v : Base32Decoder} (hb : u.regs.Busy) (hend : ¬v.regs.Busy) :
    v.stepsLeft < u.stepsLeft := by
  rw [stepsLeft_of_not_busy hend, stepsLeft_of_busy hb]
  omega

/-- A step that moves IDX on by one, in the same pass, leaves one fewer. -/
theorem Base32Decoder.stepsLeft_lt_of_next {v : Base32Decoder} (hb : u.regs.Busy) (hlt : u.regs.idx < u.regs.len)
    (hstatus : v.regs.status = u.regs.status) (hop : v.regs.op = u.regs.op) (hlen : v.regs.len = u.regs.len)
    (hphase : v.phase = u.phase) (hidx : v.regs.idx = u.regs.idx + 1) : v.stepsLeft < u.stepsLeft := by
  have hidx₁ : (u.regs.idx + 1).toNat = u.regs.idx.toNat + 1 := by bv_omega
  rw [BitVec.lt_def] at hlt
  rw [stepsLeft_of_busy ((congrArg Status.state hstatus).trans hb), stepsLeft_of_busy hb, hop, hlen, hphase, hidx,
    hidx₁]
  omega

theorem Base32Decoder.stepsLeft_le (u : Base32Decoder) : u.stepsLeft ≤
    u.regs.len.toNat + 1 + if u.regs.op.getLsbD 0 = true then 0 else u.regs.len.toNat + 1 := by
  by_cases hb : u.regs.Busy
  · rw [stepsLeft_of_busy hb]
    by_cases hv : u.regs.op.getLsbD 0 = true
    · rw [if_pos (.inr hv), if_pos hv]
      omega
    · rw [if_neg hv]
      split <;> omega
  · rw [stepsLeft_of_not_busy hb]
    exact Nat.zero_le _

end StepsLeft

/-! ## Acceptance (R185) -/

section Command
variable {op : OpCode} {len : LenWord} {cs : List Chr} {u₀ u : Base32Decoder}

/-- FROMBASE32 of an accepted length and ISBASE32 of any length start so; a command of no characters, and ISBASE32 of a
length that is not accepted, ends at once. -/
theorem Base32Decoder.runsOn_accept (hgood : op.getLsbD 0 = false → b32LengthOk len.toNat = true)
    (hlen : cs.length = len.toNat) : Base32Decoder.RunsOn op len cs u (acceptBase32Decoder op len u) := by
  have hruns := Base32Decoder.runs_accept op len (fromBase32Length len.toNat) u
  have hfit : fromBase32Length len.toNat < 2 ^ 32 := (fromBase32Length_le _).trans_lt len.isLt
  rcases acceptDecode_cases op b32LengthOk fromBase32Length len u.regs with
    ⟨hbad, hv, e⟩ | ⟨hbad, hv, -⟩ | ⟨-, h0, e⟩ | ⟨hok, -, e⟩
  · have hinvalid : b32Valid cs = false := by rw [b32Valid, hlen, hbad, Bool.false_and]
    exact ⟨hruns, by simp [e], by simp [hv], .checked hv (by simp [e, hinvalid]) rfl⟩
  · exact absurd (hgood hv) (by simp [hbad])
  · obtain rfl : cs = [] := List.eq_nil_of_length_eq_zero (by simp [hlen, h0])
    refine ⟨hruns, by simp [e], fun _ _ => by rw [acceptBase32Decoder_regs, e, h0]; rfl, ?_⟩
    cases hv : op.getLsbD 0 with
    | true => exact .checked hv (by simp only [acceptBase32Decoder_regs, e, endAtOnce_status, hv]; rfl) rfl
    | false =>
      exact .decoded hv [] rfl (by simp only [acceptBase32Decoder_regs, e, endAtOnce_status, hv]) (Buffer.holds_nil _)
  · have hb : (acceptDecode op b32LengthOk fromBase32Length len u.regs).Busy := by rw [e]; rfl
    refine ⟨hruns, fun hv => ?_, fun hv _ => ?_, .scanning ?_⟩
    · rw [acceptBase32Decoder_regs, e, start_outlen, if_pos hv]
      rfl
    · rw [acceptBase32Decoder_regs, e, start_outlen, hv, if_neg Bool.false_ne_true, BitVec.toNat_ofNat,
        Nat.mod_eq_of_lt hfit]
    · exact ⟨by simp [e], if_pos hb, hlen ▸ hok, by simp [e], by simp [e], if_pos hb, rfl⟩

/-! ## The steps (R186 to R190) -/

/-- The next step of base32_decoder goes on, keeps what is known of the command, and leaves fewer steps to take. -/
def Base32Decoder.StepsOn (op : OpCode) (len : LenWord) (cs : List Chr) (u₀ u : Base32Decoder) : Prop :=
  ∃ v, base32DecoderTurn u = .next v ∧ Base32Decoder.RunsOn op len cs u₀ v ∧ v.stepsLeft < u.stepsLeft

/-- The next symbol value makes a stretch of the stream that ends at it five bits longer. -/
theorem streamValue_take_symbol {vs : List (BitVec 5)} {k n i : Nat} {v : BitVec 5} (hend : k + n = 5 * i)
    (hv : vs[i]? = some v) : streamValue (symbolStreamBit vs) k n * 32 + v.toNat =
      streamValue (symbolStreamBit vs) k (n + 5) := by
  rw [streamValue_add, hend, streamValue_symbol hv]
  rfl

/-- The registers BUF and BITS have room for a number of up to twelve bits and how many they are (10_state.md R36). -/
theorem accumulator_toNat {x n : Nat} (hx : x < 2 ^ n) (hn : n ≤ 12) :
    (BitVec.ofNat 12 x).toNat = x ∧ (BitVec.ofNat 4 n).toNat = n := by
  rw [BitVec.toNat_ofNat, BitVec.toNat_ofNat]
  exact ⟨Nat.mod_eq_of_lt (hx.trans_le (Nat.pow_le_pow_right (by decide) hn)), Nat.mod_eq_of_lt (by omega)⟩

variable (hlen : cs.length = len.toNat) (h : Base32Decoder.RunsOn op len cs u₀ u) (hb : u.regs.Busy)
include hlen h

/-- Where IDX is within the source, it is below LEN. -/
theorem Base32Decoder.RunsOn.idx_lt_len (hlt : u.regs.idx.toNat < cs.length) : u.regs.idx < u.regs.len := by
  rwa [h.len_eq, BitVec.lt_def, ← hlen]

/-- Where IDX is at the end of the source, it is LEN. -/
theorem Base32Decoder.RunsOn.idx_eq_len (hend : u.regs.idx.toNat = cs.length) : u.regs.idx = u.regs.len :=
  BitVec.eq_of_toNat_eq (by rw [hend, hlen, h.len_eq])

omit hlen in
/-- Where IDX is within the source, the unit reads the character there. -/
theorem Base32Decoder.RunsOn.read (hsrc : u₀.src.Holds cs) (hlt : u.regs.idx.toNat < cs.length) :
    u.src.read u.regs.idx.toNat = some cs[u.regs.idx.toNat] :=
  (h.src_eq ▸ hsrc _ hlt).trans (List.getElem?_eq_getElem hlt)

include hb

/-- The step of the SCAN pass that checks a character (R186). -/
theorem Base32Decoder.RunsOn.scanOne (hsrc : u₀.src.Holds cs) (hs : u.Scanning cs u₀.dst)
    (hlt : u.regs.idx.toNat < cs.length) : Base32Decoder.StepsOn op len cs u₀ u := by
  have hlt' := h.idx_lt_len hlen hlt
  have hread := h.read hsrc hlt
  by_cases hc : b32val cs[u.regs.idx.toNat] = none
  · have hinvalid : b32Valid cs = false := by
      rw [Bool.eq_false_iff, Ne, b32Valid_iff]
      exact fun ⟨_, hall⟩ => by simpa [hc] using hall _ (List.getElem_mem hlt)
    cases hv : op.getLsbD 0 with
    | true =>
      have hturn := base32DecoderTurn_of_invalid_check hs.phase hlt' hread hc (by rwa [h.op_eq])
      exact ⟨_, hturn, ⟨runs_turn (fun _ => rfl) h.toRuns hb hturn, h.outlen_check, by simp [hv],
        .checked hv (by rw [hinvalid]) hs.dst⟩, stepsLeft_lt_of_ended hb nofun⟩
    | false =>
      have hturn := base32DecoderTurn_of_invalid_decode hs.phase hlt' hread hc (by rwa [h.op_eq])
      exact ⟨_, hturn, ⟨runs_turn (fun _ => rfl) h.toRuns hb hturn, fun _ => rfl, nofun,
        .rejected hv hinvalid rfl rfl hs.dst⟩, stepsLeft_lt_of_ended hb nofun⟩
  · have hturn := base32DecoderTurn_of_valid hs.phase hlt' hread hc
    have hidx₁ : (u.regs.idx + 1).toNat = u.regs.idx.toNat + 1 := by bv_omega
    refine ⟨_, hturn, ⟨runs_turn (fun _ => rfl) h.toRuns hb hturn, h.outlen_check, h.outlen_decode,
      .scanning { hs with idx_le := ?_, valid := ?_ }⟩, stepsLeft_lt_of_next hb hlt' rfl rfl rfl rfl rfl⟩
    · simp only [hidx₁]
      exact hlt
    · simp only [hidx₁, List.take_add_one, List.getElem?_eq_getElem hlt, Option.toList_some, List.forall_mem_append,
        List.forall_mem_singleton]
      exact ⟨hs.valid, Option.isSome_iff_ne_none.mpr hc⟩

/-- The step that ends the SCAN pass (R187). -/
theorem Base32Decoder.RunsOn.scanEnd (hs : u.Scanning cs u₀.dst) (hend : u.regs.idx.toNat = cs.length) :
    Base32Decoder.StepsOn op len cs u₀ u := by
  have hend' := h.idx_eq_len hlen hend
  have hall : b32Valid cs = true := by
    have hvalid := hs.valid
    rw [hend, List.take_length] at hvalid
    exact b32Valid_iff.mpr ⟨hs.length, hvalid⟩
  cases hv : op.getLsbD 0 with
  | true =>
    have hturn := base32DecoderTurn_of_scan_end_check hs.phase hend' (by rwa [h.op_eq])
    exact ⟨_, hturn, ⟨runs_turn (fun _ => rfl) h.toRuns hb hturn, h.outlen_check, by simp [hv],
      .checked hv (by rw [hall]) hs.dst⟩, stepsLeft_lt_of_ended hb nofun⟩
  | false =>
    have hturn := base32DecoderTurn_of_scan_end_decode hs.phase hend' (by rwa [h.op_eq])
    obtain ⟨hodx, hbits⟩ := h.scan hb hs.phase
    refine ⟨_, hturn, ⟨runs_turn (fun _ => rfl) h.toRuns hb hturn, h.outlen_check, h.outlen_decode,
      .emitting _ ⟨b32Decode_of_valid hall, hs.status, rfl, Nat.zero_le _, ?_, ?_⟩⟩, ?_⟩
    · simp only [hs.empty, hbits]
      rfl
    · simp only [hodx]
      exact Buffer.holds_nil _
    · rw [stepsLeft_of_busy hb, hs.phase, h.op_eq, hv, if_neg (by decide)]
      refine Eq.trans_lt (stepsLeft_of_busy hb) ?_
      simp

/-- In the EMIT pass the unit takes in the symbol value at IDX, the next five bits of the stream. -/
theorem Base32Decoder.RunsOn.emitTurn (hsrc : u₀.src.Holds cs) {bs : List Byte} (he : u.Emitting cs bs)
    (hlt : u.regs.idx.toNat < cs.length) : ∃ v, base32DecoderTurn u = .next (base32TakeSymbol v u) ∧
      u.buf.toNat * 32 + v.toNat =
        streamValue (symbolStreamBit (b32Values cs)) (8 * u.regs.odx.toNat) (u.bits.toNat + 5) := by
  have hlt' := h.idx_lt_len hlen hlt
  have hread := h.read hsrc hlt
  obtain ⟨-, -, hplace⟩ := h.emit hb he.phase
  obtain ⟨hvalid, -⟩ := b32Decode_eq_some_iff.mp he.bytes
  obtain ⟨-, hall⟩ := b32Valid_iff.mp hvalid
  obtain ⟨v, hv⟩ := Option.isSome_iff_exists.mp (hall _ (List.getElem_mem hlt))
  have hvalue : (b32Values cs)[u.regs.idx.toNat]? = some v := by
    rw [getElem?_b32Values hall, List.getElem?_eq_getElem hlt, Option.bind_some, hv]
  exact ⟨v, base32DecoderTurn_of_emit he.phase hlt' hread hv, he.held ▸ streamValue_take_symbol hplace hvalue⟩

section TakeSymbol
variable {bs : List Byte} {v : BitVec 5} (he : u.Emitting cs bs) (hlt : u.regs.idx.toNat < cs.length)
  (hturn : base32DecoderTurn u = .next (base32TakeSymbol v u))
  (hpool : u.buf.toNat * 32 + v.toNat =
    streamValue (symbolStreamBit (b32Values cs)) (8 * u.regs.odx.toNat) (u.bits.toNat + 5))
include he hlt hturn hpool

/-- The step of the EMIT pass after which fewer than eight bits are held, and no byte is written (R189). -/
theorem Base32Decoder.RunsOn.holdBits (h8 : u.bits.toNat + 5 < 8) : Base32Decoder.StepsOn op len cs u₀ u := by
  have hruns := runs_turn (fun _ => rfl) h.toRuns hb hturn
  have hlt' := h.idx_lt_len hlen hlt
  have hidx₁ : (u.regs.idx + 1).toNat = u.regs.idx.toNat + 1 := by bv_omega
  have hfit := streamValue_lt (symbolStreamBit (b32Values cs)) (8 * u.regs.odx.toNat) (u.bits.toNat + 5)
  obtain ⟨hbuf, hbits⟩ := accumulator_toNat hfit (by omega)
  rw [base32TakeSymbol_of_held hpool rfl h8 hfit] at hturn hruns
  exact ⟨_, hturn, ⟨hruns, h.outlen_check, h.outlen_decode,
    .emitting bs { he with idx_le := hidx₁.symm ▸ hlt, held := by rw [hbuf, hbits] }⟩,
    stepsLeft_lt_of_next hb hlt' rfl rfl rfl rfl rfl⟩

/-- The step of the EMIT pass that gives out the next eight bits of the stream, a byte of the text (R189). -/
theorem Base32Decoder.RunsOn.writeByte (h8 : 8 ≤ u.bits.toNat + 5) : Base32Decoder.StepsOn op len cs u₀ u := by
  obtain ⟨-, hbits, hplace⟩ := h.emit hb he.phase
  obtain ⟨-, hbs⟩ := b32Decode_eq_some_iff.mp he.bytes
  have hruns := runs_turn (fun _ => rfl) h.toRuns hb hturn
  have hlength := length_of_b32Decode he.bytes
  have hodx : u.regs.odx.toNat < fromBase32Length cs.length := by
    unfold fromBase32Length
    omega
  have hget : bs[u.regs.odx.toNat]? = some (b32Byte (b32Values cs) u.regs.odx.toNat) := by
    rw [hbs, getElem?_b32Bytes hodx]
  rw [← hlength] at hodx
  have hlt' := h.idx_lt_len hlen hlt
  have hidx₁ : (u.regs.idx + 1).toNat = u.regs.idx.toNat + 1 := by bv_omega
  have hodx₁ : (u.regs.odx + 1).toNat = u.regs.odx.toNat + 1 := by bv_omega
  obtain ⟨m, hm⟩ : ∃ m, u.bits.toNat + 5 = 8 + m := ⟨u.bits.toNat + 5 - 8, by omega⟩
  have hrest := streamValue_lt (symbolStreamBit (b32Values cs)) (8 * u.regs.odx.toNat + 8) m
  obtain ⟨hbuf, hbits'⟩ := accumulator_toNat hrest (by omega)
  rw [hm] at hpool
  rw [base32TakeSymbol_of_full hpool hm (by omega), Nat.add_sub_cancel_left, streamValue_div, ← b32Byte_eq,
    streamValue_mod] at hturn hruns
  refine ⟨_, hturn, ⟨hruns, h.outlen_check, h.outlen_decode,
    .emitting bs { he with idx_le := hidx₁.symm ▸ hlt, held := ?_, written := ?_ }⟩,
    stepsLeft_lt_of_next hb hlt' rfl rfl rfl rfl rfl⟩
  · rw [hbuf, hbits', hodx₁, Nat.mul_succ]
  · have hnext := he.written.write (b32Byte (b32Values cs) u.regs.odx.toNat)
    rw [List.length_take_of_le hodx.le] at hnext
    rw [hodx₁, List.take_add_one, hget]
    exact hnext

end TakeSymbol

/-- The step that ends the EMIT pass, fewer than eight bits left over (R190). -/
theorem Base32Decoder.RunsOn.complete {bs : List Byte} (he : u.Emitting cs bs)
    (hend : u.regs.idx.toNat = cs.length) : Base32Decoder.StepsOn op len cs u₀ u := by
  obtain ⟨hv, hbits, hplace⟩ := h.emit hb he.phase
  have hturn := base32DecoderTurn_of_emit_end he.phase (h.idx_eq_len hlen hend)
  have hwritten := he.written
  have hlength := length_of_b32Decode he.bytes
  unfold fromBase32Length at hlength
  rw [List.take_of_length_le (by omega)] at hwritten
  refine ⟨_, hturn, ⟨runs_turn (fun _ => rfl) h.toRuns hb hturn, h.outlen_check, fun hv _ => ?_,
    .decoded hv bs he.bytes ?_ hwritten⟩, stepsLeft_lt_of_ended hb (not_busy_complete _)⟩
  · exact h.outlen_decode hv (by rw [he.status])
  · rw [complete_status, he.status]

/-- Every step goes on, keeps this, and leaves fewer steps to take. -/
theorem Base32Decoder.RunsOn.turn (hsrc : u₀.src.Holds cs) : Base32Decoder.StepsOn op len cs u₀ u := by
  cases h.progress with
  | scanning hs =>
    rcases hs.idx_le.lt_or_eq with hlt | hend
    · exact h.scanOne hlen hb hsrc hs hlt
    · exact h.scanEnd hlen hb hs hend
  | emitting bs he =>
    rcases he.idx_le.lt_or_eq with hlt | hend
    · obtain ⟨v, hturn, hpool⟩ := h.emitTurn hlen hb hsrc he hlt
      rcases Nat.lt_or_ge (u.bits.toNat + 5) 8 with h8 | h8
      · exact h.holdBits hlen hb he hlt hturn hpool h8
      · exact h.writeByte hlen hb he hlt hturn hpool h8
    · exact h.complete hlen hb he hend
  | checked _ hstatus => simp [Regs.Busy, hstatus] at hb
  | rejected _ _ hstatus => simp [Regs.Busy, hstatus] at hb
  | decoded _ _ _ hstatus => simp [Regs.Busy, hstatus] at hb

end Command

/-! ## The whole command (R183, R184) -/

/-- FROMBASE32 of an accepted length, and ISBASE32 of any length, on characters that are there, go on and end so. -/
theorem base32DecoderCall_ends {op : OpCode} {len : LenWord} {cs : List Chr} {fuel : Nat} {s : State}
    (hb : ¬s.base32Decoder.regs.Busy) (hgood : op.getLsbD 0 = false → b32LengthOk len.toNat = true)
    (hlen : cs.length = len.toNat) (hsrc : s.base32Decoder.src.Holds cs)
    (hfuel : (len.toNat + 1 + if op.getLsbD 0 = true then 0 else len.toNat + 1) ≤ fuel) :
    ∃ u, base32DecoderOps.call fuel (acceptBase32Decoder op len) s = .next { s with base32Decoder := u } ∧
      Base32Decoder.RunsOn op len cs s.base32Decoder u ∧ ¬u.regs.Busy := by
  have hready : base32DecoderOps.sourceReady (acceptBase32Decoder op len s.base32Decoder) = true := by
    simpa [← hlen] using hsrc.allWritten
  have hsteps : (acceptBase32Decoder op len s.base32Decoder).stepsLeft ≤ fuel := by
    refine (Base32Decoder.stepsLeft_le _).trans ?_
    rwa [acceptBase32Decoder_regs, acceptDecode_op, acceptDecode_len]
  exact UnitOps.call_terminates (o := base32DecoderOps) Base32Decoder.stepsLeft hb (fun _ => hready)
    (Base32Decoder.runsOn_accept hgood hlen) (fun _ h hb => h.turn hlen hb hsrc) hsteps

/-- Settles O26: a decode of valid characters ends with their bytes written, cut from the stream of their values. -/
theorem fromBase32WritesTheBytesOfTheSource : Obligations.FromBase32WritesTheBytesOfTheSource := by
  intro len cs bs s hb hlen hsrc hbs
  obtain ⟨hvalid, -⟩ := b32Decode_eq_some_iff.mp hbs
  obtain ⟨hok, -⟩ := b32Valid_iff.mp hvalid
  have hfuel : len.toNat + 1 + (len.toNat + 1) ≤ 2 * len.toNat + 2 := by omega
  obtain ⟨u, hu, h, hend⟩ := base32DecoderCall_ends (op := 0b110#3) hb (fun _ => hlen ▸ hok) hlen hsrc hfuel
  cases h.progress with
  | scanning hs => simp [Regs.Busy, hs.status] at hend
  | emitting _ he => simp [Regs.Busy, he.status] at hend
  | checked hv => exact absurd hv nofun
  | rejected _ hinvalid => simp [hvalid] at hinvalid
  | decoded hv bs' hbs' hstatus hwritten =>
    obtain rfl : bs' = bs := Option.some.inj (hbs'.symm.trans hbs)
    exact ⟨u, hu, h.op_eq, h.len_eq, h.outlen_decode hv (by rw [hstatus]), hstatus, h.src_eq,
      hlen ▸ length_of_b32Decode hbs, hwritten, h.dst_same⟩

/-- Settles O28: a validation ends with its answer, at acceptance, at an invalid character or at the end of the source,
and writes nothing. -/
theorem isBase32AnswersForTheSource : Obligations.IsBase32AnswersForTheSource := by
  intro len cs s hb hlen hsrc
  obtain ⟨u, hu, h, hend⟩ := base32DecoderCall_ends (op := 0b111#3) hb nofun hlen hsrc le_rfl
  cases h.progress with
  | scanning hs => simp [Regs.Busy, hs.status] at hend
  | emitting _ he => simp [Regs.Busy, he.status] at hend
  | checked hv hstatus hdst => exact ⟨u, hu, h.op_eq, h.len_eq, h.outlen_check hv, hstatus, h.src_eq, hdst⟩
  | rejected hv => exact absurd hv nofun
  | decoded hv => exact absurd hv nofun

end Sys2Proof.Machine

/-! PROOFS. What a BUSY unit needs for its steps to go on to the end of its command, and how many of them there are
(44_command_protocol.md R206, R207, R211). -/

namespace Sys2Proof.Machine

/-! ## Steps to an end -/

section Advances
variable {α : Type}

/-- The unit has its step, which leaves it in `R` or ended and makes the measure `m` fall. -/
def UnitOps.GoesOn (o : UnitOps α) (R : α → Prop) (m : α → Nat) (u : α) : Prop :=
  ∃ v, o.turn u = .next v ∧ ((o.regs v).Busy → R v) ∧ m v < m u

/-- The same, where the measure falls by exactly one. -/
def UnitOps.GoesOnce (o : UnitOps α) (R : α → Prop) (m : α → Nat) (u : α) : Prop :=
  ∃ v, o.turn u = .next v ∧ ((o.regs v).Busy → R v) ∧ m u = m v + 1

/-- A BUSY unit in `R` goes on, to the end of its command, within as many steps as the measure `m` says. -/
def UnitOps.Advances (o : UnitOps α) (R : α → Prop) (m : α → Nat) : Prop :=
  ∀ u, R u → (o.regs u).Busy → o.GoesOn R m u

/-- A BUSY unit in `R` goes on, to the end of its command, in exactly as many steps as the measure `m` says. -/
structure UnitOps.Counts (o : UnitOps α) (R : α → Prop) (m : α → Nat) : Prop where
  turn {u : α} : R u → (o.regs u).Busy → o.GoesOnce R m u
  ended {u : α} : ¬(o.regs u).Busy → m u = 0

theorem UnitOps.Counts.advances {o : UnitOps α} {R : α → Prop} {m : α → Nat} (h : o.Counts R m) : o.Advances R m := by
  intro u hu hb
  obtain ⟨v, hv, hR, hm⟩ := h.turn hu hb
  exact ⟨v, hv, hR, by omega⟩

end Advances

/-! ## hex_encoder -/

/-- All that TOHEX needs of hex_encoder to go on. -/
structure HexEncoder.CanRun (u : HexEncoder) : Prop where
  idx_le : u.regs.idx.toNat ≤ u.regs.len.toNat
  src_written : u.src.WrittenBelow u.regs.len.toNat

theorem HexEncoder.Inv.canRun {p : Params} {u : HexEncoder} (h : u.Inv p) (hb : u.regs.Busy) : u.CanRun :=
  ⟨h.regs.idx_le hb, h.src_written hb⟩

theorem HexEncoder.canRun_accept {p : Params} {len : LenWord} {u : HexEncoder} (hb : (acceptToHex p len u).regs.Busy)
    (hready : hexEncoderOps.sourceReady (acceptToHex p len u) = true) : (acceptToHex p len u).CanRun where
  idx_le := by
    obtain ⟨-, hstart⟩ := acceptEncode_of_busy hb
    simp [hstart]
  src_written := (Buffer.allWritten_iff _ _).mp hready

/-- A step for each byte, and one to complete (R133, R134). -/
theorem hexEncoderOps_counts : hexEncoderOps.Counts HexEncoder.CanRun HexEncoder.stepsLeft where
  ended := HexEncoder.stepsLeft_of_not_busy
  turn {u} h hb := by
    rcases h.idx_le.lt_or_eq with hlt | hend
    · obtain ⟨b, hread⟩ := Option.isSome_iff_exists.mp (h.src_written _ hlt)
      have hidx₁ : (u.regs.idx + 1).toNat = u.regs.idx.toNat + 1 := by bv_omega
      refine ⟨_, hexEncoderTurn_of_lt hlt hread, fun _ => ⟨hidx₁.trans_le hlt, h.src_written⟩, ?_⟩
      rw [HexEncoder.stepsLeft_of_busy hb, HexEncoder.stepsLeft_of_busy (u := hexEncodeByte b u) hb,
        hexEncodeByte_idx, hexEncodeByte_len, hidx₁]
      omega
    · refine ⟨_, hexEncoderTurn_of_end (BitVec.eq_of_toNat_eq hend), fun hb' => absurd hb' (not_busy_complete _), ?_⟩
      rw [HexEncoder.stepsLeft_of_busy hb, HexEncoder.stepsLeft_of_not_busy (not_busy_complete _), hend]
      omega

/-! ## hex_decoder -/

/-- All that FROMHEX and ISHEX need of hex_decoder to go on: the characters checked so far are valid, and in the EMIT
pass all of them are, and IDX stands at a pair. -/
structure HexDecoder.CanRun (u : HexDecoder) : Prop where
  idx_le : u.regs.idx.toNat ≤ u.regs.len.toNat
  src_written : u.src.WrittenBelow u.regs.len.toNat
  even : u.regs.len.toNat % 2 = 0
  scan : u.phase = .scan → u.src.ValidBelow hexval u.regs.idx.toNat
  emit : u.phase = .emit → u.regs.idx.toNat % 2 = 0 ∧ u.src.ValidBelow hexval u.regs.len.toNat

theorem HexDecoder.Inv.canRun {p : Params} {u : HexDecoder} (h : u.Inv p) (hb : u.regs.Busy) : u.CanRun where
  idx_le := h.regs.idx_le hb
  src_written := h.src_written hb
  even := by
    obtain ⟨-, hok⟩ := h.regs.busy_len hb
    simpa [hexLengthOk] using hok
  scan hphase := (h.scan hb hphase).2
  emit hphase := by
    obtain ⟨-, hidx, hvalid⟩ := h.emit hb hphase
    exact ⟨by omega, hvalid⟩

theorem HexDecoder.canRun_accept {op : OpCode} {len : LenWord} {u : HexDecoder}
    (hb : (acceptHexDecoder op len u).regs.Busy)
    (hready : hexDecoderOps.sourceReady (acceptHexDecoder op len u) = true) : (acceptHexDecoder op len u).CanRun := by
  obtain ⟨hok, hstart⟩ := acceptDecode_of_busy hb
  have hphase : (acceptHexDecoder op len u).phase = .scan := if_pos hb
  exact {
    idx_le := by simp [hstart]
    src_written := (Buffer.allWritten_iff _ _).mp hready
    even := by simpa [hexLengthOk] using hok
    scan := fun _ => Buffer.validBelow_of_eq_zero _ _ (by simp [hstart])
    emit := fun he => absurd (hphase.symm.trans he) nofun }

/-- An element below `n` that is valid is a character with a value. -/
theorem Buffer.ValidBelow.exists_value {β : Type} {val : Chr → Option β} {b : Buffer Chr} {n i : Nat}
    (h : b.ValidBelow val n) (hi : i < n) : ∃ c v, b.read i = some c ∧ val c = some v := by
  obtain ⟨v, hv⟩ := Option.isSome_iff_exists.mp (h i hi)
  obtain ⟨c, hc, hcv⟩ := Option.bind_eq_some_iff.mp hv
  exact ⟨c, v, hc, hcv⟩

section HexDecoderSteps
variable {u : HexDecoder}

variable (h : u.CanRun) (hb : u.regs.Busy)
include h hb

/-- The step that checks a character (R146). -/
theorem HexDecoder.CanRun.scanOne (hphase : u.phase = .scan) (hlt : u.regs.idx < u.regs.len) :
    hexDecoderOps.GoesOn CanRun stepsLeft u := by
  obtain ⟨c, hread⟩ := Option.isSome_iff_exists.mp (h.src_written _ hlt)
  have hturn := hexDecoderTurn_of_scan hphase hlt hread
  by_cases hb' : (Machine.scanOne (hexval c).isSome u.regs).Busy
  · obtain ⟨hvalid, e⟩ := scanOne_of_busy hb'
    have hidx₁ : (u.regs.idx + 1).toNat = u.regs.idx.toNat + 1 := by bv_omega
    rw [e] at hturn
    refine ⟨_, hturn, fun _ => ⟨hidx₁.trans_le hlt, h.src_written, h.even, fun _ => ?_,
      fun he => absurd (hphase.symm.trans he) nofun⟩, ?_⟩
    · exact hidx₁ ▸ (h.scan hphase).succ hread hvalid
    · rw [stepsLeft_of_scan hb hphase]
      refine Eq.trans_lt (stepsLeft_of_scan hb hphase) ?_
      rw [BitVec.lt_def] at hlt
      simp only [hidx₁]
      omega
  · exact ⟨_, hturn, fun hbusy => absurd hbusy hb', stepsLeft_lt_of_ended hb hb'⟩

/-- The step that ends the SCAN pass (R147). -/
theorem HexDecoder.CanRun.scanEnd (hphase : u.phase = .scan) (hend : u.regs.idx = u.regs.len) :
    hexDecoderOps.GoesOn CanRun stepsLeft u := by
  have hturn := hexDecoderTurn_of_scan_end hphase hend
  by_cases hb' : (Machine.scanEnd u.regs).1.Busy
  · obtain ⟨hv, e⟩ := scanEnd_of_busy hb'
    rw [e] at hturn
    refine ⟨_, hturn, fun _ => ⟨Nat.zero_le _, h.src_written, h.even, nofun, fun _ => ⟨rfl, ?_⟩⟩, ?_⟩
    · exact hend ▸ h.scan hphase
    · rw [stepsLeft_of_scan hb hphase, if_neg hv]
      refine Eq.trans_lt (stepsLeft_of_emit hb rfl) ?_
      simp
  · exact ⟨_, hturn, fun hbusy => absurd hbusy hb', stepsLeft_lt_of_ended hb hb'⟩

/-- The step that writes a byte (R148). -/
theorem HexDecoder.CanRun.decodePair (hphase : u.phase = .emit) (hlt : u.regs.idx < u.regs.len) :
    hexDecoderOps.GoesOn CanRun stepsLeft u := by
  obtain ⟨hidx, hvalid⟩ := h.emit hphase
  have heven := h.even
  rw [BitVec.lt_def] at hlt
  have hidx₁ : (u.regs.idx + 1).toNat < u.regs.len.toNat := by bv_omega
  have hidx₂ : (u.regs.idx + 2).toNat = u.regs.idx.toNat + 2 := by bv_omega
  obtain ⟨c₁, hi, hc₁, hhi⟩ := hvalid.exists_value hlt
  obtain ⟨c₂, lo, hc₂, hlo⟩ := hvalid.exists_value hidx₁
  refine ⟨_, hexDecoderTurn_of_emit hphase hlt hc₁ hc₂ hhi hlo, fun _ => ⟨?_, h.src_written, heven,
    fun hs => absurd (hphase.symm.trans hs) nofun, fun _ => ⟨?_, hvalid⟩⟩, ?_⟩
  · rw [hexDecodePair_idx, hexDecodePair_len, hidx₂]
    omega
  · rw [hexDecodePair_idx, hidx₂]
    omega
  · rw [stepsLeft_of_emit hb hphase, stepsLeft_of_emit (u := hexDecodePair hi lo u) hb hphase, hexDecodePair_len,
      hexDecodePair_idx, hidx₂]
    omega

end HexDecoderSteps

/-- A step for each character and each byte, and one for the end of each pass. -/
theorem hexDecoderOps_advances : hexDecoderOps.Advances HexDecoder.CanRun HexDecoder.stepsLeft := by
  intro u h hb
  cases hphase : u.phase with
  | scan =>
    rcases h.idx_le.lt_or_eq with hlt | hend
    · exact h.scanOne hb hphase hlt
    · exact h.scanEnd hb hphase (BitVec.eq_of_toNat_eq hend)
  | emit =>
    rcases h.idx_le.lt_or_eq with hlt | hend
    · exact h.decodePair hb hphase hlt
    · exact ⟨_, hexDecoderTurn_of_emit_end hphase (BitVec.eq_of_toNat_eq hend),
        fun hb' => absurd hb' (not_busy_complete _), HexDecoder.stepsLeft_lt_of_ended hb (not_busy_complete _)⟩

/-! ## base32_encoder -/

/-- All that TOBASE32 needs of base32_encoder to go on. -/
structure Base32Encoder.CanRun (u : Base32Encoder) : Prop where
  idx_le : u.regs.idx.toNat ≤ u.regs.len.toNat
  src_written : u.src.WrittenBelow u.regs.len.toNat

theorem Base32Encoder.Inv.canRun {p : Params} {u : Base32Encoder} (h : u.Inv p) (hb : u.regs.Busy) : u.CanRun :=
  ⟨h.regs.idx_le hb, h.src_written hb⟩

theorem Base32Encoder.canRun_accept {p : Params} {len : LenWord} {u : Base32Encoder}
    (hb : (acceptToBase32 p len u).regs.Busy)
    (hready : base32EncoderOps.sourceReady (acceptToBase32 p len u) = true) : (acceptToBase32 p len u).CanRun where
  idx_le := by
    obtain ⟨-, hstart⟩ := acceptEncode_of_busy hb
    simp [hstart]
  src_written := (Buffer.allWritten_iff _ _).mp hready

/-- How many steps TOBASE32 has still to take: one for each five bits not yet given out, of those to come and those
held, and one to complete. `Base32Encoder.stepsLeft` counts by ODX, which a bound that is not legal lets wrap. -/
def Base32Encoder.stepsToGo (u : Base32Encoder) : Nat :=
  if u.regs.Busy then (8 * (u.regs.len.toNat - u.regs.idx.toNat) + u.bits.toNat + 4) / 5 + 1 else 0

section Base32EncoderSteps
variable {u : Base32Encoder}

theorem Base32Encoder.stepsToGo_of_busy (hb : u.regs.Busy) : u.stepsToGo =
    (8 * (u.regs.len.toNat - u.regs.idx.toNat) + u.bits.toNat + 4) / 5 + 1 := if_pos hb

theorem Base32Encoder.stepsToGo_of_not_busy (hb : ¬u.regs.Busy) : u.stepsToGo = 0 := if_neg hb

/-- The step that completes (R165). -/
theorem Base32Encoder.goesOnce_of_end (hb : u.regs.Busy) (h0 : u.bits = 0) (hend : u.regs.idx = u.regs.len) :
    base32EncoderOps.GoesOnce CanRun stepsToGo u := by
  refine ⟨_, base32EncoderTurn_of_end h0 hend, fun hb' => absurd hb' (not_busy_complete _), ?_⟩
  rw [stepsToGo_of_busy hb, stepsToGo_of_not_busy (not_busy_complete _), h0, hend, Nat.sub_self]
  rfl

variable (h : u.CanRun) (hb : u.regs.Busy)
include h hb

/-- A step that gives out five of `n` bits, where they are those held and those taken in or filled. -/
theorem Base32Encoder.CanRun.emitSymbol {pool n : Nat} {idx : LenWord}
    (hturn : base32EncoderTurn u = .next (base32EmitSymbol pool n idx u)) (hidx : idx.toNat ≤ u.regs.len.toNat)
    (hn : n < 16)
    (hbits : (8 * (u.regs.len.toNat - u.regs.idx.toNat) + u.bits.toNat + 4) / 5 =
      (8 * (u.regs.len.toNat - idx.toNat) + (n - 5) + 4) / 5 + 1) : base32EncoderOps.GoesOnce CanRun stepsToGo u := by
  refine ⟨_, hturn, fun _ => ⟨hidx, h.src_written⟩, ?_⟩
  rw [stepsToGo_of_busy hb, stepsToGo_of_busy (u := base32EmitSymbol pool n idx u) hb, base32EmitSymbol_len,
    base32EmitSymbol_idx, base32EmitSymbol_bits, BitVec.toNat_ofNat, Nat.mod_eq_of_lt (by omega), hbits]

end Base32EncoderSteps

/-- A step for each character, and one to complete (R164 to R166). -/
theorem base32EncoderOps_counts : base32EncoderOps.Counts Base32Encoder.CanRun Base32Encoder.stepsToGo where
  ended := Base32Encoder.stepsToGo_of_not_busy
  turn {u} h hb := by
    rcases Nat.lt_or_ge u.bits.toNat 5 with hlt5 | h5
    · rcases h.idx_le.lt_or_eq with hlt | hend
      · obtain ⟨b, hread⟩ := Option.isSome_iff_exists.mp (h.src_written _ hlt)
        have hidx₁ : (u.regs.idx + 1).toNat = u.regs.idx.toNat + 1 := by bv_omega
        exact h.emitSymbol hb (base32EncoderTurn_of_lt hlt5 hlt hread) (by omega) (by omega) (by omega)
      · have hend' : u.regs.idx = u.regs.len := BitVec.eq_of_toNat_eq hend
        by_cases h0 : u.bits = 0
        · exact Base32Encoder.goesOnce_of_end hb h0 hend'
        · have hheld : u.bits.toNat ≠ 0 := fun h0' => h0 (BitVec.eq_of_toNat_eq h0')
          exact h.emitSymbol hb (base32EncoderTurn_of_fill (fun ⟨h0', _⟩ => h0 h0') hlt5 (by bv_omega)) h.idx_le
            (by decide) (by omega)
    · exact h.emitSymbol hb (base32EncoderTurn_of_held h5) h.idx_le u.bits.isLt (by omega)

/-! ## base32_decoder -/

/-- All that FROMBASE32 and ISBASE32 need of base32_decoder to go on: the characters checked so far are valid, and in
the EMIT pass all of them are. -/
structure Base32Decoder.CanRun (u : Base32Decoder) : Prop where
  idx_le : u.regs.idx.toNat ≤ u.regs.len.toNat
  src_written : u.src.WrittenBelow u.regs.len.toNat
  scan : u.phase = .scan → u.src.ValidBelow b32val u.regs.idx.toNat
  emit : u.phase = .emit → u.src.ValidBelow b32val u.regs.len.toNat

theorem Base32Decoder.Inv.canRun {p : Params} {u : Base32Decoder} (h : u.Inv p) (hb : u.regs.Busy) : u.CanRun where
  idx_le := h.regs.idx_le hb
  src_written := h.src_written hb
  scan hphase := by
    obtain ⟨-, -, -, hvalid⟩ := h.scan hb hphase
    exact hvalid
  emit hphase := by
    obtain ⟨-, -, -, -, hvalid⟩ := h.emit hb hphase
    exact hvalid

theorem Base32Decoder.canRun_accept {op : OpCode} {len : LenWord} {u : Base32Decoder}
    (hb : (acceptBase32Decoder op len u).regs.Busy)
    (hready : base32DecoderOps.sourceReady (acceptBase32Decoder op len u) = true) :
    (acceptBase32Decoder op len u).CanRun := by
  obtain ⟨-, hstart⟩ := acceptDecode_of_busy hb
  have hphase : (acceptBase32Decoder op len u).phase = .scan := if_pos hb
  exact {
    idx_le := by simp [hstart]
    src_written := (Buffer.allWritten_iff _ _).mp hready
    scan := fun _ => Buffer.validBelow_of_eq_zero _ _ (by simp [hstart])
    emit := fun he => absurd (hphase.symm.trans he) nofun }

section Base32DecoderSteps
variable {u : Base32Decoder}

variable (h : u.CanRun) (hb : u.regs.Busy)
include h hb

/-- The step that checks a character (R186). -/
theorem Base32Decoder.CanRun.scanOne (hphase : u.phase = .scan) (hlt : u.regs.idx < u.regs.len) :
    base32DecoderOps.GoesOn CanRun stepsLeft u := by
  obtain ⟨c, hread⟩ := Option.isSome_iff_exists.mp (h.src_written _ hlt)
  have hturn := base32DecoderTurn_of_scan hphase hlt hread
  by_cases hb' : (Machine.scanOne (b32val c).isSome u.regs).Busy
  · obtain ⟨hvalid, e⟩ := scanOne_of_busy hb'
    have hidx₁ : (u.regs.idx + 1).toNat = u.regs.idx.toNat + 1 := by bv_omega
    rw [e] at hturn
    exact ⟨_, hturn, fun _ => ⟨hidx₁.trans_le hlt, h.src_written,
      fun _ => hidx₁ ▸ (h.scan hphase).succ hread hvalid, fun he => absurd (hphase.symm.trans he) nofun⟩,
      stepsLeft_lt_of_next hb hlt rfl rfl rfl rfl rfl⟩
  · exact ⟨_, hturn, fun hbusy => absurd hbusy hb', stepsLeft_lt_of_ended hb hb'⟩

/-- The step that ends the SCAN pass (R187). -/
theorem Base32Decoder.CanRun.scanEnd (hphase : u.phase = .scan) (hend : u.regs.idx = u.regs.len) :
    base32DecoderOps.GoesOn CanRun stepsLeft u := by
  have hturn := base32DecoderTurn_of_scan_end hphase hend
  by_cases hb' : (Machine.scanEnd u.regs).1.Busy
  · obtain ⟨hv, e⟩ := scanEnd_of_busy hb'
    have hdecode : ¬(u.phase = .emit ∨ u.regs.op.getLsbD 0 = true) := by simpa [hphase] using hv
    rw [e] at hturn
    refine ⟨_, hturn, fun _ => ⟨Nat.zero_le _, h.src_written, nofun, fun _ => hend ▸ h.scan hphase⟩, ?_⟩
    rw [stepsLeft_of_busy hb, if_neg hdecode]
    refine Eq.trans_lt (stepsLeft_of_busy hb) ?_
    simp
  · exact ⟨_, hturn, fun hbusy => absurd hbusy hb', stepsLeft_lt_of_ended hb hb'⟩

/-- The step that takes a character in (R189). -/
theorem Base32Decoder.CanRun.takeSymbol (hphase : u.phase = .emit) (hlt : u.regs.idx < u.regs.len) :
    base32DecoderOps.GoesOn CanRun stepsLeft u := by
  have hvalid := h.emit hphase
  have hidx₁ : (u.regs.idx + 1).toNat = u.regs.idx.toNat + 1 := by bv_omega
  have hphase' (x : BitVec 5) : (base32TakeSymbol x u).phase = .emit := by simpa using hphase
  obtain ⟨c, x, hc, hx⟩ := hvalid.exists_value hlt
  refine ⟨_, base32DecoderTurn_of_emit hphase hlt hc hx, fun _ => ⟨?_, by simpa using h.src_written,
    fun hs => absurd ((hphase' x).symm.trans hs) nofun, fun _ => by simpa using hvalid⟩, ?_⟩
  · rw [base32TakeSymbol_idx, base32TakeSymbol_len, hidx₁]
    exact hlt
  · exact stepsLeft_lt_of_next hb hlt (by rw [base32TakeSymbol_regs]) (base32TakeSymbol_op x u)
      (base32TakeSymbol_len x u) (base32TakeSymbol_phase x u) (base32TakeSymbol_idx x u)

end Base32DecoderSteps

/-- A step for each character in each pass, and one for the end of each. -/
theorem base32DecoderOps_advances : base32DecoderOps.Advances Base32Decoder.CanRun Base32Decoder.stepsLeft := by
  intro u h hb
  cases hphase : u.phase with
  | scan =>
    rcases h.idx_le.lt_or_eq with hlt | hend
    · exact h.scanOne hb hphase hlt
    · exact h.scanEnd hb hphase (BitVec.eq_of_toNat_eq hend)
  | emit =>
    rcases h.idx_le.lt_or_eq with hlt | hend
    · exact h.takeSymbol hb hphase hlt
    · exact ⟨_, base32DecoderTurn_of_emit_end hphase (BitVec.eq_of_toNat_eq hend),
        fun hb' => absurd hb' (not_busy_complete _), Base32Decoder.stepsLeft_lt_of_ended hb (not_busy_complete _)⟩

end Sys2Proof.Machine

/-! PROOFS. The six commands on their units: how each is accepted and run, and that a command run whole is its
acceptance and then its steps (44_command_protocol.md R201 to R211). -/

namespace Sys2Proof.Machine

/-! ## A run to the end, step by step -/

section EndsIn
variable {α : Type} {o : UnitOps α} {R : α → Prop} {m : α → Nat}

/-- The unit `x` ends as `y` after exactly `n` steps, BUSY before each of them. -/
def UnitOps.EndsIn (o : UnitOps α) : Nat → α → α → Prop
  | 0, x, y => ¬(o.regs x).Busy ∧ x = y
  | n + 1, x, y => (o.regs x).Busy ∧ ∃ v, o.turn x = .next v ∧ o.EndsIn n v y

theorem UnitOps.EndsIn.busy_of_pos {n : Nat} {x y : α} (h : o.EndsIn n x y) (hn : 0 < n) : (o.regs x).Busy := by
  cases n with
  | zero => exact absurd hn (Nat.lt_irrefl 0)
  | succ n => exact h.1

/-- A unit whose steps go on and make a measure fall ends within that measure. -/
theorem UnitOps.Advances.exists_endsIn (ha : o.Advances R m) {x : α} (hx : (o.regs x).Busy → R x) :
    ∃ n y, n ≤ m x ∧ o.EndsIn n x y := by
  induction hk : m x using Nat.strong_induction_on generalizing x with
  | _ k ih =>
    by_cases hb : (o.regs x).Busy
    · obtain ⟨v, hv, hR, hlt⟩ := ha x (hx hb) hb
      obtain ⟨n, y, hn, hy⟩ := ih (m v) (hk ▸ hlt) hR rfl
      exact ⟨n + 1, y, by omega, hb, v, hv, hy⟩
    · exact ⟨0, x, Nat.zero_le _, hb, rfl⟩

/-- Where the measure falls by one at each step, the steps to the end are as many as it says. -/
theorem UnitOps.EndsIn.eq_measure (hc : o.Counts R m) {n : Nat} {x y : α} (hx : (o.regs x).Busy → R x)
    (h : o.EndsIn n x y) : n = m x := by
  induction n generalizing x with
  | zero => exact (hc.ended h.1).symm
  | succ n ih =>
    obtain ⟨hb, w, hw, hy⟩ := h
    obtain ⟨v, hv, hR, hm⟩ := hc.turn (hx hb) hb
    cases hv.symm.trans hw
    rw [hm, ih hR hy]

/-- Fuel for all the steps runs the unit to its end. -/
theorem UnitOps.EndsIn.runToDone_eq {n fuel : Nat} {x y : α} (h : o.EndsIn n x y) (hn : n ≤ fuel) :
    runToDone o fuel x = .next y := by
  induction n generalizing x fuel with
  | zero =>
    obtain ⟨hb, rfl⟩ := h
    exact runToDone_of_not_busy hb
  | succ n ih =>
    obtain ⟨fuel, rfl⟩ : ∃ k, fuel = k + 1 := ⟨fuel - 1, by omega⟩
    obtain ⟨hb, v, hv, hy⟩ := h
    rw [runToDone, if_pos hb, hv, andThen_next]
    exact ih hy (by omega)

/-- A unit that was not IDLE is DONE in the end. -/
theorem UnitOps.EndsIn.done (ho : o.StaysAwake) {n : Nat} {x y : α} (h : o.EndsIn n x y)
    (hx : (o.regs x).status.state ≠ .idle) : (o.regs y).status.state = .done := by
  induction n generalizing x with
  | zero =>
    obtain ⟨hb, rfl⟩ := h
    cases hs : (o.regs x).status.state with
    | idle => exact absurd hs hx
    | busy => exact absurd hs hb
    | done => rfl
  | succ n ih =>
    obtain ⟨hb, v, hv, hy⟩ := h
    exact ih hy (ho.turn hb hv)

end EndsIn

/-! ## Turns of a unit in the state -/

/-- The shared operations `o` are those of unit `u`. -/
structure UnitOps.IsUnit {α : Type} (o : UnitOps α) (u : UnitId) : Prop extends o.Sees u, o.StaysAwake where
  regsOf_eq (s : State) : s.regsOf u = o.regs (o.get s)
  takeTurnOf_eq (s : State) : takeTurnOf u s = o.takeTurn s
  put_put (x y : α) (s : State) : o.put y (o.put x s) = o.put y s

theorem hexEncoderOps_isUnit : hexEncoderOps.IsUnit .hexEncoder :=
  { hexEncoderOps_sees, hexEncoderOps_staysAwake with
    regsOf_eq := fun _ => rfl, takeTurnOf_eq := fun _ => rfl, put_put := fun _ _ _ => rfl }

theorem hexDecoderOps_isUnit : hexDecoderOps.IsUnit .hexDecoder :=
  { hexDecoderOps_sees, hexDecoderOps_staysAwake with
    regsOf_eq := fun _ => rfl, takeTurnOf_eq := fun _ => rfl, put_put := fun _ _ _ => rfl }

theorem base32EncoderOps_isUnit : base32EncoderOps.IsUnit .base32Encoder :=
  { base32EncoderOps_sees, base32EncoderOps_staysAwake with
    regsOf_eq := fun _ => rfl, takeTurnOf_eq := fun _ => rfl, put_put := fun _ _ _ => rfl }

theorem base32DecoderOps_isUnit : base32DecoderOps.IsUnit .base32Decoder :=
  { base32DecoderOps_sees, base32DecoderOps_staysAwake with
    regsOf_eq := fun _ => rfl, takeTurnOf_eq := fun _ => rfl, put_put := fun _ _ _ => rfl }

section OfIsUnit
variable {α : Type} {o : UnitOps α} {u : UnitId} {s : State}

theorem UnitOps.IsUnit.regsOf_put (ho : o.IsUnit u) (x : α) (s : State) : (o.put x s).regsOf u = o.regs x := by
  rw [ho.regsOf_eq, ho.get_put]

/-- A turn of the unit `x` in the state is its step. -/
theorem UnitOps.IsUnit.takeTurnOf_put (ho : o.IsUnit u) {x v : α} (hb : (o.regs x).Busy) (hv : o.turn x = .next v) :
    takeTurnOf u (o.put x s) = .next (o.put v s) := by
  have hget := ho.get_put x s
  rw [ho.takeTurnOf_eq, takeTurn_of_turn (v := v) (hget.symm ▸ hb) (hget.symm ▸ hv), ho.put_put]

/-- As many turns as the unit takes steps to its end lead there. -/
theorem UnitOps.EndsIn.runTurns_eq (ho : o.IsUnit u) {n : Nat} {x y : α} (h : o.EndsIn n x y) :
    runTurns u n (o.put x s) = .next (o.put y s) := by
  induction n generalizing x with
  | zero => rw [runTurns, h.2]
  | succ n ih =>
    obtain ⟨hb, v, hv, hy⟩ := h
    rw [runTurns, ho.takeTurnOf_put hb hv, andThen_next]
    exact ih hy

/-- After fewer turns the unit is BUSY. -/
theorem UnitOps.EndsIn.busy_before (ho : o.IsUnit u) {n m : Nat} {x y : α} (h : o.EndsIn n x y) (hm : m < n)
    {b : State} (hrun : runTurns u m (o.put x s) = .next b) : (b.regsOf u).Busy := by
  induction m generalizing n x with
  | zero =>
    cases hrun
    rw [ho.regsOf_put]
    exact h.busy_of_pos hm
  | succ m ih =>
    obtain ⟨n, rfl⟩ : ∃ k, n = k + 1 := ⟨n - 1, by omega⟩
    obtain ⟨hb, v, hv, hy⟩ := h
    rw [runTurns, ho.takeTurnOf_put hb hv, andThen_next] at hrun
    exact ih hy (by omega) hrun

end OfIsUnit

/-! ## Acceptance, by whether the command ends at it (R203, R204) -/

section Acceptance
variable {op : OpCode} {maxIn : Nat} {lengthOk : Nat → Bool} {outLength : Nat → Nat} {len : LenWord} {r : Regs}

theorem acceptEncode_done_of_ends (h : (decide (maxIn < len.toNat) || len == 0) = true) :
    (acceptEncode op maxIn outLength len r).status.state = .done := by
  rcases acceptEncode_cases op maxIn outLength len r with ⟨-, e⟩ | ⟨-, -, e⟩ | ⟨hle, hne, -⟩
  · simp [e]
  · simp [e]
  · simp only [Bool.or_eq_true, decide_eq_true_eq, beq_iff_eq] at h
    exact absurd h (not_or.mpr ⟨Nat.not_lt.mpr hle, hne⟩)

theorem acceptEncode_status_of_runs (h : (decide (maxIn < len.toNat) || len == 0) = false) :
    (acceptEncode op maxIn outLength len r).status = ⟨.busy, .none, false⟩ := by
  simp only [Bool.or_eq_false_iff, decide_eq_false_iff_not, beq_eq_false_iff_ne] at h
  obtain ⟨hle, hne⟩ := h
  rw [acceptEncode, if_neg hle, if_neg hne]
  rfl

theorem acceptDecode_done_of_ends (h : (!lengthOk len.toNat || len == 0) = true) :
    (acceptDecode op lengthOk outLength len r).status.state = .done := by
  rcases acceptDecode_cases op lengthOk outLength len r with ⟨-, -, e⟩ | ⟨-, -, e⟩ | ⟨-, -, e⟩ | ⟨hok, hne, -⟩
  · simp [e]
  · simp [e]
  · simp [e]
  · simp only [hok, Bool.not_true, Bool.false_or, beq_iff_eq] at h
    exact absurd h hne

theorem acceptDecode_status_of_runs (h : (!lengthOk len.toNat || len == 0) = false) :
    (acceptDecode op lengthOk outLength len r).status = ⟨.busy, .none, false⟩ := by
  simp only [Bool.or_eq_false_iff, Bool.not_eq_false', beq_eq_false_iff_ne] at h
  obtain ⟨hok, hne⟩ := h
  rw [acceptDecode_of_nonempty hok hne]
  rfl

end Acceptance

/-! ## The commands -/

/-- What all six commands have in common, in a block with parameters `p`: command `i` runs on the unit of the shared
operations `o`, which takes it in by `accept`; a unit that has taken it in with its source there can run as `R` says,
for at most `m` steps, which for an encoder are counted exactly (R201 to R211). -/
structure CommandOn {α : Type} (p : Params) (i : Instr) (o : UnitOps α) (accept : α → α) (R : α → Prop)
    (m : α → Nat) : Prop where
  isUnit : o.IsUnit (unitOf i)
  exec_eq {s : State} : s.params = p → exec i s = o.call (stepBound i) accept s
  issue_eq {s : State} : s.params = p → issueInstr i s = o.issue accept s
  op_eq (x : α) : (o.regs (accept x)).op = opcode i
  len_eq (x : α) : (o.regs (accept x)).len = i.len
  done (x : α) : endsAtAcceptance p i = true → (o.regs (accept x)).status.state = .done
  busy (x : α) : endsAtAcceptance p i = false → (o.regs (accept x)).status = ⟨.busy, .none, false⟩
  ready {s : State} : (∀ k, k < i.len.toNat → (s.srcRead (unitOf i) k).isSome) →
    o.sourceReady (accept (o.get s)) = true
  srcRead_eq (s : State) (k : Nat) : (o.put (accept (o.get s)) s).srcRead (unitOf i) k = s.srcRead (unitOf i) k
  dstRead_eq (s : State) (k : Nat) : (o.put (accept (o.get s)) s).dstRead (unitOf i) k = s.dstRead (unitOf i) k
  canRun {x : α} : (o.regs (accept x)).Busy → o.sourceReady (accept x) = true → R (accept x)
  advances : o.Advances R m
  steps_le (x : α) : m (accept x) ≤ stepBound i
  counts : (∃ len, i = .toHex len ∨ i = .toBase32 len) → o.Counts R m
  steps_eq {x : α} : (∃ len, i = .toHex len ∨ i = .toBase32 len) → (o.regs (accept x)).Busy →
    m (accept x) = stepBound i

theorem commandOn_toHex (p : Params) (len : LenWord) :
    CommandOn p (.toHex len) hexEncoderOps (acceptToHex p len) HexEncoder.CanRun HexEncoder.stepsLeft where
  isUnit := unitOf_toHex len ▸ hexEncoderOps_isUnit
  exec_eq h := h ▸ rfl
  issue_eq h := h ▸ rfl
  op_eq _ := acceptEncode_op
  len_eq _ := acceptEncode_len
  done _ := acceptEncode_done_of_ends
  busy _ := acceptEncode_status_of_runs
  ready {s} h := by
    rw [unitOf_toHex] at h
    simpa [Buffer.allWritten_iff, State.srcRead, Instr.len] using h
  srcRead_eq s k := by rw [unitOf_toHex]; rfl
  dstRead_eq s k := by rw [unitOf_toHex]; rfl
  canRun := HexEncoder.canRun_accept
  advances := hexEncoderOps_counts.advances
  steps_le x := by
    rw [HexEncoder.stepsLeft, acceptToHex_regs, acceptEncode_len, stepBound]
    split <;> omega
  counts _ := hexEncoderOps_counts
  steps_eq {x} _ hb := by
    obtain ⟨-, hstart⟩ := acceptEncode_of_busy hb
    simp [HexEncoder.stepsLeft_of_busy hb, hstart, stepBound]

theorem commandOn_hexDecoder (p : Params) {i : Instr} {len : LenWord} (hi : i = .fromHex len ∨ i = .isHex len) :
    CommandOn p i hexDecoderOps (acceptHexDecoder (opcode i) len) HexDecoder.CanRun HexDecoder.stepsLeft := by
  have hunit : unitOf i = .hexDecoder := by
    rcases hi with rfl | rfl
    · exact unitOf_fromHex len
    · exact unitOf_isHex len
  have hlen : i.len = len := by rcases hi with rfl | rfl <;> rfl
  have hends : endsAtAcceptance p i = (!hexLengthOk len.toNat || len == 0) := by rcases hi with rfl | rfl <;> rfl
  have hdecoder : ¬∃ n, i = .toHex n ∨ i = .toBase32 n := by rcases hi with rfl | rfl <;> simp
  exact {
    isUnit := hunit ▸ hexDecoderOps_isUnit
    exec_eq := fun _ => by rcases hi with rfl | rfl <;> rfl
    issue_eq := fun _ => by rcases hi with rfl | rfl <;> rfl
    op_eq := fun _ => acceptDecode_op
    len_eq := fun _ => hlen ▸ acceptDecode_len
    done := fun _ h => acceptDecode_done_of_ends (hends ▸ h)
    busy := fun _ h => acceptDecode_status_of_runs (hends ▸ h)
    ready := fun {s} h => by
      rw [hunit, hlen] at h
      simpa [Buffer.allWritten_iff, State.srcRead] using h
    srcRead_eq := fun s k => by rw [hunit]; rfl
    dstRead_eq := fun s k => by rw [hunit]; rfl
    canRun := HexDecoder.canRun_accept
    advances := hexDecoderOps_advances
    steps_le := fun x => by
      refine (HexDecoder.stepsLeft_le _).trans ?_
      rw [acceptHexDecoder_regs, acceptDecode_len, acceptDecode_op]
      rcases hi with rfl | rfl
      · have hdecode : ¬(opcode (.fromHex len)).getLsbD 0 = true := by simp [opcode]
        rw [if_neg hdecode, stepBound]
        omega
      · have hcheck : (opcode (.isHex len)).getLsbD 0 = true := by simp [opcode]
        rw [if_pos hcheck, stepBound]
    counts := fun h => absurd h hdecoder
    steps_eq := fun h => absurd h hdecoder }

theorem commandOn_toBase32 (p : Params) (len : LenWord) : CommandOn p (.toBase32 len) base32EncoderOps
    (acceptToBase32 p len) Base32Encoder.CanRun Base32Encoder.stepsToGo := by
  have hsteps {x : Base32Encoder} (hb : (acceptToBase32 p len x).regs.Busy) :
      (acceptToBase32 p len x).stepsToGo = toBase32Length len.toNat + 1 := by
    obtain ⟨-, hstart⟩ := acceptEncode_of_busy hb
    have hbits : (acceptToBase32 p len x).bits = 0 := if_pos hb
    simp [Base32Encoder.stepsToGo_of_busy hb, hstart, hbits, toBase32Length]
  exact {
    isUnit := unitOf_toBase32 len ▸ base32EncoderOps_isUnit
    exec_eq := fun h => h ▸ rfl
    issue_eq := fun h => h ▸ rfl
    op_eq := fun _ => acceptEncode_op
    len_eq := fun _ => acceptEncode_len
    done := fun _ => acceptEncode_done_of_ends
    busy := fun _ => acceptEncode_status_of_runs
    ready := fun {s} h => by
      rw [unitOf_toBase32] at h
      simpa [Buffer.allWritten_iff, State.srcRead, Instr.len] using h
    srcRead_eq := fun s k => by rw [unitOf_toBase32]; rfl
    dstRead_eq := fun s k => by rw [unitOf_toBase32]; rfl
    canRun := Base32Encoder.canRun_accept
    advances := base32EncoderOps_counts.advances
    steps_le := fun x => by
      by_cases hb : (acceptToBase32 p len x).regs.Busy
      · exact (hsteps hb).le
      · rw [Base32Encoder.stepsToGo_of_not_busy hb]
        exact Nat.zero_le _
    counts := fun _ => base32EncoderOps_counts
    steps_eq := fun _ => hsteps }

theorem commandOn_base32Decoder (p : Params) {i : Instr} {len : LenWord}
    (hi : i = .fromBase32 len ∨ i = .isBase32 len) : CommandOn p i base32DecoderOps
      (acceptBase32Decoder (opcode i) len) Base32Decoder.CanRun Base32Decoder.stepsLeft := by
  have hunit : unitOf i = .base32Decoder := by
    rcases hi with rfl | rfl
    · exact unitOf_fromBase32 len
    · exact unitOf_isBase32 len
  have hlen : i.len = len := by rcases hi with rfl | rfl <;> rfl
  have hends : endsAtAcceptance p i = (!b32LengthOk len.toNat || len == 0) := by rcases hi with rfl | rfl <;> rfl
  have hdecoder : ¬∃ n, i = .toHex n ∨ i = .toBase32 n := by rcases hi with rfl | rfl <;> simp
  exact {
    isUnit := hunit ▸ base32DecoderOps_isUnit
    exec_eq := fun _ => by rcases hi with rfl | rfl <;> rfl
    issue_eq := fun _ => by rcases hi with rfl | rfl <;> rfl
    op_eq := fun _ => acceptDecode_op
    len_eq := fun _ => hlen ▸ acceptDecode_len
    done := fun _ h => acceptDecode_done_of_ends (hends ▸ h)
    busy := fun _ h => acceptDecode_status_of_runs (hends ▸ h)
    ready := fun {s} h => by
      rw [hunit, hlen] at h
      simpa [Buffer.allWritten_iff, State.srcRead] using h
    srcRead_eq := fun s k => by rw [hunit]; rfl
    dstRead_eq := fun s k => by rw [hunit]; rfl
    canRun := Base32Decoder.canRun_accept
    advances := base32DecoderOps_advances
    steps_le := fun x => by
      refine (Base32Decoder.stepsLeft_le _).trans ?_
      rw [acceptBase32Decoder_regs, acceptDecode_len, acceptDecode_op]
      rcases hi with rfl | rfl
      · have hdecode : ¬(opcode (.fromBase32 len)).getLsbD 0 = true := by simp [opcode]
        rw [if_neg hdecode, stepBound]
        omega
      · have hcheck : (opcode (.isBase32 len)).getLsbD 0 = true := by simp [opcode]
        rw [if_pos hcheck, stepBound]
    counts := fun h => absurd h hdecoder
    steps_eq := fun h => absurd h hdecoder }

/-- Every command runs on a unit. -/
theorem exists_commandOn (p : Params) (i : Instr) :
    ∃ (α : Type) (o : UnitOps α) (accept : α → α) (R : α → Prop) (m : α → Nat), CommandOn p i o accept R m := by
  cases i with
  | toHex len => exact ⟨_, _, _, _, _, commandOn_toHex p len⟩
  | fromHex len => exact ⟨_, _, _, _, _, commandOn_hexDecoder p (.inl rfl)⟩
  | isHex len => exact ⟨_, _, _, _, _, commandOn_hexDecoder p (.inr rfl)⟩
  | toBase32 len => exact ⟨_, _, _, _, _, commandOn_toBase32 p len⟩
  | fromBase32 len => exact ⟨_, _, _, _, _, commandOn_base32Decoder p (.inl rfl)⟩
  | isBase32 len => exact ⟨_, _, _, _, _, commandOn_base32Decoder p (.inr rfl)⟩

/-! ## A command run whole -/

section OfCommandOn
variable {α : Type} {i : Instr} {o : UnitOps α} {accept : α → α} {R : α → Prop} {m : α → Nat}

/-- An accepted command is BUSY or DONE, as its length says. -/
theorem CommandOn.not_idle {p : Params} (h : CommandOn p i o accept R m) (x : α) :
    (o.regs (accept x)).status.state ≠ .idle := by
  cases he : endsAtAcceptance p i with
  | true => simp [h.done x he]
  | false => simp [h.busy x he]

/-- A command that its unit admits ends within the steps of R211. -/
theorem CommandOn.exists_endsIn {p : Params} (h : CommandOn p i o accept R m) {x y : α}
    (hadmit : o.requireSource (accept x) = .next y) : y = accept x ∧ ((o.regs y).Busy → R y) ∧
      ∃ n z, n ≤ stepBound i ∧ o.EndsIn n y z := by
  obtain ⟨rfl, -⟩ := requireSource_eq_next.mp hadmit
  have hR (hb : (o.regs (accept x)).Busy) : R (accept x) := h.canRun hb (sourceReady_of_requireSource hadmit hb)
  obtain ⟨n, z, hn, hz⟩ := h.advances.exists_endsIn hR
  exact ⟨rfl, hR, n, z, hn.trans (h.steps_le x), hz⟩

end OfCommandOn

/-- Settles O51: an accepted command has all its source, so each step of its unit goes on and leaves fewer to take, one
fewer for an encoder; the whole run is the same steps within its fuel. -/
theorem wholeCommandIsItsSteps : Obligations.WholeCommandIsItsSteps := by
  intro i s a hb hissue
  obtain ⟨α, o, accept, R, m, h⟩ := exists_commandOn s.params i
  have hunit := h.isUnit
  rw [h.issue_eq rfl] at hissue
  rw [hunit.regsOf_eq] at hb
  rcases issue_eq_next hissue with ⟨hb', -⟩ | ⟨-, x, hadmit, rfl⟩
  · exact absurd hb' hb
  obtain ⟨hx, hR, n, y, hn, hy⟩ := h.exists_endsIn hadmit
  have hidle : (o.regs x).status.state ≠ .idle := hx ▸ h.not_idle _
  refine ⟨n, o.put y s, hn, hy.runTurns_eq hunit, ?_, ?_, fun hends => ?_, fun hruns hencoder => ?_,
    fun k b hk => hy.busy_before hunit hk⟩
  · rw [h.exec_eq rfl, call_of_requireSource hb hadmit, hy.runToDone_eq hn, andThen_next]
  · rw [hunit.regsOf_put]
    exact hy.done hunit.toStaysAwake hidle
  · by_contra hpos
    have hbusy := hy.busy_of_pos (Nat.pos_of_ne_zero hpos)
    rw [hx] at hbusy
    exact absurd (hbusy.symm.trans (h.done _ hends)) nofun
  · have hbusy : (o.regs (accept (o.get s))).Busy := congrArg Status.state (h.busy _ hruns)
    rw [hy.eq_measure (h.counts hencoder) hR, hx, h.steps_eq hencoder hbusy]

end Sys2Proof.Machine

/-! PROOFS. From a sound state no step ends in a fault, and a BUSY unit always has its step (44_command_protocol.md
R206, R207; 93_implementation_defined.md section 1). -/

namespace Sys2Proof.Machine

/-! ## A BUSY unit goes on -/

/-- A turn of a BUSY unit whose steps go on does so, and leaves the unit another one. -/
theorem UnitOps.Advances.exists_turn {α : Type} {o : UnitOps α} {R : α → Prop} {m : α → Nat} {u : UnitId} {s : State}
    (ha : o.Advances R m) (ho : o.IsUnit u) (hb : (o.regs (o.get s)).Busy) (hR : R (o.get s)) :
    ∃ t, takeTurnOf u s = .next t ∧ ¬SameUnit u s t := by
  obtain ⟨v, hv, -, hlt⟩ := ha _ hR hb
  refine ⟨o.put v s, (ho.takeTurnOf_eq s).trans (UnitOps.takeTurn_of_turn hb hv), fun hsame => ?_⟩
  rw [ho.sameUnit_iff, ho.get_put] at hsame
  exact absurd hlt (hsame ▸ Nat.lt_irrefl _)

/-- Settles O50: a BUSY unit of a sound state has all that its command needs to go on, and its step leaves fewer steps
to take. -/
theorem aBusyUnitIsNeverStuck : Obligations.ABusyUnitIsNeverStuck := by
  intro s u hs hb
  cases u with
  | hexEncoder => exact hexEncoderOps_counts.advances.exists_turn hexEncoderOps_isUnit hb (hs.hexEncoder.canRun hb)
  | hexDecoder => exact hexDecoderOps_advances.exists_turn hexDecoderOps_isUnit hb (hs.hexDecoder.canRun hb)
  | base32Encoder =>
    exact base32EncoderOps_counts.advances.exists_turn base32EncoderOps_isUnit hb (hs.base32Encoder.canRun hb)
  | base32Decoder =>
    exact base32DecoderOps_advances.exists_turn base32DecoderOps_isUnit hb (hs.base32Decoder.canRun hb)

/-! ## Outcomes that are no fault -/

/-- The outcome is a next state or a refusal. -/
def Faultless {α : Type} (o : Host.Outcome α Fault Refusal) : Prop := ∀ f, o ≠ .fault f

section OfFaultless
variable {α β : Type}

theorem faultless_next (a : α) : Faultless (.next a) := nofun

theorem faultless_refused (r : Refusal) : Faultless (.refused r : Host.Outcome α Fault Refusal) := nofun

theorem Faultless.andThen {o : Host.Outcome α Fault Refusal} {f : α → Host.Outcome β Fault Refusal}
    (ho : Faultless o) (hf : ∀ a, o = .next a → Faultless (f a)) : Faultless (andThen o f) := by
  intro e he
  rcases andThen_eq_fault.mp he with h | ⟨a, ha, h⟩
  · exact ho e h
  · exact hf a ha e h

theorem requireSource_faultless (o : UnitOps α) (x : α) : Faultless (o.requireSource x) := by
  unfold UnitOps.requireSource
  split
  · exact faultless_refused _
  · exact faultless_next _

theorem writeElement_faultless {mk : Nat → α} {width : Nat} {u : UnitId} {r : Regs} {b : Buffer α} {i : LenWord}
    {v : Nat} : Faultless (writeElement mk width u r b i v) := by
  unfold writeElement
  split
  · exact faultless_refused _
  · split
    · exact faultless_next _
    · exact faultless_refused _

end OfFaultless

/-! ## Turns and commands -/

theorem takeTurnOf_faultless {s : State} (hs : s.Inv) (u : UnitId) : Faultless (takeTurnOf u s) := by
  by_cases hb : (s.regsOf u).Busy
  · obtain ⟨t, ht, -⟩ := aBusyUnitIsNeverStuck s u hs hb
    exact ht ▸ faultless_next t
  · exact takeTurnOf_of_not_busy hb ▸ faultless_next s

theorem quietStep_faultless {s : State} (hs : s.Inv) : Faultless (quietStep s) := by
  unfold quietStep
  split
  · exact takeTurnOf_faultless hs _
  · exact faultless_next s

/-- A command offered to a BUSY unit, to be run whole, is a turn of the unit (R201, U16). -/
theorem exec_of_busy {i : Instr} {s : State} (hb : (s.regsOf (unitOf i)).Busy) :
    exec i s = takeTurnOf (unitOf i) s := by
  obtain ⟨α, o, accept, R, m, h⟩ := exists_commandOn s.params i
  rw [h.isUnit.regsOf_eq] at hb
  rw [h.exec_eq rfl, UnitOps.call, if_pos hb, h.isUnit.takeTurnOf_eq]

/-- A command offered to a BUSY unit, to be accepted alone, is a turn of the unit (R201, U16). -/
theorem issueInstr_of_busy {i : Instr} {s : State} (hb : (s.regsOf (unitOf i)).Busy) :
    issueInstr i s = takeTurnOf (unitOf i) s := by
  obtain ⟨α, o, accept, R, m, h⟩ := exists_commandOn s.params i
  rw [h.isUnit.regsOf_eq] at hb
  rw [h.issue_eq rfl, UnitOps.issue, if_pos hb, h.isUnit.takeTurnOf_eq]

/-- A command run whole faults in no sound state: it waits, is refused for its source, or has all of it. -/
theorem exec_faultless {s : State} (hs : s.Inv) (i : Instr) : Faultless (exec i s) := by
  by_cases hb : (s.regsOf (unitOf i)).Busy
  · exact exec_of_busy hb ▸ takeTurnOf_faultless hs _
  · obtain ⟨α, o, accept, R, m, h⟩ := exists_commandOn s.params i
    rw [h.isUnit.regsOf_eq] at hb
    rw [h.exec_eq rfl, UnitOps.call, if_neg hb]
    refine ((requireSource_faultless o _).andThen fun x hx => ?_).andThen fun _ _ => faultless_next _
    obtain ⟨-, -, n, y, hn, hy⟩ := h.exists_endsIn hx
    exact hy.runToDone_eq hn ▸ faultless_next y

/-- A command accepted alone faults in no sound state. -/
theorem issueInstr_faultless {s : State} (hs : s.Inv) (i : Instr) : Faultless (issueInstr i s) := by
  by_cases hb : (s.regsOf (unitOf i)).Busy
  · exact issueInstr_of_busy hb ▸ takeTurnOf_faultless hs _
  · obtain ⟨α, o, accept, R, m, h⟩ := exists_commandOn s.params i
    rw [h.isUnit.regsOf_eq] at hb
    rw [h.issue_eq rfl, UnitOps.issue, if_neg hb]
    exact (requireSource_faultless o _).andThen fun _ _ => faultless_next _

/-- An offered word faults in no sound state, where its command does not. -/
theorem offer_faultless {s : State} (hs : s.Inv) {run : Instr → State → Host.Outcome State Fault Refusal}
    (hrun : ∀ {s : State}, s.Inv → ∀ i, Faultless (run i s)) (w : CommandWord) (rest : List Input) :
    Faultless (offer w run rest s) := by
  rcases offer_cases w run rest s with ⟨op, -, e⟩ | ⟨i, -, e⟩
  · exact e ▸ faultless_refused _
  · exact e ▸ hrun (hs.offered _ rest) i

/-! ## The host's accesses -/

theorem hostWriteSrc_faultless (u : UnitId) (i : LenWord) (v : Nat) (s : State) : Faultless (hostWriteSrc u i v s) := by
  cases u <;> exact Faultless.andThen writeElement_faultless fun _ _ => faultless_next _

theorem hostReadDst_faultless (u : UnitId) (i : LenWord) (s : State) : Faultless (hostReadDst u i s) := by
  unfold hostReadDst
  split
  · exact faultless_refused _
  · cases u <;> exact faultless_next _

/-- Settles O49: a BUSY unit of a sound state has its step, a command that is admitted has its source, and no other
input can fault. -/
theorem noStepFromASoundStateFaults : Obligations.NoStepFromASoundStateFaults := by
  intro s hs
  change Faultless (step s)
  cases hin : s.inputs with
  | nil => exact step_of_no_inputs hin ▸ quietStep_faultless hs
  | cons x rest =>
    rw [step_of_inputs hin]
    cases x with
    | call w => exact offer_faultless hs exec_faultless w rest
    | issue w => exact offer_faultless hs issueInstr_faultless w rest
    | turn u => exact takeTurnOf_faultless (hs.withOwnFields rest _ _) u
    | writeSrc u i v => exact hostWriteSrc_faultless u i v _
    | readDst u i => exact hostReadDst_faultless u i _
    | readOp u => exact faultless_next _
    | readLen u => exact faultless_next _
    | readOutlen u => exact faultless_next _
    | readStatus u => exact faultless_next _
    | reset => exact faultless_next _

end Sys2Proof.Machine

/-! PROOFS. What an acceptance decides, loads and leaves alone, an offer that waits, and the host's write of SRC
(44_command_protocol.md R200 to R204; 70_reset_and_hazards.md R263, R267). -/

namespace Sys2Proof.Machine

/-! ## The rows of the acceptance table (R204) -/

section Rows
variable {op : OpCode} {maxIn : Nat} {lengthOk : Nat → Bool} {outLength : Nat → Nat} {len : LenWord} {r : Regs}

/-- The row of a length beyond the bound. -/
theorem acceptEncode_of_too_long (h : maxIn < len.toNat) :
    acceptEncode op maxIn outLength len r = raise .outOfRange (load op len r) := if_pos h

/-- The row of the empty input of an encoder. -/
theorem acceptEncode_of_empty (h : len.toNat = 0) :
    acceptEncode op maxIn outLength len r = endAtOnce false (load op len r) := by
  rw [acceptEncode, if_neg (by omega), if_pos (BitVec.eq_of_toNat_eq h)]

/-- The row of an encoder that starts to run. -/
theorem acceptEncode_of_runs (hpos : 1 ≤ len.toNat) (hle : len.toNat ≤ maxIn) :
    acceptEncode op maxIn outLength len r = start (outLength len.toNat) (load op len r) := by
  rw [acceptEncode, if_neg (by omega), if_neg (by bv_omega)]

/-- The three rows of an encoder. -/
theorem acceptEncode_rows (op : OpCode) (r : Regs) (hfit : ∀ n ≤ maxIn, outLength n < 2 ^ 32) :
    let a := acceptEncode op maxIn outLength len r
    (maxIn < len.toNat → a.status = ⟨.done, .outOfRange, false⟩ ∧ a.outlen = 0) ∧
    (len.toNat = 0 → a.status = ⟨.done, .none, false⟩ ∧ a.outlen = 0) ∧
    (1 ≤ len.toNat ∧ len.toNat ≤ maxIn → a.status.state = .busy ∧ a.outlen.toNat = outLength len.toNat) := by
  refine ⟨fun h => ?_, fun h => ?_, fun ⟨hpos, hle⟩ => ?_⟩
  · rw [acceptEncode_of_too_long h]
    exact ⟨rfl, rfl⟩
  · rw [acceptEncode_of_empty h]
    exact ⟨rfl, rfl⟩
  · rw [acceptEncode_of_runs hpos hle]
    exact ⟨rfl, (BitVec.toNat_ofNat _ _).trans (Nat.mod_eq_of_lt (hfit _ hle))⟩

/-- The three rows of a decode. -/
theorem acceptDecode_rows_of_decode (r : Regs) (hv : op.getLsbD 0 = false) (hle : ∀ n, outLength n ≤ n)
    (h0 : lengthOk 0 = true) :
    let a := acceptDecode op lengthOk outLength len r
    (lengthOk len.toNat = false → a.status = ⟨.done, .invalidLength, false⟩ ∧ a.outlen = 0) ∧
    (len.toNat = 0 → a.status = ⟨.done, .none, false⟩ ∧ a.outlen = 0) ∧
    (lengthOk len.toNat = true → 2 ≤ len.toNat → a.status.state = .busy ∧ a.outlen.toNat = outLength len.toNat) := by
  have hv' : ¬op.getLsbD 0 = true := Bool.not_eq_true _ ▸ hv
  refine ⟨fun h => ?_, fun h => ?_, fun hok hlen => ?_⟩
  · rw [acceptDecode_of_bad_decode h hv']
    exact ⟨rfl, rfl⟩
  · rw [acceptDecode_of_empty (h ▸ h0) (BitVec.eq_of_toNat_eq h), hv]
    exact ⟨rfl, rfl⟩
  · rw [acceptDecode_of_nonempty hok (by bv_omega), if_neg hv']
    exact ⟨rfl, (BitVec.toNat_ofNat _ _).trans (Nat.mod_eq_of_lt ((hle _).trans_lt len.isLt))⟩

/-- The three rows of a validation. -/
theorem acceptDecode_rows_of_check (r : Regs) (hv : op.getLsbD 0 = true) (h0 : lengthOk 0 = true) :
    let a := acceptDecode op lengthOk outLength len r
    (lengthOk len.toNat = false → a.status = ⟨.done, .none, false⟩ ∧ a.outlen = 0) ∧
    (len.toNat = 0 → a.status = ⟨.done, .none, true⟩ ∧ a.outlen = 0) ∧
    (lengthOk len.toNat = true → 2 ≤ len.toNat → a.status.state = .busy ∧ a.outlen = 0) := by
  refine ⟨fun h => ?_, fun h => ?_, fun hok hlen => ?_⟩
  · rw [acceptDecode_of_bad_check h hv]
    exact ⟨rfl, rfl⟩
  · rw [acceptDecode_of_empty (h ▸ h0) (BitVec.eq_of_toNat_eq h), hv]
    exact ⟨rfl, rfl⟩
  · rw [acceptDecode_of_nonempty hok (by bv_omega), if_pos hv]
    exact ⟨rfl, rfl⟩

end Rows

/-- A length is of an accepted class of R181. -/
theorem b32LengthOk_of_good_class {n : Nat} (h : n % 8 = 0 ∨ n % 8 = 2 ∨ n % 8 = 4 ∨ n % 8 = 5 ∨ n % 8 = 7) :
    b32LengthOk n = true := b32LengthOk_iff.mpr (by omega)

theorem hexLengthOk_of_even {n : Nat} (h : n % 2 = 0) : hexLengthOk n = true := by simp [hexLengthOk, h]

/-- Settles O18: three rows for each operation, those of an encoder, a decode or a validation. -/
theorem acceptanceDecidesFromTheLength : Obligations.AcceptanceDecidesFromTheLength := by
  intro p len u v x y hp
  obtain ⟨hlong, hempty, hruns⟩ := acceptEncode_rows (len := len) 0b000#3 u.regs fun _ => toHexLength_lt hp
  obtain ⟨hdBad, hdEmpty, hdRuns⟩ := acceptDecode_rows_of_decode (op := 0b010#3) (lengthOk := hexLengthOk) (len := len)
    v.regs rfl fromHexLength_le rfl
  obtain ⟨hcBad, hcEmpty, hcRuns⟩ := acceptDecode_rows_of_check (op := 0b011#3) (lengthOk := hexLengthOk)
    (outLength := fromHexLength) (len := len) v.regs rfl rfl
  obtain ⟨blong, bempty, bruns⟩ := acceptEncode_rows (len := len) 0b100#3 x.regs fun _ => toBase32Length_lt hp
  obtain ⟨bdBad, bdEmpty, bdRuns⟩ := acceptDecode_rows_of_decode (op := 0b110#3) (lengthOk := b32LengthOk) (len := len)
    y.regs rfl fromBase32Length_le rfl
  obtain ⟨bcBad, bcEmpty, bcRuns⟩ := acceptDecode_rows_of_check (op := 0b111#3) (lengthOk := b32LengthOk)
    (outLength := fromBase32Length) (len := len) y.regs rfl rfl
  refine ⟨hlong, hempty, hruns,
    fun h => hdBad (hexLengthOk_of_odd h), hdEmpty, fun ⟨h, h2⟩ => ?_,
    fun h => hcBad (hexLengthOk_of_odd h), hcEmpty, fun ⟨h, h2⟩ => ?_,
    blong, bempty, bruns,
    fun h => bdBad (b32LengthOk_of_bad_class h), bdEmpty, fun ⟨h, h2⟩ => ?_,
    fun h => bcBad (b32LengthOk_of_bad_class h), bcEmpty, fun ⟨h, h2⟩ => ?_⟩
  · obtain ⟨hb, hout⟩ := hdRuns (hexLengthOk_of_even h) h2
    exact ⟨hb, if_pos hb, hout⟩
  · obtain ⟨hb, hout⟩ := hcRuns (hexLengthOk_of_even h) h2
    exact ⟨hb, if_pos hb, hout⟩
  · obtain ⟨hb, hout⟩ := bdRuns (b32LengthOk_of_good_class h) h2
    exact ⟨hb, if_pos hb, hout⟩
  · obtain ⟨hb, hout⟩ := bcRuns (b32LengthOk_of_good_class h) h2
    exact ⟨hb, if_pos hb, hout⟩

/-! ## An offer that is accepted (R201, R203) -/

/-- The inputs are no part of a buffer. -/
@[simp] theorem srcRead_inputs (s : State) (rest : List Input) (u : UnitId) (k : Nat) :
    State.srcRead { s with inputs := rest } u k = s.srcRead u k := by
  cases u <;> rfl

/-- What the acceptance of command `i` does to its unit, from state `s` to state `t`: OP and LEN are the command's, the
unit is DONE or BUSY as the length decides, and no element of a buffer changes. -/
structure Accepted (i : Instr) (s t : State) : Prop where
  op_eq : (t.regsOf (unitOf i)).op = opcode i
  len_eq : (t.regsOf (unitOf i)).len = i.len
  done : endsAtAcceptance s.params i = true → (t.regsOf (unitOf i)).status.state = .done
  busy : endsAtAcceptance s.params i = false → (t.regsOf (unitOf i)).status = ⟨.busy, .none, false⟩
  srcRead_eq (k : Nat) : t.srcRead (unitOf i) k = s.srcRead (unitOf i) k
  dstRead_eq (k : Nat) : t.dstRead (unitOf i) k = s.dstRead (unitOf i) k

/-- A unit that is not BUSY accepts a command that ends at its acceptance or has its source written. -/
theorem exists_accepted {i : Instr} {s : State} (hb : ¬(s.regsOf (unitOf i)).Busy)
    (hsrc : endsAtAcceptance s.params i = true ∨ ∀ k, k < i.len.toNat → (s.srcRead (unitOf i) k).isSome) :
    ∃ t, issueInstr i s = .next t ∧ Accepted i s t := by
  obtain ⟨α, o, accept, R, m, h⟩ := exists_commandOn s.params i
  have hregs := h.isUnit.regsOf_put (accept (o.get s)) s
  have hadmit : o.requireSource (accept (o.get s)) = .next (accept (o.get s)) := by
    refine requireSource_eq_next.mpr ⟨rfl, fun ⟨hbusy, hmissing⟩ => ?_⟩
    rcases hsrc with hends | hwritten
    · exact absurd (hbusy.symm.trans (h.done _ hends)) nofun
    · exact absurd (hmissing.symm.trans (h.ready hwritten)) nofun
  refine ⟨o.put (accept (o.get s)) s, ?_, hregs ▸ h.op_eq _, hregs ▸ h.len_eq _, hregs ▸ h.done _, hregs ▸ h.busy _,
    h.srcRead_eq s, h.dstRead_eq s⟩
  rw [h.isUnit.regsOf_eq] at hb
  rw [h.issue_eq rfl, UnitOps.issue, if_neg hb, hadmit, andThen_next]

/-- Settles O19: the offer is taken and its command accepted, which loads the unit and touches nothing else. -/
theorem acceptanceLoadsTheCommand : Obligations.AcceptanceLoadsTheCommand := by
  intro s w i rest hin hd hb hsrc
  obtain ⟨t, ht, hacc⟩ := exists_accepted (i := i) (s := { s with inputs := rest }) (by simpa using hb)
    (by simpa using hsrc)
  have hstep : step s = .next t := by
    rw [step_of_inputs hin, runInput, offer_of_not_busy hd hb, ht]
  exact ⟨t, hstep, issueInstr_sameOutside ht, hacc.op_eq, hacc.len_eq, hacc.done, hacc.busy,
    fun k => (hacc.srcRead_eq k).trans (srcRead_inputs s rest _ k),
    fun k => (hacc.dstRead_eq k).trans (dstRead_inputs s rest _ k)⟩

/-! ## An offer that waits (R201, U16) -/

/-- An offer to a BUSY unit stays at the head of the inputs. -/
theorem offer_of_busy {w : CommandWord} {i : Instr} {s : State} (hd : decode w = .ok i)
    (hb : (s.regsOf (unitOf i)).Busy) (run : Instr → State → Host.Outcome State Fault Refusal) (rest : List Input) :
    offer w run rest s = run i s := by
  simp only [offer, hd, if_pos hb]

/-- Settles O20: in either form the offer is the unit's own turn, which keeps OP, LEN and all that lies outside the
unit. -/
theorem offerToABusyUnitWaits : Obligations.OfferToABusyUnitWaits := by
  intro s w i rest hd hb hin
  have hstep : step s = takeTurnOf (unitOf i) s := by
    rcases hin with hin | hin
    · exact (step_of_inputs hin).trans ((offer_of_busy hd hb exec rest).trans (exec_of_busy hb))
    · exact (step_of_inputs hin).trans ((offer_of_busy hd hb issueInstr rest).trans (issueInstr_of_busy hb))
  refine ⟨hstep, exec_of_busy hb, fun t ht => ?_⟩
  rw [hstep] at ht
  obtain ⟨-, hinputs, -⟩ := takeTurnOf_sameOutside ht
  obtain ⟨hop, hlen, -⟩ := takeTurnOf_keptInTurn ht
  exact ⟨hinputs, hop, hlen⟩

/-! ## The host's write of SRC (R200 (a), R263, R267) -/

/-- The width in bits of an element of the SRC of a unit, in a block with parameters `p` (R12, R62). -/
def srcWidth (p : Params) : UnitId → Nat
  | .hexEncoder | .base32Encoder => 8
  | .hexDecoder | .base32Decoder => p.charW

/-- What a host's write of `v` to element `i` of the SRC of unit `u` does: that element holds it, and nothing else
changes. -/
structure Written (u : UnitId) (i : LenWord) (v : Nat) (s t : State) : Prop where
  outside : SameOutside u s t
  regs_eq : t.regsOf u = s.regsOf u
  written : t.srcRead u i.toNat = some v
  others (k : Nat) : k ≠ i.toNat → t.srcRead u k = s.srcRead u k
  dstRead_eq (k : Nat) : t.dstRead u k = s.dstRead u k
  working : SameWorking u s t

/-- A byte as a number is the value written, where it fits. -/
theorem toNat_ofNat_byte {v : Nat} (hv : v < 2 ^ 8) : (BitVec.ofNat 8 v).toNat = v :=
  (BitVec.toNat_ofNat v 8).trans (Nat.mod_eq_of_lt hv)

theorem andThen_of_refused {α β : Type} {o : Host.Outcome α Fault Refusal} {f : α → Host.Outcome β Fault Refusal}
    {r : Refusal} (h : o = .refused r) : andThen o f = .refused r := by
  rw [h, andThen_refused]

section WriteElement
variable {α : Type} {mk : Nat → α} {width : Nat} {u : UnitId} {r : Regs} {b : Buffer α} {i : LenWord} {v : Nat}

theorem writeElement_of_fits (hb : ¬r.Busy) (hv : v < 2 ^ width) :
    writeElement mk width u r b i v = .next (b.write i.toNat (mk v)) := writeElement_eq_next.mpr ⟨hb, hv, rfl⟩

theorem writeElement_of_too_wide (hb : ¬r.Busy) (hv : 2 ^ width ≤ v) :
    writeElement mk width u r b i v = .refused (.elementTooWide u) := by
  rw [writeElement, if_neg hb, if_neg (Nat.not_lt.mpr hv)]

end WriteElement

section HostWriteSrc
variable {u : UnitId} {i : LenWord} {v : Nat} {s : State} (hb : ¬(s.regsOf u).Busy)
include hb

/-- A write of a value that fits goes on, on a unit that is not BUSY. -/
theorem hostWriteSrc_of_fits (hv : v < 2 ^ srcWidth s.params u) :
    ∃ t, hostWriteSrc u i v s = .next t ∧ Written u i v s t := by
  cases u with
  | hexEncoder =>
    refine ⟨_, andThen_eq_next.mpr ⟨_, writeElement_of_fits hb hv, rfl⟩, hexEncoderOps_local _ s, rfl, ?_,
      fun k hk => ?_, fun _ => rfl, trivial⟩
    · simp [State.srcRead, toNat_ofNat_byte hv]
    · simp [State.srcRead, hk]
  | hexDecoder =>
    refine ⟨_, andThen_eq_next.mpr ⟨_, writeElement_of_fits hb hv, rfl⟩, hexDecoderOps_local _ s, rfl, ?_,
      fun k hk => ?_, fun _ => rfl, rfl⟩
    · simp [State.srcRead]
    · simp [State.srcRead, hk]
  | base32Encoder =>
    refine ⟨_, andThen_eq_next.mpr ⟨_, writeElement_of_fits hb hv, rfl⟩, base32EncoderOps_local _ s, rfl, ?_,
      fun k hk => ?_, fun _ => rfl, rfl, rfl⟩
    · simp [State.srcRead, toNat_ofNat_byte hv]
    · simp [State.srcRead, hk]
  | base32Decoder =>
    refine ⟨_, andThen_eq_next.mpr ⟨_, writeElement_of_fits hb hv, rfl⟩, base32DecoderOps_local _ s, rfl, ?_,
      fun k hk => ?_, fun _ => rfl, rfl, rfl, rfl⟩
    · simp [State.srcRead]
    · simp [State.srcRead, hk]

/-- A write of a value that does not fit its element is refused (R263, R267). -/
theorem hostWriteSrc_of_too_wide (hv : 2 ^ srcWidth s.params u ≤ v) :
    hostWriteSrc u i v s = .refused (.elementTooWide u) := by
  cases u <;> exact andThen_of_refused (writeElement_of_too_wide hb hv)

end HostWriteSrc

/-- Settles O55: the write comes to a unit that is not BUSY, and the element's width decides it. -/
theorem hostWriteLandsInTheSource : Obligations.HostWriteLandsInTheSource := by
  intro s u i v rest hin hb bound
  have hbound : bound = 2 ^ srcWidth s.params u := by cases u <;> rfl
  have hb' : ¬(State.regsOf { s with inputs := rest } u).Busy := by simpa using hb
  rw [hbound]
  refine ⟨fun hv => ?_, fun hv => (step_of_inputs hin).trans (hostWriteSrc_of_too_wide hb' hv)⟩
  obtain ⟨t, ht, h⟩ := hostWriteSrc_of_fits (i := i) hb' hv
  refine ⟨t, (step_of_inputs hin).trans ht, h.outside, h.regs_eq.trans (regsOf_inputs s u rest), h.written,
    fun k hk => (h.others k hk).trans (srcRead_inputs s rest u k),
    fun k => (h.dstRead_eq k).trans (dstRead_inputs s rest u k), ?_⟩
  have hworking := h.working
  cases u <;> exact hworking

end Sys2Proof.Machine

/-! PROOFS. The canonical form of a UUID, and the four UUID adapters: the host fills SRC, one command runs, and the host
reads DST (45_uuid_pseudo_ops.md R221 to R227). -/

namespace Sys2Proof.Machine

/-! ## The canonical form (R221) -/

/-- The permutation of R221 takes each of the first three fields to itself reversed, so twice it moves nothing. -/
theorem uuidCanon_uuidCanon (layout : UuidLayout) (n : Vector Byte 16) : uuidCanon layout (uuidCanon layout n) = n := by
  cases layout with
  | bigEndian => rfl
  | littleEndianFields =>
    refine Vector.ext fun i hi => ?_
    interval_cases i <;> rfl

/-- Settles O58: `uncanon` is the permutation of `canon`, which undoes itself. -/
theorem uuidCanonicalFormReversesThreeFields : Obligations.UuidCanonicalFormReversesThreeFields :=
  ⟨fun _ => ⟨rfl, rfl, rfl, rfl⟩, fun layout n => ⟨uuidCanon_uuidCanon layout n, uuidCanon_uuidCanon layout n⟩⟩

/-! ## The host fills a SRC (R200 (a)) -/

theorem SameOutside.trans {u : UnitId} {r s t : State} (h₁ : SameOutside u r s) (h₂ : SameOutside u s t) :
    SameOutside u r t := by
  obtain ⟨hunits₁, hinputs₁, hanswer₁, hfresh₁, hparams₁⟩ := h₁
  obtain ⟨hunits₂, hinputs₂, hanswer₂, hfresh₂, hparams₂⟩ := h₂
  exact ⟨fun v hv => (hunits₁ v hv).trans (hunits₂ v hv), hinputs₂.trans hinputs₁, hanswer₂.trans hanswer₁,
    hfresh₂.trans hfresh₁, hparams₂.trans hparams₁⟩

/-- What writing the elements `xs` to the SRC of unit `u` from index `i` on does: they are there, and nothing before
them, no register and nothing outside the unit has changed. -/
structure SourceFilled (u : UnitId) (i : Nat) (xs : List Nat) (s t : State) : Prop where
  outside : SameOutside u s t
  regs_eq : t.regsOf u = s.regsOf u
  filled (k : Nat) : k < xs.length → t.srcRead u (i + k) = xs[k]?
  before (k : Nat) : k < i → t.srcRead u k = s.srcRead u k

/-- A write and the writes behind it fill one element more. -/
theorem SourceFilled.cons {u : UnitId} {i : Nat} {x : Nat} {xs : List Nat} {r s t : State} (hi : i < 2 ^ 32)
    (h₁ : Written u (BitVec.ofNat 32 i) x r s) (h₂ : SourceFilled u (i + 1) xs s t) :
    SourceFilled u i (x :: xs) r t := by
  have hindex : (BitVec.ofNat 32 i).toNat = i := (BitVec.toNat_ofNat i 32).trans (Nat.mod_eq_of_lt hi)
  refine ⟨h₁.outside.trans h₂.outside, h₂.regs_eq.trans h₁.regs_eq, fun k hk => ?_, fun k hk => ?_⟩
  · cases k with
    | zero =>
      have hwritten := h₁.written
      rw [hindex] at hwritten
      exact (h₂.before i i.lt_succ_self).trans hwritten
    | succ k =>
      have hfilled := h₂.filled k (Nat.lt_of_succ_lt_succ hk)
      rwa [Nat.add_right_comm, Nat.add_assoc] at hfilled
  · exact (h₂.before k (hk.trans i.lt_succ_self)).trans (h₁.others k (hindex.symm ▸ hk.ne))

/-- On a unit that is not BUSY, values that fit their elements are written one after another. -/
theorem hostWriteList_of_fits {u : UnitId} (xs : List Nat) {i : Nat} {s : State} (hb : ¬(s.regsOf u).Busy)
    (hi : i + xs.length ≤ 2 ^ 32) (hfit : ∀ x ∈ xs, x < 2 ^ srcWidth s.params u) :
    ∃ t, hostWriteList u i xs s = .next t ∧ SourceFilled u i xs s t := by
  induction xs generalizing i s with
  | nil => exact ⟨s, rfl, SameOutside.refl u s, rfl, nofun, fun _ _ => rfl⟩
  | cons x xs ih =>
    obtain ⟨hx, hxs⟩ := List.forall_mem_cons.mp hfit
    rw [List.length_cons] at hi
    obtain ⟨s₁, h₁, hwritten⟩ := hostWriteSrc_of_fits (i := BitVec.ofNat 32 i) hb hx
    obtain ⟨t, h₂, hfilled⟩ := ih (i := i + 1) (hwritten.regs_eq ▸ hb) (by omega)
      (hwritten.outside.params_eq.symm ▸ hxs)
    exact ⟨t, by rw [hostWriteList, h₁, andThen_next, h₂], hfilled.cons (by omega) hwritten⟩

/-- So the host fills a SRC from its first element on. -/
theorem hostWriteList_fills {u : UnitId} {xs : List Nat} {s : State} (hb : ¬(s.regsOf u).Busy)
    (hlen : xs.length ≤ 2 ^ 32) (hfit : ∀ x ∈ xs, x < 2 ^ srcWidth s.params u) :
    ∃ t, hostWriteList u 0 xs s = .next t ∧ SameOutside u s t ∧ ¬(t.regsOf u).Busy ∧
      ∀ k, k < xs.length → t.srcRead u k = xs[k]? := by
  obtain ⟨t, ht, h⟩ := hostWriteList_of_fits xs (i := 0) hb (by omega) hfit
  exact ⟨t, ht, h.outside, h.regs_eq ▸ hb, fun k hk => by simpa only [Nat.zero_add] using h.filled k hk⟩

/-- The numbers of bytes fit the SRC of an encoder (R62). -/
theorem map_toNat_fits (bs : List Byte) : ∀ x ∈ bs.map (·.toNat), x < 2 ^ 8 :=
  List.forall_mem_map.mpr fun b _ => b.isLt

/-- A SRC whose elements are, as numbers, those of some bytes holds the bytes. -/
theorem holds_of_map_toNat {b : Buffer Byte} {bs : List Byte}
    (h : ∀ k, k < (bs.map (·.toNat)).length → (b.read k).map (·.toNat) = (bs.map (·.toNat))[k]?) : b.Holds bs :=
  fun k hk => map_toNat_inj ((h k (by rwa [List.length_map])).trans List.getElem?_map)

/-! ## An encoder's command by its bound alone (R132, R162, R231) -/

/-- The defaults obey the constraints on the parameters (92_eei_decisions.md). -/
theorem Params.defaults_legal : Params.defaults.Legal := by decide

section Encoders
variable {len : LenWord} {bs : List Byte} {s : State}

/-- What an acceptance does is the same at every bound the length is within. -/
theorem acceptEncode_of_bounds {op : OpCode} {maxIn maxIn' : Nat} {outLength : Nat → Nat} {r : Regs}
    (h : len.toNat ≤ maxIn) (h' : len.toNat ≤ maxIn') :
    acceptEncode op maxIn outLength len r = acceptEncode op maxIn' outLength len r := by
  rw [acceptEncode, acceptEncode, if_neg h.not_gt, if_neg h'.not_gt]

/-- TOHEX of a length within the block's bound and the default one writes the text of the source, be the block's
parameters legal or not: it runs as in a block with the default parameters. -/
theorem exec_toHex_writes_text (hb : ¬s.hexEncoder.regs.Busy) (hmax : len.toNat ≤ s.params.hexMaxIn)
    (hdefault : len.toNat ≤ Params.defaults.hexMaxIn) (hlen : bs.length = len.toNat)
    (hsrc : s.hexEncoder.src.Holds bs) :
    ∃ t, exec (.toHex len) s = .next t ∧ t.hexEncoder.regs.status = ⟨.done, .none, false⟩ ∧
      t.hexEncoder.dst.Holds (hexEncode bs) := by
  obtain ⟨u, hu, -, -, -, hstatus, -, -, htext, -⟩ :=
    toHexWritesTheTextOfTheSource len bs { s with params := .defaults } Params.defaults_legal hb hdefault hlen hsrc
  have hunit : SameUnit .hexEncoder { s with params := .defaults } s := rfl
  obtain ⟨t, ht, hsame⟩ := hexEncoderOps_sees.call hunit hu
  have haccept : acceptToHex s.params len = acceptToHex .defaults len :=
    funext fun x => by rw [acceptToHex, acceptToHex, acceptEncode_of_bounds hmax hdefault]
  refine ⟨t, by rw [exec, execToHex, haccept]; exact ht, ?_⟩
  rw [show t.hexEncoder = u from hsame]
  exact ⟨hstatus, htext⟩

/-- TOBASE32 of a length within both bounds writes the text of the source, for the same reason. -/
theorem exec_toBase32_writes_text (hb : ¬s.base32Encoder.regs.Busy) (hmax : len.toNat ≤ s.params.b32MaxIn)
    (hdefault : len.toNat ≤ Params.defaults.b32MaxIn) (hlen : bs.length = len.toNat)
    (hsrc : s.base32Encoder.src.Holds bs) :
    ∃ t, exec (.toBase32 len) s = .next t ∧ t.base32Encoder.regs.status = ⟨.done, .none, false⟩ ∧
      t.base32Encoder.dst.Holds (b32Encode bs) := by
  obtain ⟨u, hu, -, -, -, hstatus, -, -, htext, -⟩ :=
    toBase32WritesTheTextOfTheSource len bs { s with params := .defaults } Params.defaults_legal hb hdefault hlen hsrc
  have hunit : SameUnit .base32Encoder { s with params := .defaults } s := rfl
  obtain ⟨t, ht, hsame⟩ := base32EncoderOps_sees.call hunit hu
  have haccept : acceptToBase32 s.params len = acceptToBase32 .defaults len :=
    funext fun x => by simp only [acceptToBase32, acceptEncode_of_bounds hmax hdefault]
  refine ⟨t, by rw [exec, execToBase32, haccept]; exact ht, ?_⟩
  rw [show t.base32Encoder = u from hsame]
  exact ⟨hstatus, htext⟩

/-- TOHEX of a length beyond the bound changes the registers only. -/
theorem acceptToHex_of_too_long {p : Params} {u : HexEncoder} (hlong : p.hexMaxIn < len.toNat) :
    acceptToHex p len u = { u with regs := raise .outOfRange (load 0b000#3 len u.regs) } := by
  rw [acceptToHex, acceptEncode_of_too_long hlong]

/-- TOBASE32 of a length beyond the bound changes the registers only. -/
theorem acceptToBase32_of_too_long {p : Params} {u : Base32Encoder} (hlong : p.b32MaxIn < len.toNat) :
    acceptToBase32 p len u = { u with regs := raise .outOfRange (load 0b100#3 len u.regs) } := by
  simp only [acceptToBase32, acceptEncode_of_too_long hlong, not_busy_raise, ↓reduceIte]

/-- So the command is its acceptance. -/
theorem exec_toHex_of_too_long (hb : ¬s.hexEncoder.regs.Busy) (hlong : s.params.hexMaxIn < len.toNat) :
    exec (.toHex len) s = .next { s with hexEncoder := { s.hexEncoder with
      regs := raise .outOfRange (load 0b000#3 len s.hexEncoder.regs) } } :=
  UnitOps.call_of_accept_ends (o := hexEncoderOps) hb (acceptToHex_of_too_long hlong) nofun

/-- So the command is its acceptance. -/
theorem exec_toBase32_of_too_long (hb : ¬s.base32Encoder.regs.Busy) (hlong : s.params.b32MaxIn < len.toNat) :
    exec (.toBase32 len) s = .next { s with base32Encoder := { s.base32Encoder with
      regs := raise .outOfRange (load 0b100#3 len s.base32Encoder.regs) } } :=
  UnitOps.call_of_accept_ends (o := base32EncoderOps) hb (acceptToBase32_of_too_long hlong) nofun

end Encoders

/-! ## The host reads a DST -/

/-- The first elements of a buffer that holds a list are the list, whatever the free values. -/
theorem Buffer.Holds.elements_eq {α : Type} {b : Buffer α} {xs : List α} (h : b.Holds xs) (free : Nat → α) {n : Nat}
    (hn : xs.length = n) : b.elements free n = xs := by
  subst hn
  refine List.ext_getElem (by simp [Buffer.elements]) fun i _ hi => ?_
  simp [Buffer.elements, h i hi, hi]

/-- The canonical bytes of the UUID read from a buffer that holds 16 bytes are those bytes. -/
theorem uuidCanon_readUuid {b : Buffer Byte} {bs : List Byte} (h : b.Holds bs) (hlen : bs.length = 16)
    (layout : UuidLayout) : (uuidCanon layout (readUuid layout b)).toList = bs := by
  calc (uuidCanon layout (readUuid layout b)).toList
      = b.elements Config.freeByte 16 := by rw [readUuid, uuidUncanon, uuidCanon_uuidCanon]; rfl
    _ = bs := h.elements_eq _ hlen

/-! ## The text of a UUID (R223, R224) -/

theorem length_hexEncode_uuid (u : Vector Byte 16) : (hexEncode u.toList).length = 32 := by simp

theorem length_b32Encode_uuid (u : Vector Byte 16) : (b32Encode u.toList).length = 26 := by simp [toBase32Length]

section TextOfUuid
variable {layout : UuidLayout} {n : Vector Byte 16} {s : State}

theorem toHexUuid_of_bound (hb : ¬s.hexEncoder.regs.Busy) (hmax : 16 ≤ s.params.hexMaxIn) :
    ∃ t, toHexUuid layout n s = .next (t, .ok (hexEncode (uuidCanon layout n).toList)) ∧
      SameOutside .hexEncoder s t := by
  obtain ⟨s₁, h₁, houtside, hb₁, hsrc⟩ := hostWriteList_fills (u := .hexEncoder) hb (by simp)
    (map_toNat_fits (uuidCanon layout n).toList)
  obtain ⟨t, ht, hstatus, htext⟩ := exec_toHex_writes_text (len := 16) hb₁ (houtside.params_eq ▸ hmax) (by decide)
    Vector.length_toList (holds_of_map_toNat hsrc)
  refine ⟨t, ?_, houtside.trans (unitOf_toHex 16 ▸ exec_sameOutside ht)⟩
  rw [toHexUuid, h₁, andThen_next, ht, andThen_next, hstatus, if_neg nofun,
    htext.elements_eq _ (length_hexEncode_uuid _)]

theorem toBase32Uuid_of_bound (hb : ¬s.base32Encoder.regs.Busy) (hmax : 16 ≤ s.params.b32MaxIn) :
    ∃ t, toBase32Uuid layout n s = .next (t, .ok (b32Encode (uuidCanon layout n).toList)) ∧
      SameOutside .base32Encoder s t := by
  obtain ⟨s₁, h₁, houtside, hb₁, hsrc⟩ := hostWriteList_fills (u := .base32Encoder) hb (by simp)
    (map_toNat_fits (uuidCanon layout n).toList)
  obtain ⟨t, ht, hstatus, htext⟩ := exec_toBase32_writes_text (len := 16) hb₁ (houtside.params_eq ▸ hmax) (by decide)
    Vector.length_toList (holds_of_map_toNat hsrc)
  refine ⟨t, ?_, houtside.trans (unitOf_toBase32 16 ▸ exec_sameOutside ht)⟩
  rw [toBase32Uuid, h₁, andThen_next, ht, andThen_next, hstatus, if_neg nofun,
    htext.elements_eq _ (length_b32Encode_uuid _)]

theorem toHexUuid_of_low_bound (hb : ¬s.hexEncoder.regs.Busy) (hlow : s.params.hexMaxIn < 16) :
    ∃ t, toHexUuid layout n s = .next (t, .error .outOfRange) ∧ SameOutside .hexEncoder s t := by
  obtain ⟨s₁, h₁, houtside, hb₁, -⟩ := hostWriteList_fills (u := .hexEncoder) hb (by simp)
    (map_toNat_fits (uuidCanon layout n).toList)
  have ht := exec_toHex_of_too_long (len := 16) hb₁ (houtside.params_eq ▸ hlow)
  refine ⟨_, ?_, houtside.trans (unitOf_toHex 16 ▸ exec_sameOutside ht)⟩
  rw [toHexUuid, h₁, andThen_next, ht, andThen_next]
  exact if_pos rfl

theorem toBase32Uuid_of_low_bound (hb : ¬s.base32Encoder.regs.Busy) (hlow : s.params.b32MaxIn < 16) :
    ∃ t, toBase32Uuid layout n s = .next (t, .error .outOfRange) ∧ SameOutside .base32Encoder s t := by
  obtain ⟨s₁, h₁, houtside, hb₁, -⟩ := hostWriteList_fills (u := .base32Encoder) hb (by simp)
    (map_toNat_fits (uuidCanon layout n).toList)
  have ht := exec_toBase32_of_too_long (len := 16) hb₁ (houtside.params_eq ▸ hlow)
  refine ⟨_, ?_, houtside.trans (unitOf_toBase32 16 ▸ exec_sameOutside ht)⟩
  rw [toBase32Uuid, h₁, andThen_next, ht, andThen_next]
  exact if_pos rfl

end TextOfUuid

/-- Settles O59: the host's writes fill SRC with the canonical bytes, and the bound decides whether TOHEX or TOBASE32 of
them runs. -/
theorem uuidTextIsTheTextOfItsCanonicalBytes : Obligations.UuidTextIsTheTextOfItsCanonicalBytes := by
  intro layout n s
  refine ⟨fun hb hmax => ?_, fun hb hmax => ?_, toHexUuid_of_low_bound, toBase32Uuid_of_low_bound⟩
  · obtain ⟨t, ht, houtside⟩ := toHexUuid_of_bound hb hmax
    exact ⟨t, ht, houtside, length_hexEncode_uuid _⟩
  · obtain ⟨t, ht, houtside⟩ := toBase32Uuid_of_bound hb hmax
    exact ⟨t, ht, houtside, length_b32Encode_uuid _⟩

/-! ## A decode of a good length and an invalid text (R233) -/

section Rejects
variable {len : LenWord} {cs : List Chr} {s : State}

theorem exec_fromHex_of_invalid (hb : ¬s.hexDecoder.regs.Busy) (heven : hexLengthOk len.toNat = true)
    (hlen : cs.length = len.toNat) (hsrc : s.hexDecoder.src.Holds cs) (hinvalid : hexValid cs = false) :
    ∃ t, exec (.fromHex len) s = .next t ∧ t.hexDecoder.regs.status.err = .invalidCharacter := by
  obtain ⟨u, hu, h, hend⟩ := hexDecoderCall_ends (op := 0b010#3) hb (fun _ => heven) hlen hsrc le_rfl
  refine ⟨_, hu, ?_⟩
  cases h.progress with
  | scanning hstatus => simp [Regs.Busy, hstatus] at hend
  | emitting _ _ hstatus => simp [Regs.Busy, hstatus] at hend
  | checked hv => exact absurd hv nofun
  | rejected _ _ hstatus => rw [hstatus]
  | decoded _ _ hbs => simp [← isSome_hexDecode, hbs] at hinvalid

theorem exec_fromBase32_of_invalid (hb : ¬s.base32Decoder.regs.Busy) (hok : b32LengthOk len.toNat = true)
    (hlen : cs.length = len.toNat) (hsrc : s.base32Decoder.src.Holds cs) (hinvalid : b32Valid cs = false) :
    ∃ t, exec (.fromBase32 len) s = .next t ∧ t.base32Decoder.regs.status.err = .invalidCharacter := by
  have hfuel : len.toNat + 1 + (len.toNat + 1) ≤ 2 * len.toNat + 2 := by omega
  obtain ⟨u, hu, h, hend⟩ := base32DecoderCall_ends (op := 0b110#3) hb (fun _ => hok) hlen hsrc hfuel
  refine ⟨_, hu, ?_⟩
  cases h.progress with
  | scanning hs => simp [Regs.Busy, hs.status] at hend
  | emitting _ he => simp [Regs.Busy, he.status] at hend
  | checked hv => exact absurd hv nofun
  | rejected _ _ hstatus => rw [hstatus]
  | decoded _ _ hbs => simp [(b32Decode_eq_some_iff.mp hbs).1] at hinvalid

end Rejects

/-! ## The UUID of a text (R225, R226) -/

section UuidOfText
variable {layout : UuidLayout} {cs : List Chr} {bs : List Byte} {s : State}
  (hfit : ∀ c ∈ cs, c < 2 ^ s.params.charW)
include hfit

theorem fromHexUuid_of_invalid (hlen : cs.length = 32) (hb : ¬s.hexDecoder.regs.Busy) (hinvalid : hexValid cs = false) :
    ∃ t, fromHexUuid layout cs s = .next (t, .error .invalidCharacter) ∧ SameOutside .hexDecoder s t := by
  obtain ⟨s₁, h₁, houtside, hb₁, hsrc⟩ := hostWriteList_fills (u := .hexDecoder) hb (by omega) hfit
  obtain ⟨t, ht, herr⟩ := exec_fromHex_of_invalid (len := 32) hb₁ rfl hlen hsrc hinvalid
  refine ⟨t, ?_, houtside.trans (unitOf_fromHex 32 ▸ exec_sameOutside ht)⟩
  rw [fromHexUuid, if_pos hlen, h₁, andThen_next, ht, andThen_next, if_pos herr]

theorem fromBase32Uuid_of_invalid (hlen : cs.length = 26) (hb : ¬s.base32Decoder.regs.Busy)
    (hinvalid : b32Valid cs = false) :
    ∃ t, fromBase32Uuid layout cs s = .next (t, .error .invalidCharacter) ∧ SameOutside .base32Decoder s t := by
  obtain ⟨s₁, h₁, houtside, hb₁, hsrc⟩ := hostWriteList_fills (u := .base32Decoder) hb (by omega) hfit
  obtain ⟨t, ht, herr⟩ := exec_fromBase32_of_invalid (len := 26) hb₁ rfl hlen hsrc hinvalid
  refine ⟨t, ?_, houtside.trans (unitOf_fromBase32 26 ▸ exec_sameOutside ht)⟩
  rw [fromBase32Uuid, if_pos hlen, h₁, andThen_next, ht, andThen_next, if_pos herr]

theorem fromHexUuid_of_hexDecode (hlen : cs.length = 32) (hb : ¬s.hexDecoder.regs.Busy) (hbs : hexDecode cs = some bs) :
    ∃ t n, fromHexUuid layout cs s = .next (t, .ok n) ∧ SameOutside .hexDecoder s t ∧
      (uuidCanon layout n).toList = bs := by
  obtain ⟨s₁, h₁, houtside, hb₁, hsrc⟩ := hostWriteList_fills (u := .hexDecoder) hb (by omega) hfit
  obtain ⟨u, hu, -, -, -, hstatus, -, hlength, hbytes, -⟩ :=
    fromHexWritesTheBytesOfTheSource 32 cs bs s₁ hb₁ hlen hsrc hbs
  refine ⟨_, readUuid layout u.dst, ?_, houtside.trans (unitOf_fromHex 32 ▸ exec_sameOutside hu),
    uuidCanon_readUuid hbytes hlength layout⟩
  rw [fromHexUuid, if_pos hlen, h₁, andThen_next, hu, andThen_next, hstatus, if_neg nofun]

theorem fromBase32Uuid_of_b32Decode (hlen : cs.length = 26) (hb : ¬s.base32Decoder.regs.Busy)
    (hbs : b32Decode cs = some bs) :
    ∃ t n, fromBase32Uuid layout cs s = .next (t, .ok n) ∧ SameOutside .base32Decoder s t ∧
      (uuidCanon layout n).toList = bs := by
  obtain ⟨s₁, h₁, houtside, hb₁, hsrc⟩ := hostWriteList_fills (u := .base32Decoder) hb (by omega) hfit
  obtain ⟨u, hu, -, -, -, hstatus, -, hlength, hbytes, -⟩ :=
    fromBase32WritesTheBytesOfTheSource 26 cs bs s₁ hb₁ hlen hsrc hbs
  refine ⟨_, readUuid layout u.dst, ?_, houtside.trans (unitOf_fromBase32 26 ▸ exec_sameOutside hu),
    uuidCanon_readUuid hbytes hlength layout⟩
  rw [fromBase32Uuid, if_pos hlen, h₁, andThen_next, hu, andThen_next, hstatus, if_neg nofun]

end UuidOfText

/-- Settles O60: the host checks the length, its writes fill SRC with the text, and the decode of it ends with the error
or with the bytes the host reads. -/
theorem uuidOfATextIsItsDecoding : Obligations.UuidOfATextIsItsDecoding := fun _ _ _ hfit =>
  ⟨fun hlen => if_neg hlen, fun hlen => if_neg hlen, fromHexUuid_of_invalid hfit, fromBase32Uuid_of_invalid hfit,
    fun _ => fromHexUuid_of_hexDecode hfit, fun _ => fromBase32Uuid_of_b32Decode hfit⟩

end Sys2Proof.Machine

/-! PROOFS. The ends of a command with an error, and that no other command has one (60_exceptions.md R230 to R239). -/

namespace Sys2Proof.Machine

/-! ## Ends at acceptance (R231, R239) -/

/-- Settles O29: acceptance raises OutOfRange, and there is nothing left to run. -/
theorem tooLongAnInputIsOutOfRange : Obligations.TooLongAnInputIsOutOfRange := fun _ _ =>
  ⟨exec_toHex_of_too_long, exec_toBase32_of_too_long⟩

/-- ISHEX of a bad length changes the registers only (R145). -/
theorem acceptHexDecoder_of_bad_check {op : OpCode} {len : LenWord} {u : HexDecoder}
    (hlen : hexLengthOk len.toNat = false) (hv : op.getLsbD 0 = true) :
    acceptHexDecoder op len u = { u with regs := endAtOnce false (load op len u.regs) } := by
  simp only [acceptHexDecoder, acceptDecode_of_bad_check hlen hv, not_busy_endAtOnce, ↓reduceIte]

/-- ISBASE32 of a bad length changes the registers only (R185). -/
theorem acceptBase32Decoder_of_bad_check {op : OpCode} {len : LenWord} {u : Base32Decoder}
    (hlen : b32LengthOk len.toNat = false) (hv : op.getLsbD 0 = true) :
    acceptBase32Decoder op len u = { u with regs := endAtOnce false (load op len u.regs) } := by
  simp only [acceptBase32Decoder, acceptDecode_of_bad_check hlen hv, not_busy_endAtOnce, ↓reduceIte]

/-- Settles O31: acceptance answers 0 without an error, and there is nothing left to run. -/
theorem badLengthValidatesToFalse : Obligations.BadLengthValidatesToFalse := by
  refine fun len s => ⟨fun hb hlen => ?_, fun hb hlen => ?_⟩
  · have haccept := acceptHexDecoder_of_bad_check (op := 0b011#3) (u := s.hexDecoder) (hexLengthOk_of_odd hlen) rfl
    exact UnitOps.call_of_accept_ends (o := hexDecoderOps) hb haccept nofun
  · have haccept := acceptBase32Decoder_of_bad_check (op := 0b111#3) (u := s.base32Decoder)
      (b32LengthOk_of_bad_class hlen) rfl
    exact UnitOps.call_of_accept_ends (o := base32DecoderOps) hb haccept nofun

/-- The refused classes of R181. -/
theorem b32LengthOk_eq_false_iff {n : Nat} : b32LengthOk n = false ↔ n % 8 = 1 ∨ n % 8 = 3 ∨ n % 8 = 6 := by
  rw [Bool.eq_false_iff, Ne, b32LengthOk_iff]
  omega

/-! ## An invalid character (R233) -/

/-- A text of a good length is invalid by its characters alone. -/
theorem hexValid_eq_false_iff {cs : List Chr} (hok : hexLengthOk cs.length = true) :
    hexValid cs = false ↔ ∃ c ∈ cs, hexval c = none := by
  have heven : cs.length % 2 = 0 := by simpa [hexLengthOk] using hok
  rw [← Bool.not_eq_true, hexValid_iff]
  simp [heven]

/-- A text of a good length is invalid by its characters alone. -/
theorem b32Valid_eq_false_iff {cs : List Chr} (hok : b32LengthOk cs.length = true) :
    b32Valid cs = false ↔ ∃ c ∈ cs, b32val c = none := by
  rw [← Bool.not_eq_true, b32Valid_iff]
  simp [hok]

/-- Settles O32: the SCAN pass of a decode meets an invalid character before anything is written. -/
theorem badCharacterIsInvalidCharacter : Obligations.BadCharacterIsInvalidCharacter := by
  refine fun len cs s hlen => ⟨fun hb heven hsrc hbad => ?_, fun hb hok hsrc hbad => ?_⟩
  · have hok := hexLengthOk_of_even heven
    have hinvalid := (hexValid_eq_false_iff (hlen ▸ hok)).mpr hbad
    obtain ⟨u, hu, h, hend⟩ := hexDecoderCall_ends (op := 0b010#3) hb (fun _ => hok) hlen hsrc le_rfl
    cases h.progress with
    | scanning hstatus => simp [Regs.Busy, hstatus] at hend
    | emitting _ _ hstatus => simp [Regs.Busy, hstatus] at hend
    | checked hv => exact absurd hv nofun
    | rejected _ _ hstatus hout hdst => exact ⟨u, hu, h.op_eq, h.len_eq, hout, hstatus, h.src_eq, hdst⟩
    | decoded _ _ hbs => simp [← isSome_hexDecode, hbs] at hinvalid
  · have hinvalid := (b32Valid_eq_false_iff (hlen ▸ hok)).mpr hbad
    have hfuel : len.toNat + 1 + (len.toNat + 1) ≤ 2 * len.toNat + 2 := by omega
    obtain ⟨u, hu, h, hend⟩ := base32DecoderCall_ends (op := 0b110#3) hb (fun _ => hok) hlen hsrc hfuel
    cases h.progress with
    | scanning hs => simp [Regs.Busy, hs.status] at hend
    | emitting _ he => simp [Regs.Busy, he.status] at hend
    | checked hv => exact absurd hv nofun
    | rejected _ _ hstatus hout hdst => exact ⟨u, hu, h.op_eq, h.len_eq, hout, hstatus, h.src_eq, hdst⟩
    | decoded _ _ hbs => simp [(b32Decode_eq_some_iff.mp hbs).1] at hinvalid

/-! ## The source of a command that goes on (70_reset_and_hazards.md R263) -/

section Source
variable {α β : Type}

theorem Buffer.Holds.isSome_read {b : Buffer α} {xs : List α} (h : b.Holds xs) {k : Nat} (hk : k < xs.length) :
    (b.read k).isSome := by
  simp [h k hk, hk]

/-- A buffer written below `n` holds a list of `n` elements. -/
theorem Buffer.exists_holds {b : Buffer α} {n : Nat} (h : b.allWritten n = true) :
    ∃ xs : List α, xs.length = n ∧ b.Holds xs := by
  rw [Buffer.allWritten_iff] at h
  refine ⟨List.ofFn fun i : Fin n => (b.read i).get (h i i.isLt), List.length_ofFn, fun i hi => ?_⟩
  rw [List.length_ofFn] at hi
  simp [hi]

/-- Where an element of the source has a property, it is one of the characters. -/
theorem Buffer.Holds.exists_read_iff {b : Buffer α} {xs : List α} (h : b.Holds xs) {p : α → Prop} :
    (∃ k x, k < xs.length ∧ b.read k = some x ∧ p x) ↔ ∃ x ∈ xs, p x := by
  constructor
  · rintro ⟨k, x, hk, hread, hx⟩
    exact ⟨x, List.mem_of_getElem? ((h k hk).symm.trans hread), hx⟩
  · rintro ⟨x, hmem, hx⟩
    obtain ⟨k, hk, hget⟩ := List.mem_iff_getElem.mp hmem
    exact ⟨k, x, hk, by rw [h k hk, List.getElem?_eq_getElem hk, hget], hx⟩

/-- A command that goes on had all of its source, unless it ended at acceptance. -/
theorem UnitOps.exists_source {o : UnitOps α} {accept : α → α} {fuel n : Nat} {s t : State} {src : Buffer β}
    (hb : ¬(o.regs (o.get s)).Busy) (h : o.call fuel accept s = .next t)
    (hready : o.sourceReady (accept (o.get s)) = src.allWritten n)
    (hempty : ¬(o.regs (accept (o.get s))).Busy → n = 0) : ∃ xs : List β, xs.length = n ∧ src.Holds xs := by
  rcases call_eq_next h with ⟨hb', -⟩ | ⟨-, u, hadmit, -⟩
  · exact absurd hb' hb
  by_cases hbusy : (o.regs (accept (o.get s))).Busy
  · obtain ⟨rfl, -⟩ := requireSource_eq_next.mp hadmit
    exact Buffer.exists_holds (hready ▸ sourceReady_of_requireSource hadmit hbusy)
  · exact ⟨[], (hempty hbusy).symm, Buffer.holds_nil _⟩

end Source

section Sources
variable {op : OpCode} {maxIn fuel : Nat} {lengthOk : Nat → Bool} {outLength : Nat → Nat} {len : LenWord} {r : Regs}
  {s t : State}

/-- An encoder that an accepted length does not start was given no input. -/
theorem acceptEncode_empty_of_not_busy (hle : len.toNat ≤ maxIn) (hb : ¬(acceptEncode op maxIn outLength len r).Busy) :
    len.toNat = 0 := by
  by_contra h0
  rw [acceptEncode_of_runs (Nat.pos_of_ne_zero h0) hle] at hb
  exact hb rfl

/-- A decoder that an accepted length does not start was given no input. -/
theorem acceptDecode_empty_of_not_busy (hok : lengthOk len.toNat = true)
    (hb : ¬(acceptDecode op lengthOk outLength len r).Busy) : len.toNat = 0 := by
  by_contra h0
  rw [acceptDecode_of_nonempty hok fun h => h0 (congrArg BitVec.toNat h)] at hb
  exact hb rfl

theorem execToHex_source (hb : ¬s.hexEncoder.regs.Busy) (hle : len.toNat ≤ s.params.hexMaxIn)
    (h : execToHex len s = .next t) : ∃ bs : List Byte, bs.length = len.toNat ∧ s.hexEncoder.src.Holds bs :=
  UnitOps.exists_source hb h (by simp) (acceptEncode_empty_of_not_busy hle)

theorem execToBase32_source (hb : ¬s.base32Encoder.regs.Busy) (hle : len.toNat ≤ s.params.b32MaxIn)
    (h : execToBase32 len s = .next t) : ∃ bs : List Byte, bs.length = len.toNat ∧ s.base32Encoder.src.Holds bs :=
  UnitOps.exists_source hb h (by simp) (acceptEncode_empty_of_not_busy hle)

theorem hexDecoderCall_source (hb : ¬s.hexDecoder.regs.Busy) (hok : hexLengthOk len.toNat = true)
    (h : hexDecoderOps.call fuel (acceptHexDecoder op len) s = .next t) :
    ∃ cs : List Chr, cs.length = len.toNat ∧ s.hexDecoder.src.Holds cs :=
  UnitOps.exists_source hb h (by simp) (acceptDecode_empty_of_not_busy hok)

theorem base32DecoderCall_source (hb : ¬s.base32Decoder.regs.Busy) (hok : b32LengthOk len.toNat = true)
    (h : base32DecoderOps.call fuel (acceptBase32Decoder op len) s = .next t) :
    ∃ cs : List Chr, cs.length = len.toNat ∧ s.base32Decoder.src.Holds cs :=
  UnitOps.exists_source hb h (by simp) (acceptDecode_empty_of_not_busy hok)

end Sources

/-! ## How each command ends (R235, R237) -/

/-- Unit `u` has ended a command with error `e`: OUTLEN and RESULT are 0, and DST reads as it did in `s`. -/
structure EndsInError (u : UnitId) (e : Err) (s t : State) : Prop where
  status_eq : (t.regsOf u).status = ⟨.done, e, false⟩
  outlen_eq : (t.regsOf u).outlen = 0
  dst_same (k : Nat) : t.dstRead u k = s.dstRead u k

theorem EndsInError.err_eq {u : UnitId} {e : Err} {s t : State} (h : EndsInError u e s t) :
    (t.regsOf u).status.err = e := congrArg Status.err h.status_eq

/-- Unit `u` has ended a command without an error, its `n` elements of output written. -/
structure EndsWithOutput (u : UnitId) (n : Nat) (t : State) : Prop where
  done : (t.regsOf u).status.state = .done
  err_none : (t.regsOf u).status.err = .none
  outlen_eq : (t.regsOf u).outlen.toNat = n
  written (k : Nat) (hk : k < n) : (t.dstRead u k).isSome

/-- An element of `u.SRC` below `n` has been written and is a character without a value. -/
def InvalidSource {β : Type} (val : Chr → Option β) (u : UnitId) (n : Nat) (s : State) : Prop :=
  ∃ k c, k < n ∧ s.srcRead u k = some c ∧ val c = none

section Ends
variable {len : LenWord} {s t : State}

/-- An accepted length raises no error at acceptance. -/
theorem acceptEncode_err_none {op : OpCode} {maxIn : Nat} {outLength : Nat → Nat} {r : Regs} (hle : len.toNat ≤ maxIn) :
    (acceptEncode op maxIn outLength len r).status.err = .none := by
  rcases acceptEncode_cases op maxIn outLength len r with ⟨hlong, -⟩ | ⟨-, -, e⟩ | ⟨-, -, e⟩
  · exact absurd hlong hle.not_gt
  · rw [e]; rfl
  · rw [e]; rfl

/-- TOHEX of an accepted length raises no error, be the parameters legal or not. -/
theorem execToHex_err_none (hb : ¬s.hexEncoder.regs.Busy) (hle : len.toNat ≤ s.params.hexMaxIn)
    (h : execToHex len s = .next t) : t.hexEncoder.regs.status.err = .none := by
  have haccept : (acceptToHex s.params len s.hexEncoder).regs.status.err = .none := acceptEncode_err_none hle
  obtain ⟨v, hv, rfl⟩ := call_induction (o := hexEncoderOps) (P := fun u => u.regs.status.err = .none) hb h haccept
    fun u v hu _ hturn => by
      rcases hexEncoderTurn_cases hturn with ⟨b, -, -, rfl⟩ | ⟨-, rfl⟩
      · exact hu
      · rfl
  exact hv

/-- TOBASE32 of an accepted length raises no error, be the parameters legal or not. -/
theorem execToBase32_err_none (hb : ¬s.base32Encoder.regs.Busy) (hle : len.toNat ≤ s.params.b32MaxIn)
    (h : execToBase32 len s = .next t) : t.base32Encoder.regs.status.err = .none := by
  have haccept : (acceptToBase32 s.params len s.base32Encoder).regs.status.err = .none := acceptEncode_err_none hle
  obtain ⟨v, hv, rfl⟩ := call_induction (o := base32EncoderOps) (P := fun u => u.regs.status.err = .none) hb h haccept
    fun u v hu _ hturn => by
      rcases base32EncoderTurn_cases hturn with ⟨-, -, rfl⟩ | ⟨b, -, -, -, rfl⟩ | ⟨-, -, -, rfl⟩ | ⟨-, rfl⟩
      · rfl
      · exact hu
      · exact hu
      · exact hu
  exact hv

/-- TOHEX ends at acceptance for its length, or without an error; with legal parameters it then has its whole output. -/
theorem exec_toHex_ends (hb : ¬s.hexEncoder.regs.Busy) (h : exec (.toHex len) s = .next t) :
    (s.params.hexMaxIn < len.toNat ∧ EndsInError .hexEncoder .outOfRange s t) ∨
    (len.toNat ≤ s.params.hexMaxIn ∧ t.hexEncoder.regs.status.err = .none ∧
      (s.params.Legal → EndsWithOutput .hexEncoder (toHexLength len.toNat) t)) := by
  rcases Nat.lt_or_ge s.params.hexMaxIn len.toNat with hlong | hle
  · cases h.symm.trans (exec_toHex_of_too_long hb hlong)
    exact .inl ⟨hlong, rfl, rfl, fun _ => rfl⟩
  · refine .inr ⟨hle, execToHex_err_none hb hle h, fun hp => ?_⟩
    obtain ⟨bs, hlen, hsrc⟩ := execToHex_source hb hle h
    obtain ⟨u, hu, -, -, hout, hstatus, -, hlength, htext, -⟩ :=
      toHexWritesTheTextOfTheSource len bs s hp hb hle hlen hsrc
    cases h.symm.trans hu
    exact ⟨congrArg Status.state hstatus, congrArg Status.err hstatus, hout,
      fun k hk => htext.isSome_read (hlength ▸ hk)⟩

/-- TOBASE32 ends so too. -/
theorem exec_toBase32_ends (hb : ¬s.base32Encoder.regs.Busy) (h : exec (.toBase32 len) s = .next t) :
    (s.params.b32MaxIn < len.toNat ∧ EndsInError .base32Encoder .outOfRange s t) ∨
    (len.toNat ≤ s.params.b32MaxIn ∧ t.base32Encoder.regs.status.err = .none ∧
      (s.params.Legal → EndsWithOutput .base32Encoder (toBase32Length len.toNat) t)) := by
  rcases Nat.lt_or_ge s.params.b32MaxIn len.toNat with hlong | hle
  · cases h.symm.trans (exec_toBase32_of_too_long hb hlong)
    exact .inl ⟨hlong, rfl, rfl, fun _ => rfl⟩
  · refine .inr ⟨hle, execToBase32_err_none hb hle h, fun hp => ?_⟩
    obtain ⟨bs, hlen, hsrc⟩ := execToBase32_source hb hle h
    obtain ⟨u, hu, -, -, hout, hstatus, -, hlength, htext, -⟩ :=
      toBase32WritesTheTextOfTheSource len bs s hp hb hle hlen hsrc
    cases h.symm.trans hu
    exact ⟨congrArg Status.state hstatus, congrArg Status.err hstatus, hout,
      fun k hk => htext.isSome_read (hlength ▸ hk)⟩

/-- FROMHEX ends at acceptance for its length, in the SCAN pass for a character, or with its whole output. -/
theorem exec_fromHex_ends (hb : ¬s.hexDecoder.regs.Busy) (h : exec (.fromHex len) s = .next t) :
    (len.toNat % 2 = 1 ∧ EndsInError .hexDecoder .invalidLength s t) ∨
    (len.toNat % 2 = 0 ∧ InvalidSource hexval .hexDecoder len.toNat s ∧
      EndsInError .hexDecoder .invalidCharacter s t) ∨
    (len.toNat % 2 = 0 ∧ ¬InvalidSource hexval .hexDecoder len.toNat s ∧
      EndsWithOutput .hexDecoder (fromHexLength len.toNat) t) := by
  rcases Nat.mod_two_eq_zero_or_one len.toNat with heven | hodd
  · have hok := hexLengthOk_of_even heven
    obtain ⟨cs, hlen, hsrc⟩ := hexDecoderCall_source hb hok h
    have hbad : InvalidSource hexval .hexDecoder len.toNat s ↔ ∃ c ∈ cs, hexval c = none := hlen ▸ hsrc.exists_read_iff
    by_cases hinvalid : ∃ c ∈ cs, hexval c = none
    · obtain ⟨u, hu, -, -, hout, hstatus, -, hdst⟩ :=
        (badCharacterIsInvalidCharacter len cs s hlen).1 hb heven hsrc hinvalid
      cases h.symm.trans hu
      exact .inr (.inl ⟨heven, hbad.mpr hinvalid, hstatus, hout, fun k => by simp [State.dstRead, hdst]⟩)
    · have hvalid : hexValid cs = true := by
        rwa [← hexValid_eq_false_iff (hlen ▸ hok), Bool.not_eq_false] at hinvalid
      obtain ⟨bs, hbs⟩ := Option.isSome_iff_exists.mp ((isSome_hexDecode cs).trans hvalid)
      obtain ⟨u, hu, -, -, hout, hstatus, -, hlength, hbytes, -⟩ :=
        fromHexWritesTheBytesOfTheSource len cs bs s hb hlen hsrc hbs
      cases h.symm.trans hu
      exact .inr (.inr ⟨heven, hbad.not.mpr hinvalid, congrArg Status.state hstatus, congrArg Status.err hstatus, hout,
        fun k hk => by simpa [State.dstRead] using hbytes.isSome_read (hlength ▸ hk)⟩)
  · cases h.symm.trans ((badLengthIsInvalidLength len s).1 hb hodd)
    exact .inl ⟨hodd, rfl, rfl, fun _ => rfl⟩

/-- FROMBASE32 ends so too. -/
theorem exec_fromBase32_ends (hb : ¬s.base32Decoder.regs.Busy) (h : exec (.fromBase32 len) s = .next t) :
    (b32LengthOk len.toNat = false ∧ EndsInError .base32Decoder .invalidLength s t) ∨
    (b32LengthOk len.toNat = true ∧ InvalidSource b32val .base32Decoder len.toNat s ∧
      EndsInError .base32Decoder .invalidCharacter s t) ∨
    (b32LengthOk len.toNat = true ∧ ¬InvalidSource b32val .base32Decoder len.toNat s ∧
      EndsWithOutput .base32Decoder (fromBase32Length len.toNat) t) := by
  cases hok : b32LengthOk len.toNat with
  | true =>
    obtain ⟨cs, hlen, hsrc⟩ := base32DecoderCall_source hb hok h
    have hbad : InvalidSource b32val .base32Decoder len.toNat s ↔ ∃ c ∈ cs, b32val c = none :=
      hlen ▸ hsrc.exists_read_iff
    by_cases hinvalid : ∃ c ∈ cs, b32val c = none
    · obtain ⟨u, hu, -, -, hout, hstatus, -, hdst⟩ :=
        (badCharacterIsInvalidCharacter len cs s hlen).2 hb hok hsrc hinvalid
      cases h.symm.trans hu
      exact .inr (.inl ⟨rfl, hbad.mpr hinvalid, hstatus, hout, fun k => by simp [State.dstRead, hdst]⟩)
    · have hvalid : b32Valid cs = true := by
        rwa [← b32Valid_eq_false_iff (hlen ▸ hok), Bool.not_eq_false] at hinvalid
      obtain ⟨u, hu, -, -, hout, hstatus, -, hlength, hbytes, -⟩ :=
        fromBase32WritesTheBytesOfTheSource len cs _ s hb hlen hsrc (b32Decode_eq_some_iff.mpr ⟨hvalid, rfl⟩)
      cases h.symm.trans hu
      exact .inr (.inr ⟨rfl, hbad.not.mpr hinvalid, congrArg Status.state hstatus, congrArg Status.err hstatus, hout,
        fun k hk => by simpa [State.dstRead] using hbytes.isSome_read (hlength ▸ hk)⟩)
  | false =>
    cases h.symm.trans ((badLengthIsInvalidLength len s).2 hb (b32LengthOk_eq_false_iff.mp hok))
    exact .inl ⟨rfl, rfl, rfl, fun _ => rfl⟩

/-- ISHEX never ends in an error, whatever its length and its source. -/
theorem exec_isHex_ends (hb : ¬s.hexDecoder.regs.Busy) (h : exec (.isHex len) s = .next t) :
    EndsWithOutput .hexDecoder 0 t := by
  rcases Nat.mod_two_eq_zero_or_one len.toNat with heven | hodd
  · obtain ⟨cs, hlen, hsrc⟩ := hexDecoderCall_source hb (hexLengthOk_of_even heven) h
    obtain ⟨u, hu, -, -, hout, hstatus, -⟩ := isHexAnswersForTheSource len cs s hb hlen hsrc
    cases h.symm.trans hu
    exact ⟨congrArg Status.state hstatus, congrArg Status.err hstatus, congrArg BitVec.toNat hout, nofun⟩
  · cases h.symm.trans ((badLengthValidatesToFalse len s).1 hb hodd)
    exact ⟨rfl, rfl, rfl, nofun⟩

/-- ISBASE32 never ends in an error either. -/
theorem exec_isBase32_ends (hb : ¬s.base32Decoder.regs.Busy) (h : exec (.isBase32 len) s = .next t) :
    EndsWithOutput .base32Decoder 0 t := by
  cases hok : b32LengthOk len.toNat with
  | true =>
    obtain ⟨cs, hlen, hsrc⟩ := base32DecoderCall_source hb hok h
    obtain ⟨u, hu, -, -, hout, hstatus, -⟩ := isBase32AnswersForTheSource len cs s hb hlen hsrc
    cases h.symm.trans hu
    exact ⟨congrArg Status.state hstatus, congrArg Status.err hstatus, congrArg BitVec.toNat hout, nofun⟩
  | false =>
    cases h.symm.trans ((badLengthValidatesToFalse len s).2 hb (b32LengthOk_eq_false_iff.mp hok))
    exact ⟨rfl, rfl, rfl, nofun⟩

end Ends

/-- Settles O33: each way a command ends fixes the error and the cause, and excludes the other causes. -/
theorem eachErrorHasItsCause : Obligations.EachErrorHasItsCause := by
  intro i s t hb h
  cases i with
  | toHex len =>
    rw [unitOf_toHex] at *
    rcases exec_toHex_ends hb h with ⟨hlong, hend⟩ | ⟨hle, herr, -⟩
    · rw [hend.err_eq]
      simpa [Instr.len] using hlong
    · rw [regsOf_hexEncoder, herr]
      simpa [Instr.len] using hle
  | fromHex len =>
    rw [unitOf_fromHex] at *
    rcases exec_fromHex_ends hb h with ⟨hodd, hend⟩ | ⟨heven, hbad, hend⟩ | ⟨heven, hgood, hend⟩
    · rw [hend.err_eq]
      simp [Instr.len, hodd]
    · rw [hend.err_eq]
      simpa [Instr.len, heven, InvalidSource] using hbad
    · rw [hend.err_none]
      simpa [Instr.len, heven, InvalidSource] using hgood
  | isHex len =>
    rw [unitOf_isHex] at *
    rw [(exec_isHex_ends hb h).err_none]
    simp
  | toBase32 len =>
    rw [unitOf_toBase32] at *
    rcases exec_toBase32_ends hb h with ⟨hlong, hend⟩ | ⟨hle, herr, -⟩
    · rw [hend.err_eq]
      simpa [Instr.len] using hlong
    · rw [regsOf_base32Encoder, herr]
      simpa [Instr.len] using hle
  | fromBase32 len =>
    rw [unitOf_fromBase32] at *
    rcases exec_fromBase32_ends hb h with ⟨hclass, hend⟩ | ⟨hok, hbad, hend⟩ | ⟨hok, hgood, hend⟩
    · rw [hend.err_eq]
      simp [Instr.len, ← b32LengthOk_eq_false_iff, hclass]
    · rw [hend.err_eq]
      simpa [Instr.len, ← b32LengthOk_eq_false_iff, hok, InvalidSource] using hbad
    · rw [hend.err_none]
      simpa [Instr.len, ← b32LengthOk_eq_false_iff, hok, InvalidSource] using hgood
  | isBase32 len =>
    rw [unitOf_isBase32] at *
    rw [(exec_isBase32_ends hb h).err_none]
    simp

/-- Unit `u` is DONE, with an error and no output or with its `n` elements of output and no error (R237). -/
def EndsWhole (u : UnitId) (n : Nat) (s t : State) : Prop :=
  (t.regsOf u).status.state = .done ∧
    ((t.regsOf u).status.err ≠ .none → (t.regsOf u).outlen = 0 ∧ ∀ k, t.dstRead u k = s.dstRead u k) ∧
    ((t.regsOf u).status.err = .none → (t.regsOf u).outlen.toNat = n ∧ ∀ k, k < n → (t.dstRead u k).isSome)

theorem EndsInError.endsWhole {u : UnitId} {e : Err} {s t : State} (h : EndsInError u e s t) (he : e ≠ .none)
    (n : Nat) : EndsWhole u n s t :=
  ⟨congrArg Status.state h.status_eq, fun _ => ⟨h.outlen_eq, h.dst_same⟩,
    fun hnone => absurd (h.err_eq.symm.trans hnone) he⟩

theorem EndsWithOutput.endsWhole {u : UnitId} {n : Nat} {t : State} (h : EndsWithOutput u n t) (s : State) :
    EndsWhole u n s t :=
  ⟨h.done, fun herr => absurd h.err_none herr, fun _ => ⟨h.outlen_eq, h.written⟩⟩

/-- Settles O34: each way a command ends is an error without output or the whole output. -/
theorem rejectionIsAtomic : Obligations.RejectionIsAtomic := by
  intro i s t hp hb h
  change EndsWhole (unitOf i) (outputLength i) s t
  cases i with
  | toHex len =>
    rw [unitOf_toHex] at *
    rcases exec_toHex_ends hb h with ⟨-, hend⟩ | ⟨-, -, hend⟩
    · exact hend.endsWhole nofun _
    · exact (hend hp).endsWhole s
  | fromHex len =>
    rw [unitOf_fromHex] at *
    rcases exec_fromHex_ends hb h with ⟨-, hend⟩ | ⟨-, -, hend⟩ | ⟨-, -, hend⟩
    · exact hend.endsWhole nofun _
    · exact hend.endsWhole nofun _
    · exact hend.endsWhole s
  | isHex len =>
    rw [unitOf_isHex] at *
    exact (exec_isHex_ends hb h).endsWhole s
  | toBase32 len =>
    rw [unitOf_toBase32] at *
    rcases exec_toBase32_ends hb h with ⟨-, hend⟩ | ⟨-, -, hend⟩
    · exact hend.endsWhole nofun _
    · exact (hend hp).endsWhole s
  | fromBase32 len =>
    rw [unitOf_fromBase32] at *
    rcases exec_fromBase32_ends hb h with ⟨-, hend⟩ | ⟨-, -, hend⟩ | ⟨-, -, hend⟩
    · exact hend.endsWhole nofun _
    · exact hend.endsWhole nofun _
    · exact hend.endsWhole s
  | isBase32 len =>
    rw [unitOf_isBase32] at *
    exact (exec_isBase32_ends hb h).endsWhole s

end Sys2Proof.Machine

/-! PROOFS. What is refused for the state of a unit: a command whose source is not all written, and the host's access to
the buffers of a BUSY unit (70_reset_and_hazards.md R263, R264, R267, U6). -/

namespace Sys2Proof.Machine

/-! ## A command without its source (R263, U6) -/

section RequireSource
variable {α : Type} {o : UnitOps α} {accept : α → α} {s : State} {r : Refusal}

/-- A unit that has started to run without its source is refused by its name. -/
theorem requireSource_of_missing {x : α} (hb : (o.regs x).Busy) (hmissing : o.sourceReady x = false) :
    o.requireSource x = .refused (.sourceNotWritten o.id) := if_pos ⟨hb, hmissing⟩

theorem issue_of_requireSource_refused (hb : ¬(o.regs (o.get s)).Busy)
    (h : o.requireSource (accept (o.get s)) = .refused r) : o.issue accept s = .refused r := by
  rw [UnitOps.issue, if_neg hb, andThen_of_refused h]

theorem call_of_requireSource_refused {fuel : Nat} (hb : ¬(o.regs (o.get s)).Busy)
    (h : o.requireSource (accept (o.get s)) = .refused r) : o.call fuel accept s = .refused r := by
  rw [UnitOps.call, if_neg hb, andThen_of_refused (andThen_of_refused h)]

end RequireSource

/-- The shared operations `o` name unit `u`, and find its source there exactly where the state shows all of
`SRC[0 .. LEN-1]` written. -/
structure UnitOps.ReadsSourceOf {α : Type} (o : UnitOps α) (u : UnitId) : Prop where
  id_eq : o.id = u
  sourceReady_iff (x : α) (s : State) :
    o.sourceReady x = true ↔ ∀ k, k < (o.regs x).len.toNat → ((o.put x s).srcRead u k).isSome

theorem hexEncoderOps_readsSourceOf : hexEncoderOps.ReadsSourceOf .hexEncoder where
  id_eq := rfl
  sourceReady_iff x _ := by simp [Buffer.allWritten_iff, State.srcRead]

theorem hexDecoderOps_readsSourceOf : hexDecoderOps.ReadsSourceOf .hexDecoder where
  id_eq := rfl
  sourceReady_iff x _ := Buffer.allWritten_iff x.src x.regs.len.toNat

theorem base32EncoderOps_readsSourceOf : base32EncoderOps.ReadsSourceOf .base32Encoder where
  id_eq := rfl
  sourceReady_iff x _ := by simp [Buffer.allWritten_iff, State.srcRead]

theorem base32DecoderOps_readsSourceOf : base32DecoderOps.ReadsSourceOf .base32Decoder where
  id_eq := rfl
  sourceReady_iff x _ := Buffer.allWritten_iff x.src x.regs.len.toNat

/-- Every command runs on a unit, whose operations find the source of that unit. -/
theorem exists_commandOn_readsSourceOf (p : Params) (i : Instr) :
    ∃ (α : Type) (o : UnitOps α) (accept : α → α) (R : α → Prop) (m : α → Nat),
      CommandOn p i o accept R m ∧ o.ReadsSourceOf (unitOf i) := by
  cases i with
  | toHex len => exact ⟨_, _, _, _, _, commandOn_toHex p len, unitOf_toHex len ▸ hexEncoderOps_readsSourceOf⟩
  | fromHex len =>
    exact ⟨_, _, _, _, _, commandOn_hexDecoder p (.inl rfl), unitOf_fromHex len ▸ hexDecoderOps_readsSourceOf⟩
  | isHex len =>
    exact ⟨_, _, _, _, _, commandOn_hexDecoder p (.inr rfl), unitOf_isHex len ▸ hexDecoderOps_readsSourceOf⟩
  | toBase32 len =>
    exact ⟨_, _, _, _, _, commandOn_toBase32 p len, unitOf_toBase32 len ▸ base32EncoderOps_readsSourceOf⟩
  | fromBase32 len =>
    exact ⟨_, _, _, _, _, commandOn_base32Decoder p (.inl rfl), unitOf_fromBase32 len ▸ base32DecoderOps_readsSourceOf⟩
  | isBase32 len =>
    exact ⟨_, _, _, _, _, commandOn_base32Decoder p (.inr rfl), unitOf_isBase32 len ▸ base32DecoderOps_readsSourceOf⟩

/-- Acceptance writes no element of SRC: a command's unit has its source exactly where the state held it before. -/
theorem CommandOn.sourceReady_accept_iff {α : Type} {p : Params} {i : Instr} {o : UnitOps α} {accept : α → α}
    {R : α → Prop} {m : α → Nat} (h : CommandOn p i o accept R m) (ho : o.ReadsSourceOf (unitOf i)) (s : State) :
    o.sourceReady (accept (o.get s)) = true ↔ ∀ k, k < i.len.toNat → (s.srcRead (unitOf i) k).isSome := by
  simp only [ho.sourceReady_iff _ s, h.len_eq, h.srcRead_eq]

/-- Settles O21: a command that does not end at its acceptance makes its unit BUSY, and a BUSY unit is admitted only
with all of its source. -/
theorem commandWithoutItsSourceIsRefused : Obligations.CommandWithoutItsSourceIsRefused := by
  intro s i hb hruns ⟨k, hk, hunwritten⟩
  obtain ⟨α, o, accept, R, m, h, ho⟩ := exists_commandOn_readsSourceOf s.params i
  rw [h.isUnit.regsOf_eq] at hb
  have hbusy : (o.regs (accept (o.get s))).Busy := congrArg Status.state (h.busy _ hruns)
  have hmissing : o.sourceReady (accept (o.get s)) = false := by
    refine Bool.eq_false_iff.mpr fun hready => ?_
    have hwritten := (h.sourceReady_accept_iff ho s).mp hready k hk
    simp [hunwritten] at hwritten
  have hrefused := ho.id_eq ▸ requireSource_of_missing hbusy hmissing
  exact ⟨(h.exec_eq rfl).trans (call_of_requireSource_refused hb hrefused),
    (h.issue_eq rfl).trans (issue_of_requireSource_refused hb hrefused)⟩

/-! ## The buffers of a BUSY unit (R263, R264, R267) -/

theorem hostWriteSrc_of_busy {u : UnitId} {s : State} (hb : (s.regsOf u).Busy) (i : LenWord) (v : Nat) :
    hostWriteSrc u i v s = .refused (.bufferOfBusyUnit u) := by
  cases u <;> exact andThen_of_refused (if_pos hb)

theorem hostReadDst_of_busy {u : UnitId} {s : State} (hb : (s.regsOf u).Busy) (i : LenWord) :
    hostReadDst u i s = .refused (.bufferOfBusyUnit u) := if_pos hb

/-- Settles O56: taking the access from the inputs leaves the unit BUSY, and both accesses ask for that first. -/
theorem buffersOfABusyUnitAreTheUnits : Obligations.BuffersOfABusyUnitAreTheUnits := by
  intro s u i v rest hb hin
  have hb' : (State.regsOf { s with inputs := rest } u).Busy := by rwa [regsOf_inputs]
  rcases hin with hwrite | hread
  · exact (step_of_inputs hwrite).trans (hostWriteSrc_of_busy hb' i v)
  · exact (step_of_inputs hread).trans (hostReadDst_of_busy hb' i)

end Sys2Proof.Machine
